-- ==== Sys2Proof/Word.lean ====
section
/-! DEFINITION. The word and byte types (00_scope.md R9). -/

namespace Sys2Proof

/-- A 32-bit word: a command word, a register, an address (00_scope.md R9, R7 ADDR_W = 32). -/
abbrev Word := BitVec 32

/-- A byte: the unit of memory access (00_scope.md R9, 20_memory.md R80). -/
abbrev Byte := BitVec 8

/-- The number of byte addresses, 2^32 (20_memory.md R80). -/
def addressSpace : Nat := 4294967296

/-- A truth value as a register shows it: bit 0, the other bits 0. -/
def boolWord (b : Bool) : Word := if b then 1#32 else 0#32

end Sys2Proof
end

