-- ==== Sys2Proof/Syntax.lean ====
section
/-! DEFINITION. The commands, one constructor per row of spec/opcode_table.json (30_encoding.md R111, R113). -/

namespace Sys2Proof

/-- Which host writer context a command names (header bit W, R111, R112). -/
inductive WriterId where
  | w0 | w1
  deriving DecidableEq, Repr, Inhabited

/-- The length of a NAL header in bytes (header bit HL: HL + 1 bytes, R112). -/
inductive HdrLen where
  | one | two
  deriving DecidableEq, Repr, Inhabited

/-- ROI ordering mode (header bit MODE, R320; register ROI_MODE, R52). -/
inductive RoiMode where
  | incoming | quality
  deriving DecidableEq, Repr, Inhabited

/-- A command with its header fields and its argument words (R111 to R113). Field widths are the header's own, so every
term has an encoding; argument words are kept whole, ignored bits included (R112). -/
inductive Instr where
  | nop
  | regRd (reg : BitVec 16)
  | regWr (reg : BitVec 16) (value : Word)
  | bwInit (w : WriterId) (base maxBits : Word)
  | bwPutbits (w : WriterId) (n : BitVec 6) (value : Word)
  | bwPutbit (w : WriterId) (b : Bool)
  | bwPutu (w : WriterId) (n : BitVec 6) (value : Word)
  | bwPuts (w : WriterId) (n : BitVec 6) (value : Word)
  | bwPutue (w : WriterId) (value : Word)
  | bwPutse (w : WriterId) (value : Word)
  | bwAlign (w : WriterId) (b : Bool)
  | bwTrail (w : WriterId)
  | bwSkip (w : WriterId) (n : Word)
  | bwGetbits (w : WriterId)
  | bwGetdata (w : WriterId)
  | bwGetwptr (w : WriterId)
  | nalMkhdr (type rl : BitVec 6) (tid : BitVec 3)
  | nalStart (w : WriterId) (hl : HdrLen) (hdr : BitVec 16)
  | nalEpcopy (w : WriterId) (src n : Word)
  | nalFiller (w : WriterId) (hl : HdrLen) (hdr : BitVec 16) (df : Bool) (budget : Word)
  | secAttach (base cap : Word)
  | secAdd (offset length flags : Word)
  | secPicture (record : Word)
  | secAddsei (sfx : Bool) (ptype : BitVec 16) (src size : Word)
  | roiInit (mode : RoiMode) (picW picH bgQuality : Word)
  | roiAdd (x y w h quality : Word)
  | roiClear
  | roiDestroy
  | roiFill (qpn bpl : BitVec 8) (dst : Word)
  | qpFlat (qpn bpl : BitVec 8) (dst value : Word)
  | qpLoad (qpn bpl : BitVec 8) (dst src srcLen : Word)
  deriving DecidableEq, Repr, Inhabited

end Sys2Proof
end

