-- ==== Sys2Proof/Machine/Operands.lean ====
section
/-! DEFINITION. Operand forms and the operand checks that need no state (30_encoding.md R112 and the OperandRange lines of the
command rules). -/

namespace Sys2Proof.Machine

/-- An argument word read as s32: sext_32 (00_scope.md R9, R112). -/
def signedArg (a : Word) : Int := a.toInt

/-- The quality byte of an argument word, A[7:0]; bits 31:8 are ignored (R112). -/
def qualityArg (a : Word) : Byte := a.setWidth 8

/-- BW_PUTBITS and BW_PUTU: N at most 32 and the value within N bits (40_bitwriter.md R154). -/
def putUnsignedOk (n : BitVec 6) (value : Word) : Bool :=
  decide (n.toNat ≤ 32) && decide (value.toNat < 2 ^ n.toNat)

/-- BW_PUTS: N at most 32, only 0 for N = 0, and the signed value within N bits (R157). -/
def putSignedOk (n : BitVec 6) (value : Word) : Bool :=
  decide (n.toNat ≤ 32) &&
    (if n.toNat = 0 then decide (signedArg value = 0)
     else decide (-(2 ^ (n.toNat - 1) : Int) ≤ signedArg value ∧ signedArg value ≤ 2 ^ (n.toNat - 1) - 1))

/-- The n-bit two's-complement form that BW_PUTS writes: v mod 2^N (R157). -/
def putSignedBits (n : BitVec 6) (value : Word) : Nat := (signedArg value % (2 ^ n.toNat : Int)).toNat

/-- BW_PUTUE: value at most 2^32 - 2 (R158). -/
def putUeOk (value : Word) : Bool := decide (value.toNat ≤ 4294967294)

/-- BW_PUTSE: every s32 but -2^31 (R159). -/
def putSeOk (value : Word) : Bool := decide (signedArg value ≠ -2147483648)

/-- The ue value of a signed value: 2v - 1 for v > 0 and -2v otherwise (R159). -/
def seIndex (value : Word) : Nat :=
  if 0 < signedArg value then (2 * signedArg value - 1).toNat else (-2 * signedArg value).toNat

/-- NAL_START and NAL_FILLER: a one-byte header has HDR[15:8] = 0 (41_nal.md R205, R215). -/
def nalHeaderOk (hl : HdrLen) (hdr : BitVec 16) : Bool :=
  match hl with
  | .one => decide (hdr.extractLsb' 8 8 = 0#8)
  | .two => true

/-- The header bytes that HL and HDR give (R205). -/
def nalHeaderBytes (hl : HdrLen) (hdr : BitVec 16) : List Byte :=
  match hl with
  | .one => [hdr.extractLsb' 0 8]
  | .two => [hdr.extractLsb' 8 8, hdr.extractLsb' 0 8]

/-- NAL_MKHDR for AVC: TYPE at most 31, RL at most 3, TID 0 (R203). -/
def avcHeaderOk (type rl : BitVec 6) (tid : BitVec 3) : Bool :=
  decide (type.toNat ≤ 31 ∧ rl.toNat ≤ 3 ∧ tid = 0#3)

/-- NAL_MKHDR for HEVC: TID at most 6 (R203). -/
def hevcHeaderOk (tid : BitVec 3) : Bool := decide (tid.toNat ≤ 6)

/-- SEC_ADD: flag bits 31:6 are 0 (42_sections.md R252). -/
def sectionFlagsOk (flags : Word) : Bool := decide (flags.extractLsb' 6 26 = 0#26)

/-- ROI_INIT: no zero dimension (43_roi_qp.md R320). -/
def pictureSizeOk (picW picH : Word) : Bool := decide (picW ≠ 0#32 ∧ picH ≠ 0#32)

/-- ROI_FILL, QP_FLAT and QP_LOAD: 1 <= QPN <= BPL (R327). -/
def qpLayoutOk (qpn bpl : BitVec 8) : Bool := decide (1 ≤ qpn.toNat ∧ qpn.toNat ≤ bpl.toNat)

/-- REG_WR to STATUS: bits 31:2 are 0 (44_control.md R382). -/
def statusClearOk (value : Word) : Bool := decide (value.extractLsb' 2 30 = 0#30)

/-- REG_WR to CFG_SEI_MASK: bits 31:9 are 0 (R382). -/
def seiMaskOk (value : Word) : Bool := decide (value.extractLsb' 9 23 = 0#23)

end Sys2Proof.Machine
end

