-- ==== Sys2Proof/Decode.lean ====
section
/-! DEFINITION. The command words: decoder and encoder (30_encoding.md R110 to R117). -/

namespace Sys2Proof

/-- The 31 opcodes (R113). -/
inductive Opcode where
  | nop | regRd | regWr
  | bwInit | bwPutbits | bwPutbit | bwPutu | bwPuts | bwPutue | bwPutse | bwAlign | bwTrail | bwSkip
  | bwGetbits | bwGetdata | bwGetwptr
  | nalMkhdr | nalStart | nalEpcopy | nalFiller
  | secAttach | secAdd | secPicture | secAddsei
  | roiInit | roiAdd | roiClear | roiDestroy | roiFill | qpFlat | qpLoad
  deriving DecidableEq, Repr, Inhabited

/-- The OPC column of R113. -/
def opcodeByte : Opcode → Byte
  | .nop => 0x00#8
  | .regRd => 0x01#8
  | .regWr => 0x02#8
  | .bwInit => 0x10#8
  | .bwPutbits => 0x11#8
  | .bwPutbit => 0x12#8
  | .bwPutu => 0x13#8
  | .bwPuts => 0x14#8
  | .bwPutue => 0x15#8
  | .bwPutse => 0x16#8
  | .bwAlign => 0x17#8
  | .bwTrail => 0x18#8
  | .bwSkip => 0x19#8
  | .bwGetbits => 0x1A#8
  | .bwGetdata => 0x1B#8
  | .bwGetwptr => 0x1C#8
  | .nalMkhdr => 0x20#8
  | .nalStart => 0x21#8
  | .nalEpcopy => 0x22#8
  | .nalFiller => 0x23#8
  | .secAttach => 0x30#8
  | .secAdd => 0x31#8
  | .secPicture => 0x32#8
  | .secAddsei => 0x33#8
  | .roiInit => 0x40#8
  | .roiAdd => 0x41#8
  | .roiClear => 0x42#8
  | .roiDestroy => 0x43#8
  | .roiFill => 0x44#8
  | .qpFlat => 0x45#8
  | .qpLoad => 0x46#8

/-- The mask column of R111: the header bits that are fixed (OPC and reserved). -/
def opcodeMask : Opcode → Word
  | .nop => 0xFFFFFFFF#32
  | .regRd => 0xFFFF0000#32
  | .regWr => 0xFFFF0000#32
  | .bwInit => 0xFFFEFFFF#32
  | .bwPutbits => 0xFFFEFFC0#32
  | .bwPutbit => 0xFFFEFFFE#32
  | .bwPutu => 0xFFFEFFC0#32
  | .bwPuts => 0xFFFEFFC0#32
  | .bwPutue => 0xFFFEFFFF#32
  | .bwPutse => 0xFFFEFFFF#32
  | .bwAlign => 0xFFFEFFFE#32
  | .bwTrail => 0xFFFEFFFF#32
  | .bwSkip => 0xFFFEFFFF#32
  | .bwGetbits => 0xFFFEFFFF#32
  | .bwGetdata => 0xFFFEFFFF#32
  | .bwGetwptr => 0xFFFEFFFF#32
  | .nalMkhdr => 0xFFFF8000#32
  | .nalStart => 0xFFFC0000#32
  | .nalEpcopy => 0xFFFEFFFF#32
  | .nalFiller => 0xFFF80000#32
  | .secAttach => 0xFFFFFFFF#32
  | .secAdd => 0xFFFFFFFF#32
  | .secPicture => 0xFFFFFFFF#32
  | .secAddsei => 0xFFFE0000#32
  | .roiInit => 0xFFFFFFFE#32
  | .roiAdd => 0xFFFFFFFF#32
  | .roiClear => 0xFFFFFFFF#32
  | .roiDestroy => 0xFFFFFFFF#32
  | .roiFill => 0xFFFF0000#32
  | .qpFlat => 0xFFFF0000#32
  | .qpLoad => 0xFFFF0000#32

/-- The K column of R113: how many argument words follow the header (R117). -/
def argCount : Opcode → Nat
  | .nop | .regRd | .bwPutbit | .bwAlign | .bwTrail | .bwGetbits | .bwGetdata | .bwGetwptr
  | .nalMkhdr | .nalStart | .roiClear | .roiDestroy => 0
  | .regWr | .bwPutbits | .bwPutu | .bwPuts | .bwPutue | .bwPutse | .bwSkip | .nalFiller | .secPicture
  | .roiFill => 1
  | .bwInit | .nalEpcopy | .secAttach | .secAddsei | .qpFlat => 2
  | .secAdd | .roiInit | .qpLoad => 3
  | .roiAdd => 5

/-- Every opcode, in the order of R113. -/
def allOpcodes : List Opcode :=
  [.nop, .regRd, .regWr, .bwInit, .bwPutbits, .bwPutbit, .bwPutu, .bwPuts, .bwPutue, .bwPutse, .bwAlign, .bwTrail,
   .bwSkip, .bwGetbits, .bwGetdata, .bwGetwptr, .nalMkhdr, .nalStart, .nalEpcopy, .nalFiller, .secAttach, .secAdd,
   .secPicture, .secAddsei, .roiInit, .roiAdd, .roiClear, .roiDestroy, .roiFill, .qpFlat, .qpLoad]

/-- The OPC field of a header word (R110). -/
def headerOpc (h : Word) : Byte := h.extractLsb' 24 8

/-- The row of R113 whose OPC the header has; none for an OPC that is not in the map (R115). -/
def opcodeOf (h : Word) : Option Opcode := allOpcodes.find? (fun op => opcodeByte op = headerOpc h)

/-- R114: every fixed bit of the row has its value in the header word. -/
def headerMatches (op : Opcode) (h : Word) : Bool :=
  h &&& opcodeMask op = (opcodeByte op).setWidth 32 <<< 24

/-- The W field, bit 16 (R111). -/
def fieldW (h : Word) : WriterId := if h.getLsbD 16 then .w1 else .w0

/-- The HL field, bit 17 of F_NAL (R111, R112). -/
def fieldHL (h : Word) : HdrLen := if h.getLsbD 17 then .two else .one

/-- The MODE field, bit 0 of F_MODE (R111, R320). -/
def fieldMode (h : Word) : RoiMode := if h.getLsbD 0 then .quality else .incoming

/-- REG of F_REG, HDR of F_NAL and PTYPE of F_SEI: bits 15:0 (R111). -/
def fieldLow16 (h : Word) : BitVec 16 := h.extractLsb' 0 16

/-- The command a matching header and its argument words stand for; none when argument words are still owed (R116). -/
def buildInstr (op : Opcode) (h : Word) (args : List Word) : Option (Instr × List Word) :=
  match op, args with
  | .nop, r => some (.nop, r)
  | .regRd, r => some (.regRd (fieldLow16 h), r)
  | .regWr, a :: r => some (.regWr (fieldLow16 h) a, r)
  | .bwInit, a :: b :: r => some (.bwInit (fieldW h) a b, r)
  | .bwPutbits, a :: r => some (.bwPutbits (fieldW h) (h.extractLsb' 0 6) a, r)
  | .bwPutbit, r => some (.bwPutbit (fieldW h) (h.getLsbD 0), r)
  | .bwPutu, a :: r => some (.bwPutu (fieldW h) (h.extractLsb' 0 6) a, r)
  | .bwPuts, a :: r => some (.bwPuts (fieldW h) (h.extractLsb' 0 6) a, r)
  | .bwPutue, a :: r => some (.bwPutue (fieldW h) a, r)
  | .bwPutse, a :: r => some (.bwPutse (fieldW h) a, r)
  | .bwAlign, r => some (.bwAlign (fieldW h) (h.getLsbD 0), r)
  | .bwTrail, r => some (.bwTrail (fieldW h), r)
  | .bwSkip, a :: r => some (.bwSkip (fieldW h) a, r)
  | .bwGetbits, r => some (.bwGetbits (fieldW h), r)
  | .bwGetdata, r => some (.bwGetdata (fieldW h), r)
  | .bwGetwptr, r => some (.bwGetwptr (fieldW h), r)
  | .nalMkhdr, r => some (.nalMkhdr (h.extractLsb' 0 6) (h.extractLsb' 6 6) (h.extractLsb' 12 3), r)
  | .nalStart, r => some (.nalStart (fieldW h) (fieldHL h) (fieldLow16 h), r)
  | .nalEpcopy, a :: b :: r => some (.nalEpcopy (fieldW h) a b, r)
  | .nalFiller, a :: r => some (.nalFiller (fieldW h) (fieldHL h) (fieldLow16 h) (h.getLsbD 18) a, r)
  | .secAttach, a :: b :: r => some (.secAttach a b, r)
  | .secAdd, a :: b :: c :: r => some (.secAdd a b c, r)
  | .secPicture, a :: r => some (.secPicture a, r)
  | .secAddsei, a :: b :: r => some (.secAddsei (h.getLsbD 16) (fieldLow16 h) a b, r)
  | .roiInit, a :: b :: c :: r => some (.roiInit (fieldMode h) a b c, r)
  | .roiAdd, a :: b :: c :: d :: e :: r => some (.roiAdd a b c d e, r)
  | .roiClear, r => some (.roiClear, r)
  | .roiDestroy, r => some (.roiDestroy, r)
  | .roiFill, a :: r => some (.roiFill (h.extractLsb' 0 8) (h.extractLsb' 8 8) a, r)
  | .qpFlat, a :: b :: r => some (.qpFlat (h.extractLsb' 0 8) (h.extractLsb' 8 8) a b, r)
  | .qpLoad, a :: b :: c :: r => some (.qpLoad (h.extractLsb' 0 8) (h.extractLsb' 8 8) a b c, r)
  | _, _ => none

/-- What the words at the front of the command port are. -/
inductive Decoded where
  /-- no word has arrived (R414) -/
  | noHeader
  /-- the OPC is not in the opcode map (R115) -/
  | illegalOpcode (h : Word) (rest : List Word)
  /-- a reserved bit of the header is set (R115) -/
  | reservedBitSet (h : Word) (rest : List Word)
  /-- a legal header whose argument words have not all arrived (R116, R415) -/
  | owed (op : Opcode)
  /-- a whole command, and the words after it -/
  | command (i : Instr) (rest : List Word)
  deriving DecidableEq, Repr

/-- The decoder (R110 to R117): total on any words, rejecting by name. -/
def decode : List Word → Decoded
  | [] => .noHeader
  | h :: args =>
    match opcodeOf h with
    | none => .illegalOpcode h args
    | some op =>
      if headerMatches op h then
        match buildInstr op h args with
        | some (i, rest) => .command i rest
        | none => .owed op
      else .reservedBitSet h args

/-- The encoding of W (R111). -/
def bitW : WriterId → BitVec 1
  | .w0 => 0#1
  | .w1 => 1#1

/-- The encoding of HL (R112). -/
def bitHL : HdrLen → BitVec 1
  | .one => 0#1
  | .two => 1#1

/-- The encoding of MODE (R320). -/
def bitMode : RoiMode → BitVec 1
  | .incoming => 0#1
  | .quality => 1#1

/-- The opcode of a command. -/
def instrOpcode : Instr → Opcode
  | .nop => .nop
  | .regRd _ => .regRd
  | .regWr _ _ => .regWr
  | .bwInit _ _ _ => .bwInit
  | .bwPutbits _ _ _ => .bwPutbits
  | .bwPutbit _ _ => .bwPutbit
  | .bwPutu _ _ _ => .bwPutu
  | .bwPuts _ _ _ => .bwPuts
  | .bwPutue _ _ => .bwPutue
  | .bwPutse _ _ => .bwPutse
  | .bwAlign _ _ => .bwAlign
  | .bwTrail _ => .bwTrail
  | .bwSkip _ _ => .bwSkip
  | .bwGetbits _ => .bwGetbits
  | .bwGetdata _ => .bwGetdata
  | .bwGetwptr _ => .bwGetwptr
  | .nalMkhdr _ _ _ => .nalMkhdr
  | .nalStart _ _ _ => .nalStart
  | .nalEpcopy _ _ _ => .nalEpcopy
  | .nalFiller _ _ _ _ _ => .nalFiller
  | .secAttach _ _ => .secAttach
  | .secAdd _ _ _ => .secAdd
  | .secPicture _ => .secPicture
  | .secAddsei _ _ _ _ => .secAddsei
  | .roiInit _ _ _ _ => .roiInit
  | .roiAdd _ _ _ _ _ => .roiAdd
  | .roiClear => .roiClear
  | .roiDestroy => .roiDestroy
  | .roiFill _ _ _ => .roiFill
  | .qpFlat _ _ _ _ => .qpFlat
  | .qpLoad _ _ _ _ _ => .qpLoad

/-- The header's bits 23:0: the fields of the command's format, reserved bits 0 (R111). -/
def headerFields : Instr → BitVec 24
  | .nop => 0#24
  | .regRd reg => 0#8 ++ reg
  | .regWr reg _ => 0#8 ++ reg
  | .bwInit w _ _ => 0#7 ++ bitW w ++ 0#16
  | .bwPutbits w n _ => 0#7 ++ bitW w ++ 0#10 ++ n
  | .bwPutbit w b => 0#7 ++ bitW w ++ 0#15 ++ BitVec.ofBool b
  | .bwPutu w n _ => 0#7 ++ bitW w ++ 0#10 ++ n
  | .bwPuts w n _ => 0#7 ++ bitW w ++ 0#10 ++ n
  | .bwPutue w _ => 0#7 ++ bitW w ++ 0#16
  | .bwPutse w _ => 0#7 ++ bitW w ++ 0#16
  | .bwAlign w b => 0#7 ++ bitW w ++ 0#15 ++ BitVec.ofBool b
  | .bwTrail w => 0#7 ++ bitW w ++ 0#16
  | .bwSkip w _ => 0#7 ++ bitW w ++ 0#16
  | .bwGetbits w => 0#7 ++ bitW w ++ 0#16
  | .bwGetdata w => 0#7 ++ bitW w ++ 0#16
  | .bwGetwptr w => 0#7 ++ bitW w ++ 0#16
  | .nalMkhdr type rl tid => 0#9 ++ tid ++ rl ++ type
  | .nalStart w hl hdr => 0#6 ++ bitHL hl ++ bitW w ++ hdr
  | .nalEpcopy w _ _ => 0#7 ++ bitW w ++ 0#16
  | .nalFiller w hl hdr df _ => 0#5 ++ BitVec.ofBool df ++ bitHL hl ++ bitW w ++ hdr
  | .secAttach _ _ => 0#24
  | .secAdd _ _ _ => 0#24
  | .secPicture _ => 0#24
  | .secAddsei sfx ptype _ _ => 0#7 ++ BitVec.ofBool sfx ++ ptype
  | .roiInit mode _ _ _ => 0#23 ++ bitMode mode
  | .roiAdd _ _ _ _ _ => 0#24
  | .roiClear => 0#24
  | .roiDestroy => 0#24
  | .roiFill qpn bpl _ => 0#8 ++ bpl ++ qpn
  | .qpFlat qpn bpl _ _ => 0#8 ++ bpl ++ qpn
  | .qpLoad qpn bpl _ _ _ => 0#8 ++ bpl ++ qpn

/-- The header word of a command: OPC in bits 31:24, then the fields (R110, R111). -/
def headerWord (i : Instr) : Word := opcodeByte (instrOpcode i) ++ headerFields i

/-- The argument words of a command, in the order of R113. -/
def argWords : Instr → List Word
  | .nop => []
  | .regRd _ => []
  | .regWr _ value => [value]
  | .bwInit _ base maxBits => [base, maxBits]
  | .bwPutbits _ _ value => [value]
  | .bwPutbit _ _ => []
  | .bwPutu _ _ value => [value]
  | .bwPuts _ _ value => [value]
  | .bwPutue _ value => [value]
  | .bwPutse _ value => [value]
  | .bwAlign _ _ => []
  | .bwTrail _ => []
  | .bwSkip _ n => [n]
  | .bwGetbits _ => []
  | .bwGetdata _ => []
  | .bwGetwptr _ => []
  | .nalMkhdr _ _ _ => []
  | .nalStart _ _ _ => []
  | .nalEpcopy _ src n => [src, n]
  | .nalFiller _ _ _ _ budget => [budget]
  | .secAttach base cap => [base, cap]
  | .secAdd offset length flags => [offset, length, flags]
  | .secPicture record => [record]
  | .secAddsei _ _ src size => [src, size]
  | .roiInit _ picW picH bgQuality => [picW, picH, bgQuality]
  | .roiAdd x y w h quality => [x, y, w, h, quality]
  | .roiClear => []
  | .roiDestroy => []
  | .roiFill _ _ dst => [dst]
  | .qpFlat _ _ dst value => [dst, value]
  | .qpLoad _ _ dst src srcLen => [dst, src, srcLen]

/-- The words of a command (R110). -/
def encode (i : Instr) : List Word := headerWord i :: argWords i

/-- The words of an instruction given as one number, bit 0 the least significant bit of the first word: the header and the
argument words its opcode takes; a header that decodes to no opcode stands alone (R115). -/
def tableWords (nbits w : Nat) : List Word :=
  let v := w % 2 ^ nbits
  let h : Word := BitVec.ofNat 32 v
  let k := match opcodeOf h with
    | some op => argCount op
    | none => 0
  h :: (List.range k).map (fun j => BitVec.ofNat 32 (v >>> (32 * (j + 1))))

/-- The instruction the decoder reads from a table row's bits. -/
def decodeTableWord (nbits w : Nat) : Option Instr :=
  match decode (tableWords nbits w) with
  | .command i _ => some i
  | _ => none

end Sys2Proof
end

