-- ==== Sys2Proof/Config.lean ====
section
/-! DEFINITION. What an implementation fixes: the OPEN parameters of 00_scope.md R7, the types of the payload-source port
(20_memory.md R92), and the one byte an unlisted memory address reads as. -/

namespace Sys2Proof

/-- The codec variants (00_scope.md R2, 10_state.md R33). -/
inductive Codec where
  | avc | hevc | other
  deriving DecidableEq, Repr, Inhabited

/-- Slice types of the picture-status record (30_encoding.md R119): 0 is B, 1 is P, 2 is I. -/
inductive SliceType where
  | b | p | i
  deriving DecidableEq, Repr, Inhabited

/-- One hardware-reported stream part (30_encoding.md R119 PART_OFF, PART_SIZE). -/
structure StreamPart where
  off  : Word
  size : Word
  deriving DecidableEq, Repr, Inhabited

/-- The decoded picture-status record (30_encoding.md R119); NPARTS is the length of `parts`. -/
structure PicRecord where
  first         : Bool
  last          : Bool
  idr           : Bool
  field         : Bool
  uduPending    : Bool
  ppsChanged    : Bool
  audForce      : Bool
  vpsForce      : Bool
  stype         : SliceType
  tid           : BitVec 3
  recoveryCount : Word
  fillerBytes   : Word
  hdrBase       : Word
  sliceCount    : Word
  cpbInit       : Word
  parts         : List StreamPart
  deriving DecidableEq, Repr, Inhabited

/-- The kinds of payload the block asks the payload source for (20_memory.md R92). -/
inductive PayloadKind where
  | aud | vps | sps | pps
  | seiAps | seiBp | seiRp | seiPt | seiMdcv | seiCll | seiAtc | seiSt2094x10 | seiSt2094x40 | seiUdu
  deriving DecidableEq, Repr, Inhabited

/-- The context a PAYLOAD call carries (20_memory.md R92): the record, and CPB_DELAY, CPB_INIT_DELAY and CFG_CODEC as
they stand at the call. -/
structure PayloadCtx where
  record       : PicRecord
  cpbDelay     : Word
  cpbInitDelay : Word
  codec        : Codec
  deriving DecidableEq, Repr, Inhabited

/-- A UUID: 16 bytes (20_memory.md R93). -/
abbrev Uuid := Vector Byte 16

/-- The bytes that code a slice count in an SEI_UDU answer, at least one (R93, log entry 11). -/
structure SliceCountCode where
  first : Byte
  rest  : List Byte
  deriving DecidableEq, Repr, Inhabited

/-- The bytes of a slice-count code. -/
def SliceCountCode.bytes (c : SliceCountCode) : List Byte := c.first :: c.rest

/-- The SEI_UDU answers of a payload source that a launch has fixed: the UUID, the codes of some slice counts, and what stands
before and after the code (R93). -/
structure UduSource where
  uuid   : Uuid
  before : List Byte
  codes  : List (Word × SliceCountCode)
  after  : List Byte
  deriving DecidableEq, Repr

/-- One answer of the payload source that a launch has fixed. SEI_UDU answers are fixed by `UduSource`, and an entry for that
kind answers nothing. -/
structure PayloadEntry where
  kind  : PayloadKind
  layer : Nat
  ctx   : PayloadCtx
  bytes : List Byte
  deriving DecidableEq, Repr

/-- A range of byte addresses [base, base + size) that the memory port admits; a list of them is MEM_OK (R7, R80). -/
structure Region where
  base : Nat
  size : Nat
  deriving DecidableEq, Repr, Inhabited

/-- The parameters that the read-only registers 0x060 to 0x066 show (00_scope.md R7, 10_state.md R54). -/
structure Params where
  tmpCap      : Word
  maxSections : Word
  maxParts    : Word
  maxRoi      : Word
  maxLayers   : Word
  sentinel    : Byte
  fmv0Mask    : Byte
  deriving DecidableEq, Repr

/-- What the spec says of the parameters whatever their values: MAX_SECTIONS and MAX_ROI at most 256 (R47, R53),
MAX_LAYERS from 1 to 64 (R38, D54), FMV0_MASK one of 0x40 and 0x80 and set in SENTINEL (R7). -/
abbrev Params.Ok (p : Params) : Prop :=
  p.maxSections.toNat ≤ 256 ∧ p.maxRoi.toNat ≤ 256 ∧ 1 ≤ p.maxLayers.toNat ∧ p.maxLayers.toNat ≤ 64 ∧
    (p.fmv0Mask = 0x40#8 ∨ p.fmv0Mask = 0x80#8) ∧ p.sentinel &&& p.fmv0Mask = p.fmv0Mask

/-- The two places FMV0_MASK may have (00_scope.md R7). -/
inductive Fmv0Place where
  | bit6 | bit7
  deriving DecidableEq, Repr, Inhabited

/-- The mask of a place of the force-MV0 bit. -/
def Fmv0Place.mask : Fmv0Place → Byte
  | .bit6 => 0x40#8
  | .bit7 => 0x80#8

/-- OPEN parameter TMP_CAP (R7): no value is assumed. -/
opaque Config.tmpCap : Word
/-- OPEN parameter MAX_SECTIONS (R7), at most 256 (R47). -/
opaque Config.maxSections : Fin 257
/-- OPEN parameter MAX_PARTS (R7). -/
opaque Config.maxParts : Word
/-- OPEN parameter MAX_ROI (R7), at most 256 (R53). -/
opaque Config.maxRoi : Fin 257
/-- OPEN parameter MAX_LAYERS (R7) less one: MAX_LAYERS is 1 to 64 (R38, D54). -/
opaque Config.maxLayersLessOne : Fin 64
/-- OPEN parameter FMV0_MASK (R7). -/
opaque Config.fmv0Place : Fmv0Place
/-- The bits of the OPEN parameter SENTINEL (R7) other than its force-MV0 bit. -/
opaque Config.sentinelBits : Byte
/-- OPEN parameter MEM_OK (R7, R80), as the list of admitted address ranges. -/
opaque Config.memMap : List Region
/-- OPEN parameter PAYLOAD (R7, R92, R93) for every kind but SEI_UDU: a function with finite results and no effect. -/
opaque Config.payload : PayloadKind → Nat → PayloadCtx → List Byte
/-- The fixed UUID that every SEI_UDU answer begins with (R93): which one is open. -/
opaque Config.uduUuid : Uuid
/-- How an SEI_UDU answer codes the slice count (R93): open. -/
opaque Config.sliceCountCode : Word → SliceCountCode
/-- What stands between the UUID and the slice count in an SEI_UDU answer (R93): open. -/
opaque Config.uduBefore : PayloadCtx → List Byte
/-- What follows the slice count in an SEI_UDU answer (R93): open. -/
opaque Config.uduAfter : PayloadCtx → List Byte

/-- The parameters, with the constraints of R7, R38, R47 and R53 built in. -/
def Config.params : Params where
  tmpCap := Config.tmpCap
  maxSections := BitVec.ofNat 32 Config.maxSections.val
  maxParts := Config.maxParts
  maxRoi := BitVec.ofNat 32 Config.maxRoi.val
  maxLayers := BitVec.ofNat 32 (Config.maxLayersLessOne.val + 1)
  sentinel := Config.sentinelBits ||| Config.fmv0Place.mask
  fmv0Mask := Config.fmv0Place.mask

/-- What a launch may fix of the OPEN parameters: their values, the admitted address ranges, and answers of the payload
source. -/
structure Platform where
  params   : Params
  memMap   : List Region
  payloads : List PayloadEntry
  udu      : Option UduSource
  deriving DecidableEq, Repr

/-- What a byte of memory that nothing has written reads as. DESIGN CHOICE (unsafe; log entry 3): R442 gives no value; this
is the value 95_test_vectors.md section 1 starts every vector from. -/
def Config.unlistedByte : Byte := 0xEE#8

end Sys2Proof
end

