-- ==== Sys2Proof/Machine/State.lean ====
section
/-! DEFINITION. The machine's state as plain data (10_state.md), its stop reasons, and the state after reset
(70_reset_and_hazards.md R441). -/

namespace Sys2Proof.Machine

/-- The reasons a step could stop the model. There are none: every fault of the spec is a next state with STATUS.HALTED set
(60_exceptions.md R403), and a block that waits stays as it is (R415). Safe. -/
inductive Fault where
  deriving DecidableEq, Repr

/-- The reasons the model could refuse. -/
inductive Refusal where
  /-- Raised only by an arm of `exec` for a command that has no meaning yet; no arm does so. Safe. -/
  | notModelled (mnemonic : String)
  deriving DecidableEq, Repr

/-- The fault causes of 60_exceptions.md R401, in the order of their codes 0 to 9. -/
inductive FaultCause where
  | none | illegalCommand | operandRange | notInitialised | unsupported | roiFull | sectionFull | sectionRange
  | busError | regAccess
  deriving DecidableEq, Repr, Inhabited

/-- CFG_SC_LEN: the start-code length, 3 or 4 bytes (10_state.md R34). -/
inductive ScLen where
  | three | four
  deriving DecidableEq, Repr, Inhabited

/-- CFG_FILLER: 0 off, 1 filled with 0xFF, 2 "don't fill" form (10_state.md R36). -/
inductive FillerPolicy where
  | off | fill | dontFill
  deriving DecidableEq, Repr, Inhabited

/-- A host bit-writer context W[w] (10_state.md R43). BITCNT is unbounded inside; its register shows it mod 2^32. -/
structure HostWriter where
  valid   : Bool
  base    : Word
  maxBits : Word
  bitCnt  : Nat
  ovf     : Bool
  deriving DecidableEq, Repr, Inhabited

/-- An entry of the section table (10_state.md R47). -/
structure Section where
  offset : Word
  length : Word
  flags  : Word
  deriving DecidableEq, Repr, Inhabited

/-- The ROI context's registers (10_state.md R52), less ROI_COUNT, which is the length of the node list. -/
structure RoiContext where
  valid   : Bool
  picW    : Word
  picH    : Word
  log2Lcu : Word
  lcuW    : Word
  lcuH    : Word
  bg      : Byte
  mode    : RoiMode
  codec   : Codec
  deriving DecidableEq, Repr, Inhabited

/-- A node of the ROI list (10_state.md R53): LCU coordinates, size in LCUs after clipping, stored quality code. -/
structure RoiNode where
  x0   : Word
  y0   : Word
  w    : Word
  h    : Word
  code : Byte
  deriving DecidableEq, Repr, Inhabited

/-- Memory: the bytes that differ from what an unlisted address reads as (`Config.unlistedByte`), addresses strictly
rising. -/
structure Memory where
  cells : List Host.Cell
  deriving DecidableEq, Repr

/-- The state of the block (10_state.md R30) and of its ports. -/
structure State where
  /-- CMD_SEQ (R42) -/
  cmdSeq        : Word
  /-- RES (R32) -/
  res           : Word
  /-- STATUS bit 0 (R40) -/
  fillerClipped : Bool
  /-- STATUS bit 1 (R40) -/
  cfgDropped    : Bool
  /-- STATUS bit 31 (R40) -/
  halted        : Bool
  /-- FAULT_CAUSE (R41) -/
  faultCause    : FaultCause
  /-- FAULT_INFO (R41) -/
  faultInfo     : Word
  /-- FAULT_SEQ (R41) -/
  faultSeq      : Word
  /-- FAULT_ARG (R41) -/
  faultArg      : Word
  /-- CFG_CODEC (R33) -/
  cfgCodec      : Codec
  /-- CFG_SC_LEN (R34) -/
  cfgScLen      : ScLen
  /-- CFG_AUD (R35) -/
  cfgAud        : Bool
  /-- CFG_FILLER (R36) -/
  cfgFiller     : FillerPolicy
  /-- CFG_SEI_MASK bits 8:0 (R37) -/
  cfgSeiMask    : BitVec 9
  /-- CFG_NUM_LAYERS (R38) -/
  cfgNumLayers  : Word
  /-- CFG_HDR_RESERVE (R39) -/
  cfgHdrReserve : Word
  /-- W[0] (R43) -/
  w0            : HostWriter
  /-- W[1] (R43) -/
  w1            : HostWriter
  /-- SB_VALID (R45) -/
  sbValid       : Bool
  /-- SB_BASE (R45) -/
  sbBase        : Word
  /-- SB_CAP (R45) -/
  sbCap         : Word
  /-- SB_HDRBASE (R46) -/
  sbHdrBase     : Word
  /-- SB_HDRCUR (R46) -/
  sbHdrCur      : Word
  /-- SECT, with SEC_COUNT its length (R47) -/
  sections      : List Section
  /-- CPB_DELAY (R50) -/
  cpbDelay      : Word
  /-- CPB_INIT_DELAY (R50) -/
  cpbInitDelay  : Word
  /-- LAST_TID (R51) -/
  lastTid       : BitVec 3
  /-- the ROI context (R52) -/
  roi           : RoiContext
  /-- NODE, with ROI_COUNT its length (R53) -/
  nodes         : List RoiNode
  /-- the parameter values (registers 0x060 to 0x066, R54), MEM_OK (R80) and payload answers (R92) that a launch has fixed;
  with none fixed they are the bodiless constants of Config (R7). No command writes it. -/
  platform      : Option Platform
  /-- the memory behind the memory port (R80) -/
  mem           : Memory
  /-- the command port's words that were delivered and not yet taken (R91) -/
  port          : List Word
  deriving DecidableEq, Repr

/-- A writer context after reset (R441): every field 0. -/
def HostWriter.reset : HostWriter :=
  { valid := false, base := 0#32, maxBits := 0#32, bitCnt := 0, ovf := false }

/-- The ROI context after reset, and after ROI_DESTROY (R441, R326): every register 0. -/
def RoiContext.reset : RoiContext :=
  { valid := false, picW := 0#32, picH := 0#32, log2Lcu := 0#32, lcuW := 0#32, lcuH := 0#32, bg := 0#8,
    mode := .incoming, codec := .avc }

/-- The machine right after power-on reset (R441, the reset column of R55), with no command word delivered and no byte of
memory listed (R442; log entry 3). No parameter is fixed: they are the bodiless constants of Config (R7, R443). -/
def State.reset : State where
  cmdSeq := 0#32
  res := 0#32
  fillerClipped := false
  cfgDropped := false
  halted := false
  faultCause := .none
  faultInfo := 0#32
  faultSeq := 0#32
  faultArg := 0#32
  cfgCodec := .avc
  cfgScLen := .four
  cfgAud := false
  cfgFiller := .off
  cfgSeiMask := 0#9
  cfgNumLayers := 1#32
  cfgHdrReserve := 2048#32
  w0 := HostWriter.reset
  w1 := HostWriter.reset
  sbValid := false
  sbBase := 0#32
  sbCap := 0#32
  sbHdrBase := 0#32
  sbHdrCur := 0#32
  sections := []
  cpbDelay := 0#32
  cpbInitDelay := 0#32
  lastTid := 0#3
  roi := RoiContext.reset
  nodes := []
  platform := none
  mem := { cells := [] }
  port := []

/-- The answer of an instruction's meaning. -/
abbrev Result := Host.Outcome State Fault Refusal

end Sys2Proof.Machine
end

