-- ==== Sys2Proof/Machine/Flags.lean ====
section
/-! DEFINITION. Flags and coded registers: STATUS (10_state.md R40), section flags (R48), and the codes of the registers that
hold one of a few values. -/

namespace Sys2Proof.Machine

/-- STATUS bit 0, FILLER_CLIPPED (R40). -/
def statusFillerClipped : Word := 0x00000001#32
/-- STATUS bit 1, CFG_DROPPED (R40). -/
def statusCfgDropped : Word := 0x00000002#32
/-- STATUS bit 31, HALTED (R40). -/
def statusHalted : Word := 0x80000000#32

/-- The STATUS register (R40): bits 30:2 read 0. -/
def State.status (s : State) : Word :=
  (if s.fillerClipped then statusFillerClipped else 0#32) |||
    (if s.cfgDropped then statusCfgDropped else 0#32) |||
    (if s.halted then statusHalted else 0#32)

/-- SECT FLAGS bit 0 (R48). -/
def secEndOfFrame : Word := 0x01#32
/-- SECT FLAGS bit 1 (R48). -/
def secConfig : Word := 0x02#32
/-- SECT FLAGS bit 2 (R48). -/
def secSync : Word := 0x04#32
/-- SECT FLAGS bit 3 (R48). -/
def secSeiPrefix : Word := 0x08#32
/-- SECT FLAGS bit 4 (R48). -/
def secSeiSuffix : Word := 0x10#32
/-- SECT FLAGS bit 5 (R48). -/
def secAppFiller : Word := 0x20#32

/-- Whether a section carries a flag. -/
def Section.has (x : Section) (flag : Word) : Bool := decide (x.flags &&& flag ≠ 0#32)

/-- FAULT_CAUSE codes (60_exceptions.md R401). -/
def faultCode : FaultCause → Word
  | .none => 0#32
  | .illegalCommand => 1#32
  | .operandRange => 2#32
  | .notInitialised => 3#32
  | .unsupported => 4#32
  | .roiFull => 5#32
  | .sectionFull => 6#32
  | .sectionRange => 7#32
  | .busError => 8#32
  | .regAccess => 9#32

/-- CFG_CODEC and ROI_CODEC values (10_state.md R33). -/
def codecWord : Codec → Word
  | .avc => 0#32
  | .hevc => 1#32
  | .other => 2#32

/-- The codec a CFG_CODEC value selects; none for an illegal value (R33, 44_control.md R382). -/
def codecOfWord (v : Word) : Option Codec :=
  if v = 0#32 then some .avc else if v = 1#32 then some .hevc else if v = 2#32 then some .other else none

/-- CFG_SC_LEN values (R34). -/
def scLenWord : ScLen → Word
  | .three => 3#32
  | .four => 4#32

/-- The start-code length a CFG_SC_LEN value selects (R34, R382). -/
def scLenOfWord (v : Word) : Option ScLen :=
  if v = 3#32 then some .three else if v = 4#32 then some .four else none

/-- CFG_FILLER values (R36). -/
def fillerWord : FillerPolicy → Word
  | .off => 0#32
  | .fill => 1#32
  | .dontFill => 2#32

/-- The policy a CFG_FILLER value selects (R36, R382). -/
def fillerOfWord (v : Word) : Option FillerPolicy :=
  if v = 0#32 then some .off else if v = 1#32 then some .fill else if v = 2#32 then some .dontFill else none

/-- A register of one bit: 0 or 1, nothing else legal (R35, R382). -/
def boolOfWord (v : Word) : Option Bool :=
  if v = 0#32 then some false else if v = 1#32 then some true else none

/-- ROI_MODE values (R52). -/
def roiModeWord : RoiMode → Word
  | .incoming => 0#32
  | .quality => 1#32

/-- LOG2_LCU of a codec (00_scope.md R8). -/
def log2Lcu : Codec → Nat
  | .avc => 4
  | .hevc => 5
  | .other => 6

/-- QPMIN of a codec (R8). -/
def qpMin : Codec → Int
  | .avc => -32
  | .hevc => -32
  | .other => -128

/-- QPMAX of a codec (R8). -/
def qpMax : Codec → Int
  | .avc => 31
  | .hevc => 31
  | .other => 127

end Sys2Proof.Machine
end

