-- ==== Sys2Proof/Machine/Memory.lean ====
section
/-! DEFINITION. The memory port: bytes, ranges, little-endian words, and range admission (20_memory.md R80 to R84). -/

namespace Sys2Proof.Machine

/-- What an address that nothing has written reads as (log entry 3). -/
def unlisted : Byte := Config.unlistedByte

/-- The byte a list of cells holds at an address. -/
def readCells : List Host.Cell → Nat → Byte
  | [], _ => unlisted
  | (x, v) :: t, a => if a = x then v else readCells t a

/-- The cells after one byte is written, in canonical form: addresses strictly rising, no entry equal to `unlisted`. -/
def writeCells : List Host.Cell → Nat → Byte → List Host.Cell
  | [], a, b => if b = unlisted then [] else [(a, b)]
  | (x, v) :: t, a, b =>
    if a < x then (if b = unlisted then (x, v) :: t else (a, b) :: (x, v) :: t)
    else if a = x then (if b = unlisted then t else (a, b) :: t)
    else (x, v) :: writeCells t a b

/-- MemRead(a, 1) (00_scope.md R11). -/
def readByte (m : Memory) (a : Nat) : Byte := readCells m.cells a

/-- MemWrite(a, 1, b) (R11). The port has no address at or past 2^32 (R80), so a write there lands nowhere; admission keeps
every run away from it (R84; log entry 9). -/
def writeByte (m : Memory) (a : Nat) (b : Byte) : Memory :=
  if a < addressSpace then { cells := writeCells m.cells a b } else m

/-- MemRead(a, n) (R11). -/
def readBytes (m : Memory) (a : Nat) : Nat → List Byte
  | 0 => []
  | n + 1 => readByte m a :: readBytes m (a + 1) n

/-- MemWrite(a, len s, s) (R11). -/
def writeBytes (m : Memory) (a : Nat) : List Byte → Memory
  | [] => m
  | b :: t => writeBytes (writeByte m a b) (a + 1) t

/-- A little-endian u32 field of the picture-status record (R82). -/
def readU32 (m : Memory) (a : Nat) : Word :=
  readByte m (a + 3) ++ readByte m (a + 2) ++ readByte m (a + 1) ++ readByte m a

/-- The cells' addresses strictly rise from at least `lo`, lie in the address space, and no cell is redundant. -/
def cellsWf (lo : Nat) : List Host.Cell → Bool
  | [] => true
  | (x, v) :: t => decide (lo ≤ x ∧ x < addressSpace ∧ v ≠ unlisted) && cellsWf (x + 1) t

/-- The canonical form of memory: equal memories are equal data. -/
def Memory.wf (m : Memory) : Bool := cellsWf 0 m.cells

/-- Whether a region admits an address. -/
def regionContains (r : Region) (b : Nat) : Bool := decide (r.base ≤ b ∧ b < r.base + r.size)

/-- MEM_OK(b) (00_scope.md R7, R80). -/
def memOk (rs : List Region) (b : Nat) : Bool := rs.any (fun r => regionContains r b)

/-- From b, past every region that covers the place reached, at most `fuel` times. -/
def skipCovered (rs : List Region) : Nat → Nat → Nat
  | 0, b => b
  | fuel + 1, b =>
    match rs.find? (fun r => regionContains r b) with
    | none => b
    | some r => skipCovered rs fuel (r.base + r.size)

/-- The lowest address at or after b that MEM_OK excludes. -/
def firstUncovered (rs : List Region) (b : Nat) : Nat := skipCovered rs rs.length b

/-- The lowest address in [a, e) that MEM_OK excludes. -/
def firstBad (rs : List Region) (a e : Nat) : Option Nat :=
  if firstUncovered rs a < e then some (firstUncovered rs a) else none

/-- Range admission (R84): none when [a, a + n) is admitted, else the address BusError records. -/
def admitFail (rs : List Region) (a n : Nat) : Option Nat :=
  if n = 0 then none
  else
    match firstBad rs a (min (a + n) addressSpace) with
    | some b => some b
    | none => if addressSpace < a + n then some a else none

end Sys2Proof.Machine
end

