-- ==== Sys2Proof/Machine/Platform.lean ====
section
/-! DEFINITION. The OPEN parameters as the block sees them (00_scope.md R7): what the launch has fixed, else the bodiless
constants of Config (log entries 1, 2, 5 and 11). -/

namespace Sys2Proof.Machine

/-- The values of TMP_CAP, MAX_SECTIONS, MAX_PARTS, MAX_ROI, MAX_LAYERS, SENTINEL and FMV0_MASK (R7, 10_state.md R54). -/
def State.params (s : State) : Params :=
  match s.platform with
  | some p => p.params
  | none => Config.params

/-- MEM_OK, as the admitted address ranges (R7, 20_memory.md R80). -/
def State.memMap (s : State) : List Region :=
  match s.platform with
  | some p => p.memMap
  | none => Config.memMap

/-- The payload source's answers that the launch has fixed. -/
def State.payloads (s : State) : List PayloadEntry :=
  match s.platform with
  | some p => p.payloads
  | none => []

/-- The SEI_UDU answers that the launch has fixed. -/
def State.udu (s : State) : Option UduSource :=
  match s.platform with
  | some p => p.udu
  | none => none

/-- The fixed UUID of the SEI_UDU answers (20_memory.md R93). -/
def State.uduUuid (s : State) : Uuid :=
  match s.udu with
  | some u => u.uuid
  | none => Config.uduUuid

/-- The code of a slice count (R93): one the launch has fixed, else the open function's. -/
def State.sliceCountCode (s : State) (n : Word) : SliceCountCode :=
  match s.udu.bind (fun u => u.codes.find? (fun e => e.1 = n)) with
  | some e => e.2
  | none => Config.sliceCountCode n

/-- What stands between the UUID and the slice count (R93). -/
def State.uduBefore (s : State) (ctx : PayloadCtx) : List Byte :=
  match s.udu with
  | some u => u.before
  | none => Config.uduBefore ctx

/-- What follows the slice count (R93). -/
def State.uduAfter (s : State) (ctx : PayloadCtx) : List Byte :=
  match s.udu with
  | some u => u.after
  | none => Config.uduAfter ctx

/-- PAYLOAD(SEI_UDU, layer, ctx) (R93): the UUID first, and the record's slice count in it (log entry 11). -/
def State.uduPayload (s : State) (ctx : PayloadCtx) : List Byte :=
  s.uduUuid.toList ++ s.uduBefore ctx ++ (s.sliceCountCode ctx.record.sliceCount).bytes ++ s.uduAfter ctx

/-- PAYLOAD(kind, layer, ctx) (20_memory.md R92, R93): for SEI_UDU its own form; else an answer the launch has fixed, else the
open function's. -/
def State.payload (s : State) (kind : PayloadKind) (layer : Nat) (ctx : PayloadCtx) : List Byte :=
  if kind = .seiUdu then s.uduPayload ctx
  else match s.payloads.find? (fun e => e.kind = kind ∧ e.layer = layer ∧ e.ctx = ctx) with
  | some e => e.bytes
  | none => Config.payload kind layer ctx

end Sys2Proof.Machine
end

