-- ==== Sys2Proof/Machine/Ops.lean ====
section
/-! DEFINITION. The operations every command shares: completing, fault entry and the way out of it, and the writer
contexts. -/

namespace Sys2Proof.Machine

/-- A command completed without a fault: CMD_SEQ counts it, after its other effects (10_state.md R42). -/
def complete (s : State) : Result := .next { s with cmdSeq := s.cmdSeq + 1#32 }

/-- A command completed with a result in RES (R32). -/
def completeWith (r : Word) (s : State) : Result := complete { s with res := r }

/-- Fault entry (60_exceptions.md R403): the four fault registers and HALTED, and nothing else. `h` is the header word of the
faulting command and `b` the failing address, which only BUS_ERROR records. -/
def faultEntry (h : Word) (c : FaultCause) (b : Nat) (s : State) : State :=
  { s with
    faultCause := c
    faultInfo := h
    faultSeq := s.cmdSeq
    faultArg := if c = .busError then BitVec.ofNat 32 b else 0#32
    halted := true }

/-- The way out of a fault (R405): reset, the only one (70_reset_and_hazards.md R440 to R443). Every register takes its reset
value and the words not yet taken are discarded (log entry 6); memory, the parameters, MEM_OK and the payload source keep. -/
def hostReset (s : State) : State :=
  { State.reset with platform := s.platform, mem := s.mem }

/-- `raise c` in a command's pseudocode (R400, R403). -/
def raise (i : Instr) (c : FaultCause) (s : State) : Result := .next (faultEntry (headerWord i) c 0 s)

/-- `raise BusError(b)` (20_memory.md R84, R403). -/
def raiseBus (i : Instr) (b : Nat) (s : State) : Result := .next (faultEntry (headerWord i) .busError b s)

/-- W[w] (10_state.md R43). -/
def State.writer (s : State) : WriterId → HostWriter
  | .w0 => s.w0
  | .w1 => s.w1

/-- W[w] <- x (R43). -/
def State.setWriter (s : State) (w : WriterId) (x : HostWriter) : State :=
  match w with
  | .w0 => { s with w0 := x }
  | .w1 => { s with w1 := x }

end Sys2Proof.Machine
end

