-- ==== Sys2Proof/Machine/Writer.lean ====
section
/-! DEFINITION. The bit writer: PutBits and Skip over a memory (40_bitwriter.md R153, R162; 00_scope.md R12), and a host
context's use of them. -/

namespace Sys2Proof.Machine

/-- A bit writer (00_scope.md R12). The numbers are unbounded, because an internal writer's MAXBITS can pass 2^32
(42_sections.md R266, 00_scope.md R9). -/
structure BitWriter where
  base    : Nat
  maxBits : Nat
  bitCnt  : Nat
  ovf     : Bool
  deriving DecidableEq, Repr

/-- A bit writer and the memory it writes to. -/
abbrev Stream := BitWriter × Memory

/-- Whether a put or skip of n bits is rejected (R153, R162). -/
def rejects (wr : BitWriter) (n : Nat) : Bool := wr.ovf || decide (wr.maxBits < wr.bitCnt + n)

/-- A byte with bit `pos` replaced (R153). -/
def setBit (old : Byte) (pos : Nat) (v : Bool) : Byte :=
  if v then old ||| (1#8 <<< pos) else old &&& ~~~(1#8 <<< pos)

/-- Stream bit k of a writer at `base` is written: bit 7 - (k mod 8) of the byte at base + floor(k / 8) (R81, R153). -/
def writeStreamBit (m : Memory) (base k : Nat) (v : Bool) : Memory :=
  writeByte m (base + k / 8) (setBit (readByte m (base + k / 8)) (7 - k % 8) v)

/-- Stream bit k of a writer at `base` (R81). -/
def readStreamBit (m : Memory) (base k : Nat) : Bool := (readByte m (base + k / 8)).getLsbD (7 - k % 8)

/-- The n low bits of v from stream bit k on, the most significant first (R81, R153). -/
def writeStreamBits (m : Memory) (base k : Nat) : Nat → Nat → Memory
  | 0, _ => m
  | n + 1, v => writeStreamBits (writeStreamBit m base k (v.testBit n)) base (k + 1) n v

/-- PutBits(wr, n, v) (R153): it lands whole, or writes nothing, sets OVF and still counts. -/
def putBits (n v : Nat) (x : Stream) : Stream :=
  if rejects x.1 n then ({ x.1 with ovf := true, bitCnt := x.1.bitCnt + n }, x.2)
  else ({ x.1 with bitCnt := x.1.bitCnt + n }, writeStreamBits x.2 x.1.base x.1.bitCnt n v)

/-- Skip(wr, n) (R162): counts under the same capacity rule, and writes nothing. -/
def skipBits (n : Nat) (x : Stream) : Stream :=
  ({ x.1 with ovf := x.1.ovf || decide (x.1.maxBits < x.1.bitCnt + n), bitCnt := x.1.bitCnt + n }, x.2)

/-- emit8(wr, b) (00_scope.md R11). -/
def emit8 (b : Byte) (x : Stream) : Stream := putBits 8 b.toNat x

/-- emit8 of each byte in order. -/
def emitBytes : List Byte → Stream → Stream
  | [], x => x
  | b :: t, x => emitBytes t (emit8 b x)

/-- How many bits to the next byte boundary of BITCNT (R160). -/
def padBits (wr : BitWriter) : Nat := (8 - wr.bitCnt % 8) % 8

/-- The two puts of ue(v): L zeros, then the L + 1 bits of v + 1, where L = floor(log2(v + 1)) (R158). -/
def putUe (v : Nat) (x : Stream) : Stream := putBits (Nat.log2 (v + 1) + 1) (v + 1) (putBits (Nat.log2 (v + 1)) 0 x)

/-- alignToByte(fillBit) (R160). -/
def alignBits (fill : Bool) (x : Stream) : Stream := putBits (padBits x.1) (if fill then 2 ^ padBits x.1 - 1 else 0) x

/-- The stop bit 1, then zeros to the byte boundary (R161). -/
def trailBits (x : Stream) : Stream := alignBits false (putBits 1 1 x)

/-- The bit writer of a host context (10_state.md R43). -/
def writerView (x : HostWriter) : BitWriter :=
  { base := x.base.toNat, maxBits := x.maxBits.toNat, bitCnt := x.bitCnt, ovf := x.ovf }

/-- The stream that W[w] writes: its bit writer and the memory. -/
def State.stream (s : State) (w : WriterId) : Stream := (writerView (s.writer w), s.mem)

/-- W[w] and memory after a stream operation: BITCNT, OVF and memory follow, VALID, BASE and MAXBITS keep. -/
def State.withStream (s : State) (w : WriterId) (x : Stream) : State :=
  { s.setWriter w { s.writer w with bitCnt := x.1.bitCnt, ovf := x.1.ovf } with mem := x.2 }

/-- The bytes a capacity of maxBits bits takes: ceil(maxBits / 8) (R151). -/
def capacityBytes (maxBits : Nat) : Nat := (maxBits + 7) / 8

end Sys2Proof.Machine
end

