-- ==== Sys2Proof/Machine/BitWriter.lean ====
section
/-! DEFINITION. The bit-writer commands (40_bitwriter.md R151 to R165). -/

namespace Sys2Proof.Machine

/-- The common shape of a command that puts or skips on W[w]: its operand check, then VALID (R152), then its effect. -/
def writerCommand (i : Instr) (operandsOk : Bool) (w : WriterId) (f : Stream → Stream) (s : State) : Result :=
  if operandsOk then
    if (s.writer w).valid then complete (s.withStream w (f (s.stream w))) else raise i .notInitialised s
  else raise i .operandRange s

/-- The common shape of a query on W[w]: VALID (R152), then RES. -/
def writerQuery (i : Instr) (w : WriterId) (f : HostWriter → Word) (s : State) : Result :=
  if (s.writer w).valid then completeWith (f (s.writer w)) s else raise i .notInitialised s

/-- BW_INIT (R151): admits the capacity range, then sets up W[w]; memory is not touched. -/
def execBwInit (w : WriterId) (base maxBits : Word) (s : State) : Result :=
  match admitFail s.memMap base.toNat (capacityBytes maxBits.toNat) with
  | some b => raiseBus (.bwInit w base maxBits) b s
  | none =>
    complete (s.setWriter w { valid := true, base := base, maxBits := maxBits, bitCnt := 0, ovf := false })

/-- BW_PUTBITS (R154). -/
def execBwPutbits (w : WriterId) (n : BitVec 6) (value : Word) (s : State) : Result :=
  writerCommand (.bwPutbits w n value) (putUnsignedOk n value) w (putBits n.toNat value.toNat) s

/-- BW_PUTBIT (R155). -/
def execBwPutbit (w : WriterId) (b : Bool) (s : State) : Result :=
  writerCommand (.bwPutbit w b) true w (putBits 1 b.toNat) s

/-- BW_PUTU (R156): as BW_PUTBITS. -/
def execBwPutu (w : WriterId) (n : BitVec 6) (value : Word) (s : State) : Result :=
  writerCommand (.bwPutu w n value) (putUnsignedOk n value) w (putBits n.toNat value.toNat) s

/-- BW_PUTS (R157). -/
def execBwPuts (w : WriterId) (n : BitVec 6) (value : Word) (s : State) : Result :=
  writerCommand (.bwPuts w n value) (putSignedOk n value) w (putBits n.toNat (putSignedBits n value)) s

/-- BW_PUTUE (R158). -/
def execBwPutue (w : WriterId) (value : Word) (s : State) : Result :=
  writerCommand (.bwPutue w value) (putUeOk value) w (putUe value.toNat) s

/-- BW_PUTSE (R159). -/
def execBwPutse (w : WriterId) (value : Word) (s : State) : Result :=
  writerCommand (.bwPutse w value) (putSeOk value) w (putUe (seIndex value)) s

/-- BW_ALIGN (R160). -/
def execBwAlign (w : WriterId) (b : Bool) (s : State) : Result :=
  writerCommand (.bwAlign w b) true w (alignBits b) s

/-- BW_TRAIL (R161). -/
def execBwTrail (w : WriterId) (s : State) : Result :=
  writerCommand (.bwTrail w) true w trailBits s

/-- BW_SKIP (R162). -/
def execBwSkip (w : WriterId) (n : Word) (s : State) : Result :=
  writerCommand (.bwSkip w n) true w (skipBits n.toNat) s

/-- BW_GETBITS (R163): BITCNT mod 2^32. -/
def execBwGetbits (w : WriterId) (s : State) : Result :=
  writerQuery (.bwGetbits w) w (fun x => BitVec.ofNat 32 x.bitCnt) s

/-- BW_GETDATA (R164): BASE. -/
def execBwGetdata (w : WriterId) (s : State) : Result :=
  writerQuery (.bwGetdata w) w (fun x => x.base) s

/-- BW_GETWPTR (R165): (BASE + floor(BITCNT / 8)) mod 2^32. -/
def execBwGetwptr (w : WriterId) (s : State) : Result :=
  writerQuery (.bwGetwptr w) w (fun x => BitVec.ofNat 32 (x.base.toNat + x.bitCnt / 8)) s

end Sys2Proof.Machine
end

