-- ==== Sys2Proof/Machine/RegMap.lean ====
section
/-! DEFINITION. The register map's numbers (10_state.md R55): which register a 16-bit number names, and which may be written. -/

namespace Sys2Proof.Machine

/-- The fields of a writer context's registers (R43). -/
inductive WriterField where
  | valid | base | maxBits | bitCnt | ovf
  deriving DecidableEq, Repr

/-- A register of the map (R55); `sect i k` is number 0x400 + 4i + k (R47) and `node i k` is 0x800 + 8i + k (R53). -/
inductive RegName where
  | cmdSeq | res | status | faultCause | faultInfo | faultSeq | faultArg
  | cfgCodec | cfgScLen | cfgAud | cfgFiller | cfgSeiMask | cfgNumLayers | cfgHdrReserve
  | writer (w : WriterId) (f : WriterField)
  | sbValid | sbBase | sbCap | sbHdrBase | sbHdrCur | secCount
  | cpbDelay | cpbInitDelay | lastTid
  | roiValid | roiPicW | roiPicH | roiLog2Lcu | roiLcuW | roiLcuH | roiBg | roiMode | roiCount | roiCodec
  | pTmpCap | pMaxSections | pMaxParts | pMaxRoi | pMaxLayers | pSentinel | pFmv0Mask
  | sect (i k : Nat)
  | node (i k : Nat)
  deriving DecidableEq, Repr

/-- The registers that have a number of their own (R55). -/
def regTable : List (Nat × RegName) :=
  [(0x000, .cmdSeq), (0x001, .res), (0x002, .status), (0x003, .faultCause), (0x004, .faultInfo), (0x005, .faultSeq),
   (0x006, .faultArg),
   (0x010, .cfgCodec), (0x011, .cfgScLen), (0x012, .cfgAud), (0x013, .cfgFiller), (0x014, .cfgSeiMask),
   (0x015, .cfgNumLayers), (0x016, .cfgHdrReserve),
   (0x020, .writer .w0 .valid), (0x021, .writer .w0 .base), (0x022, .writer .w0 .maxBits), (0x023, .writer .w0 .bitCnt),
   (0x024, .writer .w0 .ovf),
   (0x028, .writer .w1 .valid), (0x029, .writer .w1 .base), (0x02A, .writer .w1 .maxBits), (0x02B, .writer .w1 .bitCnt),
   (0x02C, .writer .w1 .ovf),
   (0x030, .sbValid), (0x031, .sbBase), (0x032, .sbCap), (0x033, .sbHdrBase), (0x034, .sbHdrCur), (0x035, .secCount),
   (0x040, .cpbDelay), (0x041, .cpbInitDelay), (0x042, .lastTid),
   (0x050, .roiValid), (0x051, .roiPicW), (0x052, .roiPicH), (0x053, .roiLog2Lcu), (0x054, .roiLcuW), (0x055, .roiLcuH),
   (0x056, .roiBg), (0x057, .roiMode), (0x058, .roiCount), (0x059, .roiCodec),
   (0x060, .pTmpCap), (0x061, .pMaxSections), (0x062, .pMaxParts), (0x063, .pMaxRoi), (0x064, .pMaxLayers),
   (0x065, .pSentinel), (0x066, .pFmv0Mask)]

/-- The register a number names; none for a number not in the map (R55, R47, R53). -/
def regOfNat (n : Nat) : Option RegName :=
  if 0x400 ≤ n ∧ n < 0x800 then some (.sect ((n - 0x400) / 4) ((n - 0x400) % 4))
  else if 0x800 ≤ n ∧ n < 0x1000 then some (.node ((n - 0x800) / 8) ((n - 0x800) % 8))
  else (regTable.find? (fun e => e.1 = n)).map (fun e => e.2)

/-- Whether REG_WR may name a register: the RW registers, and STATUS for its write-1-to-clear bits (R55, R382). -/
def regWritable : RegName → Bool
  | .status | .cfgCodec | .cfgScLen | .cfgAud | .cfgFiller | .cfgSeiMask | .cfgNumLayers | .cfgHdrReserve => true
  | _ => false

end Sys2Proof.Machine
end

