-- ==== Sys2Proof/Machine/Registers.lean ====
section
/-! DEFINITION. Reading and writing the registers of the map (10_state.md R55, 44_control.md R382). -/

namespace Sys2Proof.Machine

/-- One register of a writer context (R43): VALID and OVF in bit 0, BITCNT mod 2^32. -/
def writerReg (x : HostWriter) : WriterField → Word
  | .valid => boolWord x.valid
  | .base => x.base
  | .maxBits => x.maxBits
  | .bitCnt => BitVec.ofNat 32 x.bitCnt
  | .ovf => boolWord x.ovf

/-- One register of a section-table entry (R47): the fourth reads 0, and an entry past the table reads 0. -/
def sectionReg (t : List Section) (i k : Nat) : Word :=
  match t[i]? with
  | none => 0#32
  | some x =>
    match k with
    | 0 => x.offset
    | 1 => x.length
    | 2 => x.flags
    | _ => 0#32

/-- One register of an ROI node (R53): 5 to 7 read 0, and a node past the list reads 0. -/
def nodeReg (l : List RoiNode) (i k : Nat) : Word :=
  match l[i]? with
  | none => 0#32
  | some x =>
    match k with
    | 0 => x.x0
    | 1 => x.y0
    | 2 => x.w
    | 3 => x.h
    | 4 => x.code.setWidth 32
    | _ => 0#32

/-- reg[X] (00_scope.md R11, 10_state.md R55). -/
def readReg (s : State) : RegName → Word
  | .cmdSeq => s.cmdSeq
  | .res => s.res
  | .status => s.status
  | .faultCause => faultCode s.faultCause
  | .faultInfo => s.faultInfo
  | .faultSeq => s.faultSeq
  | .faultArg => s.faultArg
  | .cfgCodec => codecWord s.cfgCodec
  | .cfgScLen => scLenWord s.cfgScLen
  | .cfgAud => boolWord s.cfgAud
  | .cfgFiller => fillerWord s.cfgFiller
  | .cfgSeiMask => s.cfgSeiMask.setWidth 32
  | .cfgNumLayers => s.cfgNumLayers
  | .cfgHdrReserve => s.cfgHdrReserve
  | .writer w f => writerReg (s.writer w) f
  | .sbValid => boolWord s.sbValid
  | .sbBase => s.sbBase
  | .sbCap => s.sbCap
  | .sbHdrBase => s.sbHdrBase
  | .sbHdrCur => s.sbHdrCur
  | .secCount => BitVec.ofNat 32 s.sections.length
  | .cpbDelay => s.cpbDelay
  | .cpbInitDelay => s.cpbInitDelay
  | .lastTid => s.lastTid.setWidth 32
  | .roiValid => boolWord s.roi.valid
  | .roiPicW => s.roi.picW
  | .roiPicH => s.roi.picH
  | .roiLog2Lcu => s.roi.log2Lcu
  | .roiLcuW => s.roi.lcuW
  | .roiLcuH => s.roi.lcuH
  | .roiBg => s.roi.bg.setWidth 32
  | .roiMode => roiModeWord s.roi.mode
  | .roiCount => BitVec.ofNat 32 s.nodes.length
  | .roiCodec => codecWord s.roi.codec
  | .pTmpCap => s.params.tmpCap
  | .pMaxSections => s.params.maxSections
  | .pMaxParts => s.params.maxParts
  | .pMaxRoi => s.params.maxRoi
  | .pMaxLayers => s.params.maxLayers
  | .pSentinel => s.params.sentinel.setWidth 32
  | .pFmv0Mask => s.params.fmv0Mask.setWidth 32
  | .sect i k => sectionReg s.sections i k
  | .node i k => nodeReg s.nodes i k

/-- The register read port (20_memory.md R91): any register, halted or not; an undefined number reads 0. -/
def readPort (s : State) (n : BitVec 16) : Word :=
  match regOfNat n.toNat with
  | some r => readReg s r
  | none => 0#32

/-- The write of a legal value to a writable register (R382); none when the value is illegal, and then nothing changes. For a
register that REG_WR may not name it answers none too; `execRegWr` has turned those away before. -/
def writeReg (s : State) (r : RegName) (v : Word) : Option State :=
  match r with
  | .status =>
    if statusClearOk v then
      some { s with
        fillerClipped := s.fillerClipped && !v.getLsbD 0
        cfgDropped := s.cfgDropped && !v.getLsbD 1 }
    else none
  | .cfgCodec => (codecOfWord v).map (fun c => { s with cfgCodec := c })
  | .cfgScLen => (scLenOfWord v).map (fun c => { s with cfgScLen := c })
  | .cfgAud => (boolOfWord v).map (fun c => { s with cfgAud := c })
  | .cfgFiller => (fillerOfWord v).map (fun c => { s with cfgFiller := c })
  | .cfgSeiMask => if seiMaskOk v then some { s with cfgSeiMask := v.setWidth 9 } else none
  | .cfgNumLayers =>
    if v = 0#32 ∨ s.params.maxLayers.toNat < v.toNat then none else some { s with cfgNumLayers := v }
  | .cfgHdrReserve => some { s with cfgHdrReserve := v }
  | _ => none

end Sys2Proof.Machine
end

