-- ==== Sys2Proof/Machine/Control.lean ====
section
/-! DEFINITION. The control commands (44_control.md R380 to R382). -/

namespace Sys2Proof.Machine

/-- NOP (R380): only CMD_SEQ changes. -/
def execNop (s : State) : Result := complete s

/-- REG_RD (R381): RES takes the register's value from before this command. -/
def execRegRd (reg : BitVec 16) (s : State) : Result :=
  match regOfNat reg.toNat with
  | none => raise (.regRd reg) .regAccess s
  | some r => completeWith (readReg s r) s

/-- REG_WR (R382): RegAccess for a number not in the map or a read-only register, then OperandRange for an illegal value. -/
def execRegWr (reg : BitVec 16) (value : Word) (s : State) : Result :=
  match regOfNat reg.toNat with
  | none => raise (.regWr reg value) .regAccess s
  | some r =>
    if regWritable r then
      match writeReg s r value with
      | none => raise (.regWr reg value) .operandRange s
      | some t => complete t
    else raise (.regWr reg value) .regAccess s

end Sys2Proof.Machine
end

