-- ==== Sys2Proof/Machine/Nal.lean ====
section
/-! DEFINITION. NAL headers, start codes, emulation prevention, SEI messages, filler data, and the NAL commands
(41_nal.md R200 to R215). -/

namespace Sys2Proof.Machine

/-- The AVC header byte of a type and a reference importance (R201). -/
def avcHdr (t : BitVec 5) (r : BitVec 2) : Byte := (r.setWidth 8 <<< 5) ||| t.setWidth 8

/-- The two HEVC header bytes of a type, a layer id and a temporal id (R202). -/
def hevcHdr (t lr : BitVec 6) (tid : BitVec 3) : Byte × Byte :=
  ((t.setWidth 8 <<< 1) ||| (lr.setWidth 8 >>> 5), ((lr.setWidth 8 &&& 31#8) <<< 3) ||| (tid.setWidth 8 + 1#8))

/-- The header bytes of an AVC NAL unit. -/
def avcHdrBytes (t : BitVec 5) (r : BitVec 2) : List Byte := [avcHdr t r]

/-- The header bytes of an HEVC NAL unit. -/
def hevcHdrBytes (t lr : BitVec 6) (tid : BitVec 3) : List Byte := [(hevcHdr t lr tid).1, (hevcHdr t lr tid).2]

/-- The start code SC that CFG_SC_LEN selects (R204). -/
def startCode : ScLen → List Byte
  | .four => [0x00#8, 0x00#8, 0x00#8, 0x01#8]
  | .three => [0x00#8, 0x00#8, 0x01#8]

/-- Emulation prevention from a run of z zero bytes on (R206). -/
def epFrom : Nat → List Byte → List Byte
  | _, [] => []
  | z, b :: t =>
    if 2 ≤ z ∧ b &&& 0xFC#8 = 0#8 then 0x03#8 :: b :: epFrom (if b = 0#8 then 1 else 0) t
    else b :: epFrom (if b = 0#8 then z + 1 else 0) t

/-- EP(s) (R206): the window starts at the first payload byte. -/
def emulationPrevent (s : List Byte) : List Byte := epFrom 0 s

/-- De-emulation from a run of z zero bytes on: a 03 that follows two 00 bytes is dropped (R207 item 3). -/
def deEmulateFrom : Nat → List Byte → List Byte
  | _, [] => []
  | z, b :: t =>
    if 2 ≤ z ∧ b = 0x03#8 then deEmulateFrom 0 t
    else b :: deEmulateFrom (if b = 0#8 then z + 1 else 0) t

/-- The de-emulation pass of R207 item 3. No command performs it; it says what EP keeps. -/
def deEmulate (s : List Byte) : List Byte := deEmulateFrom 0 s

/-- NalBytes(hb, r) = SC ++ hb ++ EP(r) (R209). -/
def nalBytes (sc : ScLen) (hb r : List Byte) : List Byte := startCode sc ++ hb ++ emulationPrevent r

/-- FF(v): ff bytes, then v mod 255 (R210). -/
def ffCode (v : Nat) : List Byte := List.replicate (v / 255) 0xFF#8 ++ [BitVec.ofNat 8 (v % 255)]

/-- SeiMsg(t, p) (R210). -/
def seiMsg (t : Nat) (p : List Byte) : List Byte := ffCode t ++ ffCode p.length ++ p

/-- A filler's progress: the stream, and BITCNT before the first rejected put or skip (R212). -/
structure FillerRun where
  stream   : Stream
  firstRej : Option Nat

/-- One put or skip of `n` bits inside Filler, noting the first rejection (R212). -/
def fillerOp (n : Nat) (f : Stream → Stream) (r : FillerRun) : FillerRun :=
  { stream := f r.stream
    firstRej := match r.firstRej with
      | some k => some k
      | none => if rejects r.stream.1 n then some r.stream.1.bitCnt else none }

/-- emit8 inside Filler. -/
def fillerEmit (b : Byte) (r : FillerRun) : FillerRun := fillerOp 8 (emit8 b) r

/-- emit8 of each byte inside Filler. -/
def fillerEmits : List Byte → FillerRun → FillerRun
  | [], r => r
  | b :: t, r => fillerEmits t (fillerEmit b r)

/-- Skip inside Filler. -/
def fillerSkip (n : Nat) (r : FillerRun) : FillerRun := fillerOp n (skipBits n) r

/-- The fill bytes of a filler NAL unit (R212): with `space` the whole bytes left after the header and h the header's length,
max(0, min(budget - h, space) - 1). Subtraction of naturals stops at 0, which is what the two max(0, ·) of the rule do. -/
def fillCount (budget h : Nat) (wr : BitWriter) : Nat := min (budget - h) ((wr.maxBits - wr.bitCnt) / 8) - 1

/-- The body of Filler(wr, hb, budget, df) (R212, R213), with `head` = SC ++ hb. -/
def fillerRun (head : List Byte) (budget : Nat) (df : Bool) (x : Stream) : FillerRun :=
  let r := fillerEmits head { stream := x, firstRej := none }
  let fill := fillCount budget head.length r.stream.1
  let r := if df then (if 1 ≤ fill then fillerSkip (8 * (fill - 1)) (fillerEmit 0xFF#8 r) else r)
    else fillerEmits (List.replicate fill 0xFF#8) r
  fillerEmit 0x80#8 r

/-- The landed bytes (R212, R214): 0 for a writer that had overflowed at entry, else whole bytes up to the first rejection or
the end. -/
def landedBytes (x : Stream) (r : FillerRun) : Nat :=
  if x.1.ovf then 0
  else ((match r.firstRej with
    | some k => k
    | none => r.stream.1.bitCnt) - x.1.bitCnt) / 8

/-- NAL_MKHDR (R203): Unsupported for OTHER comes before the operand ranges. -/
def execNalMkhdr (type rl : BitVec 6) (tid : BitVec 3) (s : State) : Result :=
  match s.cfgCodec with
  | .other => raise (.nalMkhdr type rl tid) .unsupported s
  | .avc =>
    if avcHeaderOk type rl tid then
      completeWith (0x00010000#32 ||| (avcHdr (type.setWidth 5) (rl.setWidth 2)).setWidth 32) s
    else raise (.nalMkhdr type rl tid) .operandRange s
  | .hevc =>
    if hevcHeaderOk tid then
      completeWith (0x00020000#32 ||| ((hevcHdr type rl tid).1.setWidth 32 <<< 8) |||
        (hevcHdr type rl tid).2.setWidth 32) s
    else raise (.nalMkhdr type rl tid) .operandRange s

/-- NAL_START (R205). -/
def execNalStart (w : WriterId) (hl : HdrLen) (hdr : BitVec 16) (s : State) : Result :=
  writerCommand (.nalStart w hl hdr) (nalHeaderOk hl hdr) w
    (emitBytes (startCode s.cfgScLen ++ nalHeaderBytes hl hdr)) s

/-- NAL_EPCOPY (R208): the source is read whole before any write. -/
def execNalEpcopy (w : WriterId) (src n : Word) (s : State) : Result :=
  if (s.writer w).valid then
    match admitFail s.memMap src.toNat n.toNat with
    | some b => raiseBus (.nalEpcopy w src n) b s
    | none =>
      let o := emulationPrevent (readBytes s.mem src.toNat n.toNat)
      completeWith (BitVec.ofNat 32 o.length) (s.withStream w (emitBytes o (s.stream w)))
  else raise (.nalEpcopy w src n) .notInitialised s

/-- NAL_FILLER (R215). -/
def execNalFiller (w : WriterId) (hl : HdrLen) (hdr : BitVec 16) (df : Bool) (budget : Word) (s : State) : Result :=
  if nalHeaderOk hl hdr then
    if (s.writer w).valid then
      let r := fillerRun (startCode s.cfgScLen ++ nalHeaderBytes hl hdr) budget.toNat df (s.stream w)
      completeWith (BitVec.ofNat 32 (landedBytes (s.stream w) r)) (s.withStream w r.stream)
    else raise (.nalFiller w hl hdr df budget) .notInitialised s
  else raise (.nalFiller w hl hdr df budget) .operandRange s

end Sys2Proof.Machine
end

