-- ==== Sys2Proof/Machine/Sections.lean ====
section
/-! DEFINITION. The section table: ranges, planning, checking and committing (42_sections.md R250 to R253, R264, R269), and the
commands SEC_ATTACH, SEC_ADD and SEC_ADDSEI. SEC_PICTURE is in Machine/Picture.lean. -/

namespace Sys2Proof.Machine

/-- A byte range of the stream buffer: offset and length, unbounded (00_scope.md R9). -/
structure Span where
  off : Nat
  len : Nat
  deriving DecidableEq, Repr

/-- The range a section covers. -/
def sectionSpan (x : Section) : Span := { off := x.offset.toNat, len := x.length.toNat }

/-- The ranges of a section table. -/
def tableSpans (t : List Section) : List Span := t.map sectionSpan

/-- FirstUnused (10_state.md R49). -/
def firstUnused : List Span → Nat
  | [] => 0
  | x :: t => max (x.off + x.len) (firstUnused t)

/-- R251's overlap test of two ranges. -/
def overlaps (p q : Span) : Bool := decide (p.off < q.off + q.len ∧ q.off < p.off + p.len)

/-- The range loop of CheckPlan (R251): every planned range ends inside the capacity, and one of nonzero length overlaps none
already seen. -/
def rangesOk (cap : Nat) : List Span → List Span → Bool
  | _, [] => true
  | seen, p :: rest =>
    decide (p.off + p.len ≤ cap) &&
      (if p.len = 0 then rangesOk cap seen rest
       else !(seen.any (fun q => overlaps p q)) && rangesOk cap (seen ++ [p]) rest)

/-- CheckPlan(P) (R251): the fault it raises, or none. -/
def checkPlan (s : State) (plan : List Span) : Option FaultCause :=
  if s.params.maxSections.toNat < s.sections.length + plan.length then some .sectionFull
  else if rangesOk s.sbCap.toNat ((tableSpans s.sections).filter (fun q => decide (0 < q.len))) plan then none
  else some .sectionRange

/-- The bitstream a consumer reads out of the stream buffer (R253). -/
def bitstream (s : State) : List Byte :=
  s.sections.flatMap (fun x => readBytes s.mem (s.sbBase.toNat + x.offset.toNat) x.length.toNat)

/-- SEC_ATTACH (R250): binds the buffer and empties the section table; memory is not touched. -/
def execSecAttach (base cap : Word) (s : State) : Result :=
  match admitFail s.memMap base.toNat cap.toNat with
  | some b => raiseBus (.secAttach base cap) b s
  | none =>
    complete { s with
      sbBase := base, sbCap := cap, sbValid := true, sections := [], sbHdrBase := 0#32, sbHdrCur := 0#32 }

/-- SEC_ADD (R252). -/
def execSecAdd (offset length flags : Word) (s : State) : Result :=
  if sectionFlagsOk flags then
    if s.sbValid then
      match checkPlan s [{ off := offset.toNat, len := length.toNat }] with
      | some c => raise (.secAdd offset length flags) c s
      | none =>
        completeWith (BitVec.ofNat 32 s.sections.length)
          { s with sections := s.sections ++ [{ offset := offset, length := length, flags := flags }] }
    else raise (.secAdd offset length flags) .notInitialised s
  else raise (.secAdd offset length flags) .operandRange s

/-- The position after the last entry that carries a flag, and where that entry ends (R275). -/
def afterLastWith (flag : Word) (t : List Section) : Option (Nat × Nat) :=
  match t with
  | [] => none
  | x :: rest =>
    match afterLastWith flag rest with
    | some (pos, off) => some (pos + 1, off)
    | none => if x.has flag then some (1, x.offset.toNat + x.length.toNat) else none

/-- Prefix placement (R275): position and offset. -/
def prefixPlace (s : State) : Nat × Nat :=
  match afterLastWith secSeiPrefix s.sections with
  | some p => p
  | none =>
    match afterLastWith secConfig s.sections with
    | some p => p
    | none => (0, s.sbHdrBase.toNat)

/-- The end of the header window that begins at `hdr0` (R255, R275): an unbounded sum, capped by the buffer. -/
def headerLimit (s : State) (hdr0 : Nat) : Nat := min (hdr0 + s.cfgHdrReserve.toNat) s.sbCap.toNat

/-- Whether the table ends in an end-of-frame sentinel (R276). -/
def endsInSentinel (t : List Section) : Bool :=
  match t.getLast? with
  | some x => decide (x.length = 0#32) && x.has secEndOfFrame
  | none => false

/-- Suffix placement (R276): before a trailing sentinel, at FirstUnused. -/
def suffixPlace (s : State) : Nat × Nat :=
  (if endsInSentinel s.sections then s.sections.length - 1 else s.sections.length, firstUnused (tableSpans s.sections))

/-- A section inserted at a position; entries from there move up by one (R274). -/
def insertSection (t : List Section) (pos : Nat) (x : Section) : List Section := t.take pos ++ x :: t.drop pos

/-- The SEI header bytes for AddSei (R274). -/
def addSeiHeader (s : State) (sfx : Bool) : List Byte :=
  match s.cfgCodec with
  | .avc => avcHdrBytes 6#5 0#2
  | _ => hevcHdrBytes (if sfx then 40#6 else 39#6) 0#6 s.lastTid

/-- The NAL unit of AddSei for payload bytes p (R274). -/
def addSeiBytes (s : State) (sfx : Bool) (ptype : BitVec 16) (p : List Byte) : List Byte :=
  nalBytes s.cfgScLen (addSeiHeader s sfx) (seiMsg ptype.toNat p ++ [0x80#8])

/-- Position and offset of AddSei (R275, R276). -/
def addSeiPlace (s : State) (sfx : Bool) : Nat × Nat := if sfx then suffixPlace s else prefixPlace s

/-- The limit of AddSei (R275, R276). -/
def addSeiLimit (s : State) (sfx : Bool) : Nat := if sfx then s.sbCap.toNat else headerLimit s s.sbHdrBase.toNat

/-- Whether the NAL unit of AddSei can be placed (R277): inside the limit, room in the table, no overlap. -/
def addSeiFits (s : State) (sfx : Bool) (len : Nat) : Bool :=
  decide ((addSeiPlace s sfx).2 + len ≤ addSeiLimit s sfx) &&
    decide (s.sections.length ≠ s.params.maxSections.toNat) &&
    !((tableSpans s.sections).any (fun q => decide (0 < q.len) && overlaps { off := (addSeiPlace s sfx).2, len := len } q))

/-- The effects of a placed AddSei but for RES (R274). -/
def addSeiCommit (s : State) (sfx : Bool) (nb : List Byte) : State :=
  let off := (addSeiPlace s sfx).2
  let x : Section :=
    { offset := BitVec.ofNat 32 off, length := BitVec.ofNat 32 nb.length,
      flags := if sfx then secSeiSuffix else secConfig ||| secSeiPrefix }
  { s with
    mem := writeBytes s.mem (s.sbBase.toNat + off) nb
    sections := insertSection s.sections (addSeiPlace s sfx).1 x
    sbHdrCur := if sfx then s.sbHdrCur else BitVec.ofNat 32 (max s.sbHdrCur.toNat (off + nb.length)) }

/-- SEC_ADDSEI (R274 to R277): a placement that fails is a result, RES = 0xFFFFFFFF, not a fault. -/
def execSecAddsei (sfx : Bool) (ptype : BitVec 16) (src size : Word) (s : State) : Result :=
  if s.sbValid then
    if s.cfgCodec = .other then raise (.secAddsei sfx ptype src size) .unsupported s
    else
      match admitFail s.memMap src.toNat size.toNat with
      | some b => raiseBus (.secAddsei sfx ptype src size) b s
      | none =>
        let nb := addSeiBytes s sfx ptype (readBytes s.mem src.toNat size.toNat)
        if sfx = true ∧ s.cfgCodec = .avc then completeWith 0xFFFFFFFF#32 s
        else if addSeiFits s sfx nb.length then
          completeWith (BitVec.ofNat 32 (addSeiPlace s sfx).1) (addSeiCommit s sfx nb)
        else completeWith 0xFFFFFFFF#32 s
  else raise (.secAddsei sfx ptype src size) .notInitialised s

end Sys2Proof.Machine
end

