-- ==== Sys2Proof/Machine/Picture.lean ====
section
/-! DEFINITION. SEC_PICTURE: the record, the plan, the check and the commit (42_sections.md R254 to R273, 30_encoding.md
R119). -/

namespace Sys2Proof.Machine

/-- A FLAGS word the record may hold: bits 31:13 zero, STYPE not 3, TID not 7 (R119). -/
def recordFlagsOk (f : Word) : Bool :=
  decide (f.extractLsb' 13 19 = 0#19) && decide (f.extractLsb' 8 2 ≠ 3#2) && decide (f.extractLsb' 10 3 ≠ 7#3)

/-- STYPE (R119): 0 is B, 1 is P, 2 is I. -/
def sliceTypeOf (v : BitVec 2) : SliceType := if v = 0#2 then .b else if v = 1#2 then .p else .i

/-- The stream parts of a record, from PART_OFF[i] at address a on (R119). -/
def readParts (m : Memory) (a : Nat) : Nat → List StreamPart
  | 0 => []
  | n + 1 => { off := readU32 m a, size := readU32 m (a + 4) } :: readParts m (a + 8) n

/-- The picture-status record at an address (R119); its FLAGS are taken as `recordFlagsOk` admits them. -/
def readRecord (m : Memory) (a : Nat) : PicRecord :=
  let f := readU32 m a
  { first := f.getLsbD 0
    last := f.getLsbD 1
    idr := f.getLsbD 2
    field := f.getLsbD 3
    uduPending := f.getLsbD 4
    ppsChanged := f.getLsbD 5
    audForce := f.getLsbD 6
    vpsForce := f.getLsbD 7
    stype := sliceTypeOf (f.extractLsb' 8 2)
    tid := f.extractLsb' 10 3
    recoveryCount := readU32 m (a + 4)
    fillerBytes := readU32 m (a + 8)
    hdrBase := readU32 m (a + 12)
    sliceCount := readU32 m (a + 16)
    cpbInit := readU32 m (a + 20)
    parts := readParts m (a + 28) (readU32 m (a + 24)).toNat }

/-- The context of this picture's PAYLOAD calls (20_memory.md R92), before R271 and R272 update the CPB registers. -/
def payloadCtx (s : State) (r : PicRecord) : PayloadCtx :=
  { record := r, cpbDelay := s.cpbDelay, cpbInitDelay := s.cpbInitDelay, codec := s.cfgCodec }

/-- A configuration item: header bytes, section flags, RBSP (R255). -/
structure ConfigItem where
  hb    : List Byte
  flags : Word
  rbsp  : List Byte
  deriving DecidableEq, Repr

/-- RC > 0: a recovery point (R257, R260). -/
def isRecovery (r : PicRecord) : Bool := decide (0 < r.recoveryCount.toNat)

/-- A header for this codec: the AVC byte of type `ta` and importance `ra`, or the HEVC bytes (R201, R202). -/
def codecHeader (s : State) (ta : BitVec 5) (ra : BitVec 2) (th lr : BitVec 6) (tid : BitVec 3) : List Byte :=
  match s.cfgCodec with
  | .avc => avcHdrBytes ta ra
  | _ => hevcHdrBytes th lr tid

/-- AUD (R256). -/
def audItems (s : State) (r : PicRecord) : List ConfigItem :=
  if s.cfgAud || r.audForce then
    [{ hb := codecHeader s 9#5 0#2 35#6 0#6 r.tid, flags := secConfig, rbsp := s.payload .aud 0 (payloadCtx s r) }]
  else []

/-- VPS, HEVC only (R257). -/
def vpsItems (s : State) (r : PicRecord) : List ConfigItem :=
  if s.cfgCodec = .hevc ∧ (r.idr || isRecovery r || r.vpsForce) = true then
    [{ hb := hevcHdrBytes 32#6 0#6 0#3, flags := secConfig, rbsp := s.payload .vps 0 (payloadCtx s r) }]
  else []

/-- SPS, one per layer (R258). -/
def spsItems (s : State) (r : PicRecord) : List ConfigItem :=
  if r.idr || isRecovery r then
    (List.range s.cfgNumLayers.toNat).map (fun l =>
      { hb := codecHeader s 7#5 3#2 33#6 (BitVec.ofNat 6 l) 0#3, flags := secConfig,
        rbsp := s.payload .sps l (payloadCtx s r) })
  else []

/-- PPS, one per layer (R259). -/
def ppsItems (s : State) (r : PicRecord) : List ConfigItem :=
  if decide (r.stype = .i) || isRecovery r || r.ppsChanged then
    (List.range s.cfgNumLayers.toNat).map (fun l =>
      { hb := codecHeader s 8#5 3#2 34#6 (BitVec.ofNat 6 l) 0#3, flags := secConfig,
        rbsp := s.payload .pps l (payloadCtx s r) })
  else []

/-- The bundled SEI kinds in the bit order of CFG_SEI_MASK (10_state.md R37), with their payloadType (41_nal.md R211) and
whether they are selected only on an I picture or a recovery point (R260). -/
def bundledSei : List (Nat × PayloadKind × Nat × Bool) :=
  [(0, .seiBp, 0, true), (1, .seiRp, 6, true), (2, .seiPt, 1, false), (3, .seiMdcv, 137, false), (4, .seiCll, 144, false),
   (5, .seiAtc, 147, false), (6, .seiSt2094x10, 4, false), (7, .seiSt2094x40, 4, false)]

/-- SEL (R260): the requested and applicable kinds, each with its payloadType. -/
def selectedSei (s : State) (r : PicRecord) : List (PayloadKind × Nat) :=
  (bundledSei.filter (fun e =>
    s.cfgSeiMask.getLsbD e.1 && (!e.2.2.2 || decide (r.stype = .i) || isRecovery r))).map (fun e => (e.2.1, e.2.2.1))

/-- The header of a prefix SEI NAL unit of SEC_PICTURE (R261, R262). -/
def seiHeader (s : State) (r : PicRecord) : List Byte := codecHeader s 6#5 0#2 39#6 0#6 r.tid

/-- Active parameter sets SEI, HEVC only, when BP or PT is selected (R261). -/
def apsItems (s : State) (r : PicRecord) : List ConfigItem :=
  if s.cfgCodec = .hevc ∧ (selectedSei s r).any (fun e => decide (e.1 = .seiBp ∨ e.1 = .seiPt)) = true then
    [{ hb := seiHeader s r, flags := secConfig ||| secSeiPrefix,
       rbsp := seiMsg 129 (s.payload .seiAps 0 (payloadCtx s r)) ++ [0x80#8] }]
  else []

/-- The SEI bundle (R262). -/
def bundleItems (s : State) (r : PicRecord) : List ConfigItem :=
  if (selectedSei s r).isEmpty then []
  else
    [{ hb := seiHeader s r, flags := secConfig ||| secSeiPrefix,
       rbsp := (selectedSei s r).flatMap (fun e => seiMsg e.2 (s.payload e.1 0 (payloadCtx s r))) ++ [0x80#8] }]

/-- User data unregistered SEI (R263). -/
def uduItems (s : State) (r : PicRecord) : List ConfigItem :=
  if s.cfgSeiMask.getLsbD 8 then
    [{ hb := seiHeader s r, flags := secConfig ||| secSeiPrefix,
       rbsp := seiMsg 5 (s.payload .seiUdu 0 (payloadCtx s r)) ++ [0x80#8] }]
  else []

/-- CFG (R255 to R263): the configuration items of a first slice, in emission order; none when FIRST = 0. -/
def configItems (s : State) (r : PicRecord) : List ConfigItem :=
  if r.first then
    audItems s r ++ vpsItems s r ++ spsItems s r ++ ppsItems s r ++ apsItems s r ++ bundleItems s r ++ uduItems s r
  else []

/-- What a planned section writes at commit (R264 to R266). -/
inductive Content where
  | none
  | bytes (bs : List Byte)
  | filler (head : List Byte) (budget : Nat) (df : Bool)
  deriving DecidableEq, Repr

/-- A planned section (R251, R264). -/
structure Planned where
  span    : Span
  flags   : Word
  content : Content
  deriving DecidableEq, Repr

/-- What R264 leaves: the planned sections, the next free offset `cur`, and whether an item was dropped. -/
structure ConfigPlan where
  planned : List Planned
  cur     : Nat
  dropped : Bool
  deriving DecidableEq, Repr

/-- R264: each item is placed at `cur` inside the header window, or dropped whole. -/
def placeConfig (sc : ScLen) (tmpCap limit : Nat) : Nat → List ConfigItem → ConfigPlan
  | cur, [] => { planned := [], cur := cur, dropped := false }
  | cur, x :: rest =>
    if x.rbsp.length ≤ tmpCap ∧ cur + (nalBytes sc x.hb x.rbsp).length ≤ limit then
      let p := placeConfig sc tmpCap limit (cur + (nalBytes sc x.hb x.rbsp).length) rest
      { p with
        planned :=
          { span := { off := cur, len := (nalBytes sc x.hb x.rbsp).length }, flags := x.flags,
            content := .bytes (nalBytes sc x.hb x.rbsp) } :: p.planned }
    else { placeConfig sc tmpCap limit cur rest with dropped := true }

/-- The configuration plan of a picture (R255, R264). -/
def configPlan (s : State) (r : PicRecord) : ConfigPlan :=
  placeConfig s.cfgScLen s.params.tmpCap.toNat (headerLimit s r.hdrBase.toNat) r.hdrBase.toNat (configItems s r)

/-- R265: each stream part as a section with no flags, for which the block writes nothing. -/
def partsPlan (r : PicRecord) : List Planned :=
  r.parts.map (fun p => { span := { off := p.off.toNat, len := p.size.toNat }, flags := 0#32, content := .none })

/-- The spans of planned sections. -/
def plannedSpans (l : List Planned) : List Span := l.map (fun p => p.span)

/-- FirstUnused over the table and the sections planned so far (10_state.md R49). -/
def firstUnusedOver (s : State) (l : List Planned) : Nat := firstUnused (tableSpans s.sections ++ plannedSpans l)

/-- The internal writer of a filler at a stream-buffer offset (R266). -/
def fillerWriter (s : State) (off : Nat) : BitWriter :=
  { base := s.sbBase.toNat + off, maxBits := 8 * (s.sbCap.toNat - off), bitCnt := 0, ovf := false }

/-- SC and header of the picture's filler NAL unit (R266). -/
def fillerHead (s : State) (r : PicRecord) : List Byte :=
  startCode s.cfgScLen ++ codecHeader s 12#5 0#2 38#6 0#6 r.tid

/-- Whether the filler policy asks for a filler NAL unit (R266). -/
def wantsFiller (s : State) (r : PicRecord) : Bool :=
  decide (s.cfgFiller ≠ .off) && (decide (0 < r.fillerBytes.toNat) || (r.uduPending && r.last))

/-- The landed bytes of the planned filler (R266); what lands does not depend on memory. -/
def fillerLanded (s : State) (r : PicRecord) (off : Nat) : Nat :=
  let x : Stream := (fillerWriter s off, s.mem)
  landedBytes x (fillerRun (fillerHead s r) r.fillerBytes.toNat (decide (s.cfgFiller = .dontFill)) x)

/-- R266: the filler section after the sections planned so far, if any byte of it lands. -/
def fillerPlan (s : State) (r : PicRecord) (l : List Planned) : List Planned :=
  if wantsFiller s r then
    if 0 < fillerLanded s r (firstUnusedOver s l) then
      [{ span := { off := firstUnusedOver s l, len := fillerLanded s r (firstUnusedOver s l) }
         flags := if s.cfgFiller = .dontFill then secAppFiller else 0#32
         content := .filler (fillerHead s r) r.fillerBytes.toNat (decide (s.cfgFiller = .dontFill)) }]
    else []
  else []

/-- Whether R266 sets FILLER_CLIPPED: fewer bytes landed than FILLER_BYTES. -/
def fillerShort (s : State) (r : PicRecord) (l : List Planned) : Bool :=
  wantsFiller s r && decide (fillerLanded s r (firstUnusedOver s l) < r.fillerBytes.toNat)

/-- R267: the end-of-frame sentinel of a last slice. -/
def sentinelPlan (s : State) (r : PicRecord) (l : List Planned) : List Planned :=
  if r.last then
    [{ span := { off := firstUnusedOver s l, len := 0 }, flags := secEndOfFrame, content := .none }]
  else []

/-- P after R264 and R265: configuration sections, then stream parts. -/
def planBeforeFiller (s : State) (r : PicRecord) : List Planned := (configPlan s r).planned ++ partsPlan r

/-- P after R266. -/
def planWithFiller (s : State) (r : PicRecord) : List Planned :=
  planBeforeFiller s r ++ fillerPlan s r (planBeforeFiller s r)

/-- P (R254 to R267): the whole plan. -/
def picturePlan (s : State) (r : PicRecord) : List Planned :=
  planWithFiller s r ++ sentinelPlan s r (planWithFiller s r)

/-- Step 1 of the commit for one planned section: its bytes (R269, R266). -/
def commitBytes (s : State) (m : Memory) (p : Planned) : Memory :=
  match p.content with
  | .none => m
  | .bytes bs => writeBytes m (s.sbBase.toNat + p.span.off) bs
  | .filler head budget df => (fillerRun head budget df (fillerWriter s p.span.off, m)).stream.2

/-- The section a planned section becomes; CheckPlan has bounded it by SB_CAP, so nothing is lost (R251). -/
def plannedSection (p : Planned) : Section :=
  { offset := BitVec.ofNat 32 p.span.off, length := BitVec.ofNat 32 p.span.len, flags := p.flags }

/-- R270: every entry of the table gets SYNC on an IDR picture. -/
def syncMark (idr : Bool) (t : List Section) : List Section :=
  if idr then t.map (fun x => { x with flags := x.flags ||| secSync }) else t

/-- R271: the running CPB removal delay after a first slice. -/
def nextCpbDelay (d : Word) (r : PicRecord) : Word :=
  (if r.stype = .i then 0#32 else d) + (if r.field then 1#32 else 2#32)

/-- The commit and the bookkeeping of a picture, but for RES (R269 to R272). -/
def commitPicture (s : State) (r : PicRecord) (plan : List Planned) : State :=
  { s with
    mem := plan.foldl (commitBytes s) s.mem
    sections := syncMark r.idr (s.sections ++ plan.map plannedSection)
    fillerClipped := s.fillerClipped || fillerShort s r (planBeforeFiller s r)
    cfgDropped := s.cfgDropped || (configPlan s r).dropped
    sbHdrBase := if r.first then r.hdrBase else s.sbHdrBase
    sbHdrCur := if r.first then BitVec.ofNat 32 (configPlan s r).cur else s.sbHdrCur
    cpbDelay := if r.first then nextCpbDelay s.cpbDelay r else s.cpbDelay
    cpbInitDelay := if r.first then r.cpbInit else s.cpbInitDelay
    lastTid := if r.first then r.tid else s.lastTid }

/-- The part of SEC_PICTURE after the record's checks (R255 to R273). -/
def pictureFlow (i : Instr) (r : PicRecord) (s : State) : Result :=
  match checkPlan s (plannedSpans (picturePlan s r)) with
  | some c => raise i c s
  | none => completeWith (BitVec.ofNat 32 (picturePlan s r).length) (commitPicture s r (picturePlan s r))

/-- NPARTS of the record at an address (R119). -/
def recordParts (m : Memory) (a : Nat) : Word := readU32 m (a + 24)

/-- SEC_PICTURE (R254): the checks in the order of its pseudocode, then the flow. -/
def execSecPicture (record : Word) (s : State) : Result :=
  if s.sbValid then
    if s.cfgCodec = .other then raise (.secPicture record) .unsupported s
    else
      match admitFail s.memMap record.toNat 28 with
      | some b => raiseBus (.secPicture record) b s
      | none =>
        if s.params.maxParts.toNat < (recordParts s.mem record.toNat).toNat then
          raise (.secPicture record) .operandRange s
        else
          match admitFail s.memMap (record.toNat + 28) (8 * (recordParts s.mem record.toNat).toNat) with
          | some b => raiseBus (.secPicture record) b s
          | none =>
            if recordFlagsOk (readU32 s.mem record.toNat) then
              pictureFlow (.secPicture record) (readRecord s.mem record.toNat) s
            else raise (.secPicture record) .operandRange s
  else raise (.secPicture record) .notInitialised s

end Sys2Proof.Machine
end

