-- ==== Sys2Proof/Machine/Roi.lean ====
section
/-! DEFINITION. The ROI context and the QP buffer (43_roi_qp.md R320 to R333). -/

namespace Sys2Proof.Machine

/-- ceil(v / 2^s) (R320, R322). -/
def ceilShift (v s : Nat) : Nat := (v + 2 ^ s - 1) / 2 ^ s

/-- Encode(q) (R321): the sentinel bit for bit, the low six bits of any other quality. -/
def encodeQuality (p : Params) (q : Byte) : Byte := if q = p.sentinel then q else q &&& 0x3F#8

/-- DQP(c) = sext_6(c[5:0]) (R321). -/
def dqp (c : Byte) : Int := (c.extractLsb' 0 6).toInt

/-- FMV(c) = c AND FMV0_MASK (R321). -/
def fmv (p : Params) (c : Byte) : Byte := c &&& p.fmv0Mask

/-- floor2 (00_scope.md R10): the floor of half. -/
def floor2 (v : Int) : Int := v / 2

/-- clip3 (R10). -/
def clip3 (v lo hi : Int) : Int := if v < lo then lo else if hi < v then hi else v

/-- ROI_INIT (R320). -/
def execRoiInit (mode : RoiMode) (picW picH bgQuality : Word) (s : State) : Result :=
  if pictureSizeOk picW picH then
    complete { s with
      roi :=
        { valid := true
          picW := picW
          picH := picH
          log2Lcu := BitVec.ofNat 32 (log2Lcu s.cfgCodec)
          lcuW := BitVec.ofNat 32 (ceilShift picW.toNat (log2Lcu s.cfgCodec))
          lcuH := BitVec.ofNat 32 (ceilShift picH.toNat (log2Lcu s.cfgCodec))
          bg := encodeQuality s.params (qualityArg bgQuality)
          mode := mode
          codec := s.cfgCodec }
      nodes := [] }
  else raise (.roiInit mode picW picH bgQuality) .operandRange s

/-- Whether the top-left LCU of a rectangle lies in the grid (R323). -/
def roiInside (c : RoiContext) (x y : Word) : Bool :=
  decide (x.toNat >>> c.log2Lcu.toNat < c.lcuW.toNat) && decide (y.toNat >>> c.log2Lcu.toNat < c.lcuH.toNat)

/-- The node of a pixel rectangle (R322, R323), for a top-left inside the grid. -/
def roiNodeOf (c : RoiContext) (code : Byte) (x y w h : Word) : RoiNode :=
  { x0 := BitVec.ofNat 32 (x.toNat >>> c.log2Lcu.toNat)
    y0 := BitVec.ofNat 32 (y.toNat >>> c.log2Lcu.toNat)
    w := BitVec.ofNat 32 (min (ceilShift w.toNat c.log2Lcu.toNat) (c.lcuW.toNat - x.toNat >>> c.log2Lcu.toNat))
    h := BitVec.ofNat 32 (min (ceilShift h.toNat c.log2Lcu.toNat) (c.lcuH.toNat - y.toNat >>> c.log2Lcu.toNat))
    code := code }

/-- Insertion in quality order (R324): before the first node whose DQP is not greater. -/
def insertByQuality (n : RoiNode) : List RoiNode → List RoiNode
  | [] => [n]
  | x :: t => if dqp n.code < dqp x.code then x :: insertByQuality n t else n :: x :: t

/-- Node insertion (R324). -/
def insertNode (mode : RoiMode) (n : RoiNode) (l : List RoiNode) : List RoiNode :=
  match mode with
  | .incoming => l ++ [n]
  | .quality => insertByQuality n l

/-- ROI_ADD (R323): a top-left outside the picture is the result 0, not a fault. -/
def execRoiAdd (x y w h quality : Word) (s : State) : Result :=
  if s.roi.valid then
    if roiInside s.roi x y then
      if s.nodes.length = s.params.maxRoi.toNat then raise (.roiAdd x y w h quality) .roiFull s
      else
        completeWith 1#32 { s with
          nodes := insertNode s.roi.mode
            (roiNodeOf s.roi (encodeQuality s.params (qualityArg quality)) x y w h) s.nodes }
    else completeWith 0#32 s
  else raise (.roiAdd x y w h quality) .notInitialised s

/-- ROI_CLEAR (R325). -/
def execRoiClear (s : State) : Result :=
  if s.roi.valid then complete { s with nodes := [] } else raise .roiClear .notInitialised s

/-- ROI_DESTROY (R326): every ROI register and the list become 0. -/
def execRoiDestroy (s : State) : Result :=
  if s.roi.valid then complete { s with roi := RoiContext.reset, nodes := [] }
  else raise .roiDestroy .notInitialised s

/-- The layout of a QP buffer (R327): its address, grid and group shape. -/
structure QpLayout where
  dst  : Nat
  lcuW : Nat
  lcuH : Nat
  qpn  : Nat
  bpl  : Nat
  deriving DecidableEq, Repr

/-- The layout a QP command uses (R327). -/
def qpLayout (c : RoiContext) (qpn bpl : BitVec 8) (dst : Word) : QpLayout :=
  { dst := dst.toNat, lcuW := c.lcuW.toNat, lcuH := c.lcuH.toNat, qpn := qpn.toNat, bpl := bpl.toNat }

/-- Group(x, y) (R327). -/
def groupAddr (q : QpLayout) (x y : Nat) : Nat := q.dst + (y * q.lcuW + x) * q.bpl

/-- The length of Range (R327). -/
def qpRangeLen (q : QpLayout) : Nat := q.lcuW * q.lcuH * q.bpl

/-- WriteCell(x, y, v) (R327): the first QPN bytes of the group. -/
def writeCell (q : QpLayout) (v : Byte) (m : Memory) (x y : Nat) : Memory :=
  writeBytes m (groupAddr q x y) (List.replicate q.qpn v)

/-- ReadCell(x, y) (R327): byte 0 of the group. -/
def readCell (q : QpLayout) (m : Memory) (x y : Nat) : Byte := readByte m (groupAddr q x y)

/-- The cells of a rectangle in raster order: y from y0, and for each y, x from x0. -/
def rectCells (x0 y0 w h : Nat) : List (Nat × Nat) :=
  (List.range h).flatMap (fun j => (List.range w).map (fun i => (x0 + i, y0 + j)))

/-- A value written to every cell of a list, in order. -/
def fillCells (q : QpLayout) (v : Byte) (cells : List (Nat × Nat)) (m : Memory) : Memory :=
  cells.foldl (fun m c => writeCell q v m c.1 c.2) m

/-- Draw(n) (R329). -/
def drawNode (q : QpLayout) (n : RoiNode) (m : Memory) : Memory :=
  fillCells q n.code (rectCells n.x0.toNat n.y0.toNat n.w.toNat n.h.toNat) m

/-- The value SmoothCell writes over `old` next to a node of code C (R330). -/
def smoothValue (p : Params) (codec : Codec) (old code : Byte) : Byte :=
  (BitVec.ofInt 8 (clip3 (floor2 (dqp old + dqp code)) (qpMin codec) (qpMax codec)) &&& 0x3F#8) |||
    fmv p old ||| fmv p code

/-- SmoothCell(x, y, C) (R330). -/
def smoothCell (p : Params) (codec : Codec) (q : QpLayout) (code : Byte) (m : Memory) (c : Nat × Nat) : Memory :=
  writeCell q (smoothValue p codec (readCell q m c.1 c.2) code) m c.1 c.2

/-- A row of cells at y, x in [a, b) (R331). -/
def rowCells (y a b : Nat) : List (Nat × Nat) := (List.range (b - a)).map (fun i => (a + i, y))

/-- A column of cells at x, y in [a, b) (R331). -/
def columnCells (x a b : Nat) : List (Nat × Nat) := (List.range (b - a)).map (fun i => (x, a + i))

/-- The neighbouring cells of a node in smoothing order: top and bottom with corners, left and right without (R331). -/
def haloCells (q : QpLayout) (n : RoiNode) : List (Nat × Nat) :=
  let x0 := n.x0.toNat
  let y0 := n.y0.toNat
  let x1 := x0 + n.w.toNat
  let y1 := y0 + n.h.toNat
  let xs := if 0 < x0 then x0 - 1 else x0
  let xe := if x1 < q.lcuW then x1 + 1 else x1
  (if 0 < y0 then rowCells (y0 - 1) xs xe else []) ++
    (if y1 < q.lcuH then rowCells y1 xs xe else []) ++
    (if 0 < x0 then columnCells (x0 - 1) y0 y1 else []) ++
    (if x1 < q.lcuW then columnCells x1 y0 y1 else [])

/-- Smooth(n) (R331): nothing for a sentinel node or a node of zero size. -/
def smoothNode (p : Params) (codec : Codec) (q : QpLayout) (n : RoiNode) (m : Memory) : Memory :=
  if n.code = p.sentinel ∨ n.w = 0#32 ∨ n.h = 0#32 then m
  else (haloCells q n).foldl (smoothCell p codec q n.code) m

/-- Steps 2 and 3 of ROI_FILL for one node: draw, then smooth (R328). -/
def applyNode (p : Params) (codec : Codec) (q : QpLayout) (m : Memory) (n : RoiNode) : Memory :=
  smoothNode p codec q n (drawNode q n m)

/-- Every cell of the grid, in raster order. -/
def gridCells (q : QpLayout) : List (Nat × Nat) := rectCells 0 0 q.lcuW q.lcuH

/-- The memory after ROI_FILL (R328): the background, then each node in list order. -/
def roiFillMemory (s : State) (q : QpLayout) : Memory :=
  s.nodes.foldl (applyNode s.params s.roi.codec q) (fillCells q s.roi.bg (gridCells q) s.mem)

/-- ROI_FILL (R328). -/
def execRoiFill (qpn bpl : BitVec 8) (dst : Word) (s : State) : Result :=
  if qpLayoutOk qpn bpl then
    if s.roi.valid then
      match admitFail s.memMap dst.toNat (qpRangeLen (qpLayout s.roi qpn bpl dst)) with
      | some b => raiseBus (.roiFill qpn bpl dst) b s
      | none => completeWith 0#32 { s with mem := roiFillMemory s (qpLayout s.roi qpn bpl dst) }
    else raise (.roiFill qpn bpl dst) .notInitialised s
  else raise (.roiFill qpn bpl dst) .operandRange s

/-- QP_FLAT (R332). -/
def execQpFlat (qpn bpl : BitVec 8) (dst value : Word) (s : State) : Result :=
  if qpLayoutOk qpn bpl then
    if s.roi.valid then
      match admitFail s.memMap dst.toNat (qpRangeLen (qpLayout s.roi qpn bpl dst)) with
      | some b => raiseBus (.qpFlat qpn bpl dst value) b s
      | none =>
        completeWith 0#32 { s with
          mem := fillCells (qpLayout s.roi qpn bpl dst) (encodeQuality s.params (qualityArg value))
            (gridCells (qpLayout s.roi qpn bpl dst)) s.mem }
    else raise (.qpFlat qpn bpl dst value) .notInitialised s
  else raise (.qpFlat qpn bpl dst value) .operandRange s

/-- The bytes a table must hold: W * H * QPN (R333). -/
def qpTableLen (q : QpLayout) : Nat := q.lcuW * q.lcuH * q.qpn

/-- The copy of QP_LOAD (R333): for each cell in raster order, its QPN table bytes. -/
def loadCells (q : QpLayout) (t : List Byte) (cells : List (Nat × Nat)) (m : Memory) : Memory :=
  cells.foldl (fun m c =>
    writeBytes m (groupAddr q c.1 c.2) ((t.drop ((c.2 * q.lcuW + c.1) * q.qpn)).take q.qpn)) m

/-- QP_LOAD (R333): a short table is the result 1, not a fault; the table is read whole before any write. -/
def execQpLoad (qpn bpl : BitVec 8) (dst src srcLen : Word) (s : State) : Result :=
  if qpLayoutOk qpn bpl then
    if s.roi.valid then
      let q := qpLayout s.roi qpn bpl dst
      if srcLen.toNat < qpTableLen q then completeWith 1#32 s
      else
        match admitFail s.memMap src.toNat (qpTableLen q) with
        | some b => raiseBus (.qpLoad qpn bpl dst src srcLen) b s
        | none =>
          match admitFail s.memMap dst.toNat (qpRangeLen q) with
          | some b => raiseBus (.qpLoad qpn bpl dst src srcLen) b s
          | none =>
            completeWith 0#32
              { s with mem := loadCells q (readBytes s.mem src.toNat (qpTableLen q)) (gridCells q) s.mem }
    else raise (.qpLoad qpn bpl dst src srcLen) .notInitialised s
  else raise (.qpLoad qpn bpl dst src srcLen) .operandRange s

end Sys2Proof.Machine
end

