-- ==== Sys2Proof/Machine/Dispatch.lean ====
section
/-! DEFINITION. One arm per command: its meaning. -/

namespace Sys2Proof.Machine

/-- The meaning of a command that has all its words (20_memory.md R85, R86). -/
def exec (i : Instr) (s : State) : Host.Outcome State Fault Refusal :=
  match i with
  | .nop => Sys2Proof.Machine.execNop s
  | .regRd reg => Sys2Proof.Machine.execRegRd reg s
  | .regWr reg value => Sys2Proof.Machine.execRegWr reg value s
  | .bwInit w base maxBits => Sys2Proof.Machine.execBwInit w base maxBits s
  | .bwPutbits w n value => Sys2Proof.Machine.execBwPutbits w n value s
  | .bwPutbit w b => Sys2Proof.Machine.execBwPutbit w b s
  | .bwPutu w n value => Sys2Proof.Machine.execBwPutu w n value s
  | .bwPuts w n value => Sys2Proof.Machine.execBwPuts w n value s
  | .bwPutue w value => Sys2Proof.Machine.execBwPutue w value s
  | .bwPutse w value => Sys2Proof.Machine.execBwPutse w value s
  | .bwAlign w b => Sys2Proof.Machine.execBwAlign w b s
  | .bwTrail w => Sys2Proof.Machine.execBwTrail w s
  | .bwSkip w n => Sys2Proof.Machine.execBwSkip w n s
  | .bwGetbits w => Sys2Proof.Machine.execBwGetbits w s
  | .bwGetdata w => Sys2Proof.Machine.execBwGetdata w s
  | .bwGetwptr w => Sys2Proof.Machine.execBwGetwptr w s
  | .nalMkhdr type rl tid => Sys2Proof.Machine.execNalMkhdr type rl tid s
  | .nalStart w hl hdr => Sys2Proof.Machine.execNalStart w hl hdr s
  | .nalEpcopy w src n => Sys2Proof.Machine.execNalEpcopy w src n s
  | .nalFiller w hl hdr df budget => Sys2Proof.Machine.execNalFiller w hl hdr df budget s
  | .secAttach base cap => Sys2Proof.Machine.execSecAttach base cap s
  | .secAdd offset length flags => Sys2Proof.Machine.execSecAdd offset length flags s
  | .secPicture record => Sys2Proof.Machine.execSecPicture record s
  | .secAddsei sfx ptype src size => Sys2Proof.Machine.execSecAddsei sfx ptype src size s
  | .roiInit mode picW picH bgQuality => Sys2Proof.Machine.execRoiInit mode picW picH bgQuality s
  | .roiAdd x y w h quality => Sys2Proof.Machine.execRoiAdd x y w h quality s
  | .roiClear => Sys2Proof.Machine.execRoiClear s
  | .roiDestroy => Sys2Proof.Machine.execRoiDestroy s
  | .roiFill qpn bpl dst => Sys2Proof.Machine.execRoiFill qpn bpl dst s
  | .qpFlat qpn bpl dst value => Sys2Proof.Machine.execQpFlat qpn bpl dst value s
  | .qpLoad qpn bpl dst src srcLen => Sys2Proof.Machine.execQpLoad qpn bpl dst src srcLen s

end Sys2Proof.Machine
end

