-- ==== Sys2Proof/Machine/Engine.lean ====
section
/-! DEFINITION. Taking commands from the command port (30_encoding.md R110 to R117, 60_exceptions.md R403, R404). -/

namespace Sys2Proof.Machine

/-- One step of the block. Halted: the next word is accepted and discarded, if there is one (R404). Otherwise: an illegal
header raises IllegalCommand and consumes only itself (R115, R403); a whole command is taken and executed (R85); a block that
has no header, or is owed argument words, stays as it is (R91, R414, R415). -/
def blockStep (s : State) : Result :=
  if s.halted then .next { s with port := s.port.tail }
  else
    match decode s.port with
    | .noHeader => .next s
    | .owed _ => .next s
    | .illegalOpcode h rest => .next (faultEntry h .illegalCommand 0 { s with port := rest })
    | .reservedBitSet h rest => .next (faultEntry h .illegalCommand 0 { s with port := rest })
    | .command i rest => exec i { s with port := rest }

/-- The words of one instruction, given as the opcode table numbers their bits, put in front of the command port's words. -/
def placeWords (s : State) (nbits w : Nat) : State := { s with port := tableWords nbits w ++ s.port }

end Sys2Proof.Machine
end

