-- ==== Sys2Proof/Machine/Step.lean ====
section
/-! DEFINITION. One step, and placing an instruction where the next step takes it. -/

namespace Sys2Proof.Machine

/-- One step of the machine. -/
def step (s : State) : Host.Outcome State Fault Refusal := blockStep s

/-- The state with one instruction's words at the front of the command port (log entry 4). -/
def State.withFetchWord (s : State) (nbits w : Nat) : State := placeWords s nbits w

end Sys2Proof.Machine
end

