-- ==== Sys2Proof/Machine/HostPort.lean ====
section
/-! DEFINITION. The host's moves between steps (20_memory.md R91, 70_reset_and_hazards.md R440, R445, R451). They are not steps
of the block. The register read port is `readPort`, and reset is `hostReset`. -/

namespace Sys2Proof.Machine

/-- The host delivers command words, in order (R91). -/
def deliver (s : State) (ws : List Word) : State := { s with port := s.port ++ ws }

/-- The host writes a byte of memory between commands (R445). -/
def hostWrite (s : State) (a : Nat) (b : Byte) : State := { s with mem := writeByte s.mem a b }

/-- Whether the block is owed argument words: it waits and takes no step (R415, R451). -/
def isOwed (s : State) : Bool :=
  match decode s.port with
  | .owed _ => !s.halted
  | _ => false

/-- Whether the run has ended, once the host has delivered its last word (R451): every word was taken, by a command, a fault
or a discard. -/
def runEnded (s : State) : Bool := s.port.isEmpty

end Sys2Proof.Machine
end

