-- ==== Sys2Proof/WellFormed.lean ====
section
/-! DEFINITION. The checks on a command's operands that need no state. Every command has an encoding, well-formed or not: an
operand out of range is a legal encoding that raises a fault when it executes (30_encoding.md R112). -/

namespace Sys2Proof

open Sys2Proof.Machine

/-- Whether a command's operands alone are in range: an ill-formed command raises OPERAND_RANGE, or REG_ACCESS for a register
number it may not name, in every state (60_exceptions.md R402). NAL_MKHDR and SEC_PICTURE check no operand before state, and
the value checks of REG_WR are those of the register (44_control.md R382). -/
def Instr.wellFormed : Instr → Bool
  | .nop => true
  | .regRd reg => (regOfNat reg.toNat).isSome
  | .regWr reg _ => (regOfNat reg.toNat).any regWritable
  | .bwInit _ _ _ => true
  | .bwPutbits _ n value => putUnsignedOk n value
  | .bwPutbit _ _ => true
  | .bwPutu _ n value => putUnsignedOk n value
  | .bwPuts _ n value => putSignedOk n value
  | .bwPutue _ value => putUeOk value
  | .bwPutse _ value => putSeOk value
  | .bwAlign _ _ => true
  | .bwTrail _ => true
  | .bwSkip _ _ => true
  | .bwGetbits _ => true
  | .bwGetdata _ => true
  | .bwGetwptr _ => true
  | .nalMkhdr _ _ _ => true
  | .nalStart _ hl hdr => nalHeaderOk hl hdr
  | .nalEpcopy _ _ _ => true
  | .nalFiller _ hl hdr _ _ => nalHeaderOk hl hdr
  | .secAttach _ _ => true
  | .secAdd _ _ flags => sectionFlagsOk flags
  | .secPicture _ => true
  | .secAddsei _ _ _ _ => true
  | .roiInit _ picW picH _ => pictureSizeOk picW picH
  | .roiAdd _ _ _ _ _ => true
  | .roiClear => true
  | .roiDestroy => true
  | .roiFill qpn bpl _ => qpLayoutOk qpn bpl
  | .qpFlat qpn bpl _ _ => qpLayoutOk qpn bpl
  | .qpLoad qpn bpl _ _ _ => qpLayoutOk qpn bpl

end Sys2Proof
end

