-- ==== Sys2Proof/Safety.lean ====
section
/-! DEFINITION. What claims speak of: which accesses are admitted, and what holds of every state a run reaches. -/

namespace Sys2Proof.Machine

/-- Every byte of [a, a + n) is an address of the port that MEM_OK admits (20_memory.md R84). -/
def Admitted (rs : List Region) (a n : Nat) : Prop :=
  ∀ b, a ≤ b → b < a + n → b < addressSpace ∧ memOk rs b = true

/-- The address BusError records for a range that is not admitted (R84): the lowest address below 2^32 that MEM_OK excludes;
where there is none and the range only passes 2^32, the range's first address. -/
def LowestFailing (rs : List Region) (a n b : Nat) : Prop :=
  (a ≤ b ∧ b < a + n ∧ b < addressSpace ∧ memOk rs b = false ∧ ∀ c, a ≤ c → c < b → memOk rs c = true) ∨
    (b = a ∧ 0 < n ∧ addressSpace < a + n ∧ ∀ c, a ≤ c → c < addressSpace → memOk rs c = true)

/-- Memory unchanged outside [a, a + n). -/
def SameOutside (m m' : Memory) (a n : Nat) : Prop := ∀ b, (b < a ∨ a + n ≤ b) → readByte m' b = readByte m b

/-- A writer context a run can reach (40_bitwriter.md R151, R153): invalid and all 0, or valid over an admitted range; with OVF
clear, BITCNT is within MAXBITS. -/
structure WriterOk (rs : List Region) (x : HostWriter) : Prop where
  unset    : x.valid = false → x = HostWriter.reset
  admitted : x.valid = true → Admitted rs x.base.toNat (capacityBytes x.maxBits.toNat)
  inside   : x.ovf = false → x.bitCnt ≤ x.maxBits.toNat

/-- Both writer contexts. -/
def WritersOk (s : State) : Prop := WriterOk s.memMap s.w0 ∧ WriterOk s.memMap s.w1

/-- The stream-buffer binding a run can reach (42_sections.md R250): unbound and empty, or bound to an admitted range. -/
structure StreamBufferOk (s : State) : Prop where
  unbound  : s.sbValid = false → s.sections = [] ∧ s.sbBase = 0#32 ∧ s.sbCap = 0#32
  admitted : s.sbValid = true → Admitted s.memMap s.sbBase.toNat s.sbCap.toNat

/-- Two sections that share no byte; a zero-length section shares none (42_sections.md R251). -/
def Section.Disjoint (x y : Section) : Prop :=
  x.length = 0#32 ∨ y.length = 0#32 ∨ x.offset.toNat + x.length.toNat ≤ y.offset.toNat ∨
    y.offset.toNat + y.length.toNat ≤ x.offset.toNat

/-- The section table a run can reach (42_sections.md R278 items 1 and 3, 10_state.md R48). -/
structure SectionTableOk (s : State) : Prop where
  count    : s.sections.length ≤ s.params.maxSections.toNat
  inside   : ∀ x ∈ s.sections, x.offset.toNat + x.length.toNat ≤ s.sbCap.toNat
  disjoint : s.sections.Pairwise Section.Disjoint
  flags    : ∀ x ∈ s.sections, sectionFlagsOk x.flags = true

/-- A node that lies inside the grid and holds a stored code (10_state.md R53, 43_roi_qp.md R321, R322). -/
structure NodeOk (p : Params) (c : RoiContext) (n : RoiNode) : Prop where
  column : n.x0.toNat < c.lcuW.toNat ∧ n.x0.toNat + n.w.toNat ≤ c.lcuW.toNat
  row    : n.y0.toNat < c.lcuH.toNat ∧ n.y0.toNat + n.h.toNat ≤ c.lcuH.toNat
  code   : n.code = p.sentinel ∨ n.code &&& 0xC0#8 = 0#8

/-- The ROI context and node list a run can reach (10_state.md R52, R53, 43_roi_qp.md R320, R324). -/
structure RoiOk (s : State) : Prop where
  unset  : s.roi.valid = false → s.roi = RoiContext.reset ∧ s.nodes = []
  grid   : s.roi.valid = true →
    s.roi.picW ≠ 0#32 ∧ s.roi.picH ≠ 0#32 ∧ s.roi.log2Lcu = BitVec.ofNat 32 (log2Lcu s.roi.codec) ∧
      s.roi.lcuW.toNat = ceilShift s.roi.picW.toNat (log2Lcu s.roi.codec) ∧
      s.roi.lcuH.toNat = ceilShift s.roi.picH.toNat (log2Lcu s.roi.codec)
  count  : s.nodes.length ≤ s.params.maxRoi.toNat
  nodes  : ∀ n ∈ s.nodes, NodeOk s.params s.roi n
  sorted : s.roi.mode = .quality → s.nodes.Pairwise (fun a b => dqp b.code ≤ dqp a.code)

/-- The fault registers a run can reach (10_state.md R41, 60_exceptions.md R403 to R405): all 0 while not halted; once halted, a
cause, and FAULT_SEQ the number of completed commands. -/
structure FaultRegsOk (s : State) : Prop where
  running : s.halted = false → s.faultCause = .none ∧ s.faultInfo = 0#32 ∧ s.faultSeq = 0#32 ∧ s.faultArg = 0#32
  stopped : s.halted = true → s.faultCause ≠ .none ∧ s.faultSeq = s.cmdSeq

/-- Legal configuration (10_state.md R38, R51, 00_scope.md R7): parameters within their bounds, CFG_NUM_LAYERS from 1 to
MAX_LAYERS, LAST_TID at most 6. -/
structure ConfigOk (s : State) : Prop where
  params : s.params.Ok
  layers : 1 ≤ s.cfgNumLayers.toNat ∧ s.cfgNumLayers.toNat ≤ s.params.maxLayers.toNat
  tid    : s.lastTid.toNat ≤ 6

/-- What holds of every state a run reaches. -/
structure Reachable (s : State) : Prop where
  memory  : s.mem.wf = true
  writers : WritersOk s
  buffer  : StreamBufferOk s
  table   : SectionTableOk s
  roi     : RoiOk s
  faults  : FaultRegsOk s
  config  : ConfigOk s

/-- What PutBits(x, n, v) leaves, bit by bit (40_bitwriter.md R153, 20_memory.md R81): BITCNT counts; a put that does not fit
whole sets OVF and writes nothing; a put that fits writes stream bits BITCNT to BITCNT + n - 1, v's bit n - 1 first, and no
other bit of memory. -/
structure PutLands (n v : Nat) (x y : Stream) : Prop where
  base     : y.1.base = x.1.base
  capacity : y.1.maxBits = x.1.maxBits
  counted  : y.1.bitCnt = x.1.bitCnt + n
  flagged  : y.1.ovf = true ↔ x.1.ovf = true ∨ x.1.maxBits < x.1.bitCnt + n
  rejected : (x.1.ovf = true ∨ x.1.maxBits < x.1.bitCnt + n) → y.2 = x.2
  written  : x.1.ovf = false → x.1.bitCnt + n ≤ x.1.maxBits →
    ∀ i, i < n → readStreamBit y.2 x.1.base (x.1.bitCnt + i) = v.testBit (n - 1 - i)
  kept     : x.1.ovf = false → x.1.bitCnt + n ≤ x.1.maxBits →
    ∀ a j, j < 8 → (∀ i, i < n → ¬(a = x.1.base + (x.1.bitCnt + i) / 8 ∧ j = 7 - (x.1.bitCnt + i) % 8)) →
      (readByte y.2 a).getLsbD j = (readByte x.2 a).getLsbD j

/-- A stream whose memory is canonical and whose capacity lies in the address space, as every admitted writer's does. -/
structure StreamOk (x : Stream) : Prop where
  memory : x.2.wf = true
  space  : x.1.base + capacityBytes x.1.maxBits ≤ addressSpace

/-- A writer with OVF clear, at a byte boundary, with room for n more bytes. -/
structure AlignedRoom (wr : BitWriter) (n : Nat) : Prop where
  clear   : wr.ovf = false
  aligned : wr.bitCnt % 8 = 0
  room    : wr.bitCnt + 8 * n ≤ wr.maxBits

/-- The address of the byte that holds a writer's next bit (R165). -/
def nextByte (wr : BitWriter) : Nat := wr.base + wr.bitCnt / 8

/-- Two ranges of nonzero length that share no byte, or a range of zero length (42_sections.md R251). -/
def Span.Apart (p q : Span) : Prop := p.len = 0 ∨ q.len = 0 ∨ p.off + p.len ≤ q.off ∨ q.off + q.len ≤ p.off

/-- A plan that R251 accepts beside a table: every range ends inside the capacity, and those of nonzero length share no byte
with one another or with the table's. -/
structure PlanFits (cap : Nat) (table plan : List Span) : Prop where
  inside : ∀ p ∈ plan, p.off + p.len ≤ cap
  apart  : ∀ p ∈ plan, ∀ q ∈ table, Span.Apart p q
  within : plan.Pairwise Span.Apart

/-- The bytes of memory a command may write (20_memory.md R94): address and length of the one range, length 0 for a command
that writes none. -/
def writeRange (s : State) : Instr → Nat × Nat
  | .bwPutbits w _ _ | .bwPutbit w _ | .bwPutu w _ _ | .bwPuts w _ _ | .bwPutue w _ | .bwPutse w _ | .bwAlign w _
  | .bwTrail w | .nalStart w _ _ | .nalEpcopy w _ _ | .nalFiller w _ _ _ _ =>
    ((s.writer w).base.toNat, capacityBytes (s.writer w).maxBits.toNat)
  | .secPicture _ | .secAddsei _ _ _ _ => (s.sbBase.toNat, s.sbCap.toNat)
  | .roiFill _ bpl dst | .qpFlat _ bpl dst _ | .qpLoad _ bpl dst _ _ =>
    (dst.toNat, s.roi.lcuW.toNat * s.roi.lcuH.toNat * bpl.toNat)
  | _ => (0, 0)

/-- The writer a command names, but for BW_INIT (40_bitwriter.md R152, 10_state.md R44). -/
def namedWriter : Instr → Option WriterId
  | .bwPutbits w _ _ | .bwPutbit w _ | .bwPutu w _ _ | .bwPuts w _ _ | .bwPutue w _ | .bwPutse w _ | .bwAlign w _
  | .bwTrail w | .bwSkip w _ | .bwGetbits w | .bwGetdata w | .bwGetwptr w | .nalStart w _ _ | .nalEpcopy w _ _
  | .nalFiller w _ _ _ _ => some w
  | _ => none

/-- The fault causes a command may raise (the "raised by" column of 60_exceptions.md R401). -/
def mayRaise : Instr → List FaultCause
  | .nop => []
  | .regRd _ => [.regAccess]
  | .regWr _ _ => [.regAccess, .operandRange]
  | .bwInit _ _ _ => [.busError]
  | .bwPutbits _ _ _ | .bwPutu _ _ _ | .bwPuts _ _ _ | .bwPutue _ _ | .bwPutse _ _ => [.operandRange, .notInitialised]
  | .bwPutbit _ _ | .bwAlign _ _ | .bwTrail _ | .bwSkip _ _ | .bwGetbits _ | .bwGetdata _ | .bwGetwptr _ =>
    [.notInitialised]
  | .nalMkhdr _ _ _ => [.unsupported, .operandRange]
  | .nalStart _ _ _ | .nalFiller _ _ _ _ _ => [.operandRange, .notInitialised]
  | .nalEpcopy _ _ _ => [.notInitialised, .busError]
  | .secAttach _ _ => [.busError]
  | .secAdd _ _ _ => [.operandRange, .notInitialised, .sectionFull, .sectionRange]
  | .secPicture _ => [.notInitialised, .unsupported, .busError, .operandRange, .sectionFull, .sectionRange]
  | .secAddsei _ _ _ _ => [.notInitialised, .unsupported, .busError]
  | .roiInit _ _ _ _ => [.operandRange]
  | .roiAdd _ _ _ _ _ => [.notInitialised, .roiFull]
  | .roiClear | .roiDestroy => [.notInitialised]
  | .roiFill _ _ _ | .qpFlat _ _ _ _ | .qpLoad _ _ _ _ _ => [.operandRange, .notInitialised, .busError]

/-- One put or one skip, as the command rules string them together. -/
inductive StreamOp where
  | put (n v : Nat)
  | skip (n : Nat)
  deriving DecidableEq, Repr

/-- How many bits an operation counts. -/
def StreamOp.size : StreamOp → Nat
  | .put n _ => n
  | .skip n => n

/-- The operation as the block performs it (40_bitwriter.md R153, R162). -/
def StreamOp.run : StreamOp → Stream → Stream
  | .put n v => putBits n v
  | .skip n => skipBits n

/-- The operations in order. -/
def runOps (ops : List StreamOp) (x : Stream) : Stream := ops.foldl (fun y o => o.run y) x

/-- What all the operations count together. -/
def opsSize (ops : List StreamOp) : Nat := (ops.map StreamOp.size).sum

/-- emit8 of each byte, as operations (00_scope.md R11). -/
def emitOps (bs : List Byte) : List StreamOp := bs.map (fun b => .put 8 b.toNat)

/-- What Skip(x, n) leaves (40_bitwriter.md R162): BITCNT counts under the capacity rule of a put, and no byte changes. -/
structure SkipLands (n : Nat) (x y : Stream) : Prop where
  base     : y.1.base = x.1.base
  capacity : y.1.maxBits = x.1.maxBits
  counted  : y.1.bitCnt = x.1.bitCnt + n
  flagged  : y.1.ovf = true ↔ x.1.ovf = true ∨ x.1.maxBits < x.1.bitCnt + n
  kept     : y.2 = x.2

/-- What one operation leaves. -/
def OpLands : StreamOp → Stream → Stream → Prop
  | .put n v, x, y => PutLands n v x y
  | .skip n, x, y => SkipLands n x y

/-- What operations in order leave. -/
def OpsLand : List StreamOp → Stream → Stream → Prop
  | [], x, y => y = x
  | o :: rest, x, y => ∃ z, OpLands o x z ∧ OpsLand rest z y

/-- BITCNT before the first of the operations that is rejected (41_nal.md R212 firstRej). -/
def firstRejected : List StreamOp → BitWriter → Option Nat
  | [], _ => none
  | o :: rest, wr =>
    if wr.ovf = true ∨ wr.maxBits < wr.bitCnt + o.size then some wr.bitCnt
    else firstRejected rest { wr with bitCnt := wr.bitCnt + o.size }

/-- The operations of Filler (41_nal.md R212, R213) on a writer, for `head` = SC ++ hb: the header bytes, the fill in its two
forms, and the final 80. Subtraction of naturals stops at 0, as the rule's max(0, ·) do. -/
def fillerOps (head : List Byte) (budget : Nat) (df : Bool) (wr : BitWriter) : List StreamOp :=
  let space := (wr.maxBits - (wr.bitCnt + 8 * head.length)) / 8
  let fill := min (budget - head.length) space - 1
  emitOps head ++
    (if df then (if 1 ≤ fill then [.put 8 0xFF, .skip (8 * (fill - 1))] else [])
     else emitOps (List.replicate fill 0xFF#8)) ++
    [.put 8 0x80]

/-- What a command that runs operations on W[w] changes: BITCNT and OVF of W[w], memory and CMD_SEQ, with RES as given, and no
other field of the state; the operations say what the writer and memory become. -/
structure WriterRuns (ops : List StreamOp) (w : WriterId) (res : Word) (s t : State) : Prop where
  frame : t = { s.setWriter w { s.writer w with bitCnt := (t.writer w).bitCnt, ovf := (t.writer w).ovf } with
                mem := t.mem, res := res, cmdSeq := s.cmdSeq + 1#32 }
  lands : OpsLand ops (s.stream w) (t.stream w)

/-- A valid writer that a run can reach, over canonical memory. -/
structure WriterReady (s : State) (w : WriterId) : Prop where
  memory : s.mem.wf = true
  valid  : (s.writer w).valid = true
  writer : WriterOk s.memMap (s.writer w)

/-- The checks of SEC_PICTURE before its plan (42_sections.md R254, 30_encoding.md R119). -/
structure PictureReady (s : State) (rec : Nat) : Prop where
  bound    : s.sbValid = true
  codec    : s.cfgCodec ≠ .other
  header   : Admitted s.memMap rec 28
  count    : (readU32 s.mem (rec + 24)).toNat ≤ s.params.maxParts.toNat
  parts    : Admitted s.memMap (rec + 28) (8 * (readU32 s.mem (rec + 24)).toNat)
  reserved : (readU32 s.mem rec).toNat < 2 ^ 13
  stype    : (readU32 s.mem rec).toNat / 2 ^ 8 % 4 ≠ 3
  tid      : (readU32 s.mem rec).toNat / 2 ^ 10 % 8 ≠ 7

/-- Whether the plan of a record's picture passes CheckPlan (42_sections.md R251, R268). -/
structure PictureFits (s : State) (r : PicRecord) : Prop where
  room : s.sections.length + (picturePlan s r).length ≤ s.params.maxSections.toNat
  fits : PlanFits s.sbCap.toNat (tableSpans s.sections) (plannedSpans (picturePlan s r))

/-- The ROI context a QP command needs, over canonical memory, with its range admitted (43_roi_qp.md R327). -/
structure QpReady (s : State) (qpn bpl : BitVec 8) (dst : Word) : Prop where
  memory : s.mem.wf = true
  roi    : RoiOk s
  valid  : s.roi.valid = true
  layout : 1 ≤ qpn.toNat ∧ qpn.toNat ≤ bpl.toNat
  range  : Admitted s.memMap dst.toNat (s.roi.lcuW.toNat * s.roi.lcuH.toNat * bpl.toNat)

/-- The address of byte k of a cell's group (43_roi_qp.md R327). -/
def cellByte (s : State) (bpl : BitVec 8) (dst : Word) (x y k : Nat) : Nat :=
  dst.toNat + (y * s.roi.lcuW.toNat + x) * bpl.toNat + k

/-- What a command over the QP buffer changes: memory, RES and CMD_SEQ, and no other field of the state; the first `qpn` bytes
of every cell's group hold `value`, and no other byte of memory changes (43_roi_qp.md R327). -/
structure QpWrites (qpn bpl : BitVec 8) (dst : Word) (value : Nat → Nat → Nat → Byte) (s t : State) : Prop where
  frame : t = { s with mem := t.mem, res := 0#32, cmdSeq := s.cmdSeq + 1#32 }
  cells : ∀ x y k, x < s.roi.lcuW.toNat → y < s.roi.lcuH.toNat → k < qpn.toNat →
    readByte t.mem (cellByte s bpl dst x y k) = value x y k
  kept  : ∀ a, (∀ x y k, x < s.roi.lcuW.toNat → y < s.roi.lcuH.toNat → k < qpn.toNat → a ≠ cellByte s bpl dst x y k) →
    readByte t.mem a = readByte s.mem a

/-- Whether a cell lies in a node's rectangle (43_roi_qp.md R329). -/
abbrev nodeCovers (n : RoiNode) (x y : Nat) : Prop :=
  n.x0.toNat ≤ x ∧ x < n.x0.toNat + n.w.toNat ∧ n.y0.toNat ≤ y ∧ y < n.y0.toNat + n.h.toNat

/-- Whether a cell lies in the rectangle of a node of nonzero size or within one cell of it: all that drawing and smoothing it
can touch (R329, R331). -/
abbrev nodeTouches (n : RoiNode) (x y : Nat) : Prop :=
  n.w ≠ 0#32 ∧ n.h ≠ 0#32 ∧ n.x0.toNat ≤ x + 1 ∧ x < n.x0.toNat + n.w.toNat + 1 ∧ n.y0.toNat ≤ y + 1 ∧
    y < n.y0.toNat + n.h.toNat + 1

/-- A cell after one node is drawn and smoothed, from the cell before (R329 to R331): drawing wins inside the rectangle, and
around it every cell is smoothed once. -/
def cellAfterNode (p : Params) (codec : Codec) (x y : Nat) (old : Byte) (n : RoiNode) : Byte :=
  if nodeCovers n x y then n.code
  else if nodeTouches n x y ∧ n.code ≠ p.sentinel then smoothValue p codec old n.code
  else old

end Sys2Proof.Machine
end

