-- ==== Sys2Proof/Certificates/Slice0/Obligations.lean ====
section
/-! DEFINITION. The statements for the provers. Each docstring names the rules of spec/ it formalises; a state whose form the
spec does not force is named by its log entry. -/

open Sys2Proof Sys2Proof.Machine

/-! ### Command words -/

/-- R110 to R117: the decoder reads back the words the encoder writes, whatever follows them. -/
def Obligations.DecodeEncodeRoundTrip : Prop :=
  ∀ (i : Instr) (rest : List Word), decode (encode i ++ rest) = .command i rest

/-- R111, R114: the words of a decoded command are its encoding; no bit of a header or an argument word is dropped. -/
def Obligations.DecodedWordsAreTheEncoding : Prop :=
  ∀ (ws rest : List Word) (i : Instr), decode ws = .command i rest → ws = encode i ++ rest

/-- R122: the worked encodings, and the header with a reserved bit set. -/
def Obligations.WorkedEncodingsDecode : Prop :=
  decode [0x11010005#32, 0x00000013#32] = .command (.bwPutbits .w1 5#6 0x13#32) [] ∧
    decode [0x21034001#32] = .command (.nalStart .w1 .two 0x4001#16) [] ∧
    decode [0x20000021#32] = .command (.nalMkhdr 33#6 0#6 0#3) [] ∧
    decode [0x44000101#32, 0x00009000#32] = .command (.roiFill 1#8 1#8 0x9000#32) [] ∧
    ∀ (s : State) (rest : List Word), s.halted = false → s.port = 0x11020005#32 :: rest →
      step s = .next (faultEntry 0x11020005#32 .illegalCommand 0 { s with port := rest })

/-- R114, R115, R403: a header whose OPC is not in the map, or with a fixed bit that its row does not have, raises
IllegalCommand and consumes only the header word. -/
def Obligations.IllegalHeaderRaisesIllegalCommand : Prop :=
  ∀ (s : State) (h : Word) (rest : List Word), s.halted = false → s.port = h :: rest →
    ((0x03 ≤ h.toNat / 2 ^ 24 ∧ h.toNat / 2 ^ 24 ≤ 0x0F) ∨ (0x1D ≤ h.toNat / 2 ^ 24 ∧ h.toNat / 2 ^ 24 ≤ 0x1F) ∨
      (0x24 ≤ h.toNat / 2 ^ 24 ∧ h.toNat / 2 ^ 24 ≤ 0x2F) ∨ (0x34 ≤ h.toNat / 2 ^ 24 ∧ h.toNat / 2 ^ 24 ≤ 0x3F) ∨
      0x47 ≤ h.toNat / 2 ^ 24 ∨ ∃ op, headerOpc h = opcodeByte op ∧ h &&& opcodeMask op ≠ (opcodeByte op).setWidth 32 <<< 24) →
    step s = .next (faultEntry h .illegalCommand 0 { s with port := rest })

/-- R91, R116, R414, R415: a block with no header word, or that is owed argument words, keeps its state. That such a block
still answers a step, with the same state, is the model's choice (log entry 8). -/
def Obligations.IdleAndOwedBlockHolds : Prop :=
  ∀ s : State, s.halted = false →
    (s.port = [] → step s = .next s) ∧
      ∀ (h : Word) (args : List Word) (op : Opcode), s.port = h :: args →
        h &&& opcodeMask op = (opcodeByte op).setWidth 32 <<< 24 → args.length < argCount op → step s = .next s

/-! ### The step -/

/-- R85, R116: a command that has all its words is taken off the port and executed. -/
def Obligations.StepRunsDecodedCommand : Prop :=
  ∀ (s : State) (i : Instr) (rest : List Word), s.halted = false → decode s.port = .command i rest →
    step s = exec i { s with port := rest }

/-- R404: a halted block discards the next word, whatever it is, without any other effect. -/
def Obligations.HaltedBlockDiscardsWords : Prop :=
  ∀ s : State, s.halted = true →
    (∀ (h : Word) (rest : List Word), s.port = h :: rest → step s = .next { s with port := rest }) ∧
      (s.port = [] → step s = .next s) ∧ ∀ n : BitVec 16, readPort { s with port := s.port.tail } n = readPort s n

/-- R42, R86, R400, R403: a command completes, counted by CMD_SEQ and with the fault registers, HALTED, the words that follow
and the parameters kept, or it faults and leaves the state of before with the fault entry, whole. -/
def Obligations.CommandCompletesOrFaultsWhole : Prop :=
  ∀ (i : Instr) (s : State), ∃ t, exec i s = .next t ∧
    ((t.cmdSeq = s.cmdSeq + 1#32 ∧ t.halted = s.halted ∧ t.faultCause = s.faultCause ∧ t.faultInfo = s.faultInfo ∧
        t.faultSeq = s.faultSeq ∧ t.faultArg = s.faultArg ∧ t.port = s.port ∧ t.platform = s.platform) ∨
      ∃ c b, c ≠ .none ∧ c ≠ .illegalCommand ∧
        t = { s with
          faultCause := c, faultInfo := headerWord i, faultSeq := s.cmdSeq, halted := true,
          faultArg := if c = .busError then BitVec.ofNat 32 b else 0#32 })

/-- R401: a command raises only the causes whose row names it. -/
def Obligations.FaultCausesPerCommand : Prop :=
  ∀ (i : Instr) (s t : State), s.halted = false → exec i s = .next t → t.halted = true → t.faultCause ∈ mayRaise i

/-- R402, and the operand checks of the command rules: an operand out of range raises OperandRange in every state, whatever
else the state would raise. -/
def Obligations.OperandRangeFaults : Prop :=
  ∀ s : State,
    (∀ w n v, 32 < n.toNat ∨ 2 ^ n.toNat ≤ v.toNat →
      exec (.bwPutbits w n v) s = raise (.bwPutbits w n v) .operandRange s ∧
        exec (.bwPutu w n v) s = raise (.bwPutu w n v) .operandRange s) ∧
    (∀ w n v, 32 < n.toNat ∨ (n.toNat = 0 ∧ v.toInt ≠ 0) ∨
        (0 < n.toNat ∧ (v.toInt < -2 ^ (n.toNat - 1) ∨ 2 ^ (n.toNat - 1) ≤ v.toInt)) →
      exec (.bwPuts w n v) s = raise (.bwPuts w n v) .operandRange s) ∧
    (∀ w, exec (.bwPutue w 0xFFFFFFFF#32) s = raise (.bwPutue w 0xFFFFFFFF#32) .operandRange s) ∧
    (∀ w, exec (.bwPutse w 0x80000000#32) s = raise (.bwPutse w 0x80000000#32) .operandRange s) ∧
    (∀ w hdr, 256 ≤ hdr.toNat →
      exec (.nalStart w .one hdr) s = raise (.nalStart w .one hdr) .operandRange s ∧
        ∀ df budget, exec (.nalFiller w .one hdr df budget) s = raise (.nalFiller w .one hdr df budget) .operandRange s) ∧
    (∀ o l f, 64 ≤ f.toNat → exec (.secAdd o l f) s = raise (.secAdd o l f) .operandRange s) ∧
    (∀ m pw ph q, pw = 0#32 ∨ ph = 0#32 →
      exec (.roiInit m pw ph q) s = raise (.roiInit m pw ph q) .operandRange s) ∧
    (∀ qpn bpl dst, qpn.toNat = 0 ∨ bpl.toNat < qpn.toNat →
      exec (.roiFill qpn bpl dst) s = raise (.roiFill qpn bpl dst) .operandRange s ∧
        (∀ v, exec (.qpFlat qpn bpl dst v) s = raise (.qpFlat qpn bpl dst v) .operandRange s) ∧
        ∀ src n, exec (.qpLoad qpn bpl dst src n) s = raise (.qpLoad qpn bpl dst src n) .operandRange s)

/-! ### Reset and invariants -/

/-- R441 to R443: every register as the register read port shows it after reset, the writers' whole BITCNT, and what reset
keeps. R440: power-on and a host-asserted reset have the same effect; the last clause says so of the power-on state. It touches
the model's choice that a host-asserted reset discards every waiting word (log entry 6), of which that state has none. -/
def Obligations.ResetRegisterValues : Prop :=
  ∀ s : State,
    (∀ n : BitVec 16, readPort (hostReset s) n =
      if n = 0x011#16 then 4#32 else if n = 0x015#16 then 1#32 else if n = 0x016#16 then 2048#32
      else if 0x060 ≤ n.toNat ∧ n.toNat ≤ 0x066 then readPort s n else 0#32) ∧
    (hostReset s).w0.bitCnt = 0 ∧ (hostReset s).w1.bitCnt = 0 ∧ (hostReset s).sections = [] ∧ (hostReset s).nodes = [] ∧
    (hostReset s).mem = s.mem ∧ (hostReset s).platform = s.platform ∧ hostReset State.reset = State.reset

/-- The invariants hold right after power-on, and each move of the host keeps them: a reset (R440), words delivered to the
command port in order (R91), a byte of memory written between commands (R445). Delivery touches only the waiting words, and a
write only its byte. That no byte of memory is listed at power-on is the model's choice (log entry 3), as is the port held as a
list of words (log entry 4). -/
def Obligations.ReachableAfterReset : Prop :=
  Reachable State.reset ∧
    ∀ s, Reachable s →
      Reachable (hostReset s) ∧
      (∀ ws, Reachable (deliver s ws) ∧ deliver s ws = { s with port := s.port ++ ws }) ∧
      ∀ (a : Nat) (b : Byte),
        Reachable (hostWrite s a b) ∧ hostWrite s a b = { s with mem := (hostWrite s a b).mem } ∧
          (∀ c, c ≠ a → readByte (hostWrite s a b).mem c = readByte s.mem c) ∧
          (a < addressSpace → readByte (hostWrite s a b).mem a = b)

/-- The memory keeps its canonical form (the model's own form of memory, R80). -/
def Obligations.StepKeepsMemoryCanonical : Prop :=
  ∀ s t : State, s.mem.wf = true → step s = .next t → t.mem.wf = true

/-- R44, R151, R153: every step keeps each writer unset or over an admitted range, with BITCNT within MAXBITS while OVF is
clear. -/
def Obligations.StepKeepsWritersOk : Prop :=
  ∀ s t : State, WritersOk s → step s = .next t → WritersOk t

/-- R250, R38, R51: every step keeps the stream buffer unbound and empty or bound to an admitted range, CFG_NUM_LAYERS and
LAST_TID legal, and the parameters within their bounds. -/
def Obligations.StepKeepsBufferAndConfigOk : Prop :=
  ∀ s t : State, StreamBufferOk s → ConfigOk s → step s = .next t → StreamBufferOk t ∧ ConfigOk t

/-- R278 items 1 and 3, R48: every step keeps the sections of nonzero length pairwise disjoint, all of them inside the buffer,
no more than MAX_SECTIONS, with no flag above bit 5. -/
def Obligations.StepKeepsSectionTableOk : Prop :=
  ∀ s t : State, SectionTableOk s → step s = .next t → SectionTableOk t

/-- R52, R53, R321, R322, R324: every step keeps the ROI context and its nodes: the grid of the captured codec, every node
inside it with a stored code, at most MAX_ROI nodes, and in quality order a list of non-increasing DQP. -/
def Obligations.StepKeepsRoiOk : Prop :=
  ∀ s t : State, RoiOk s → step s = .next t → RoiOk t

/-- R41, R403, R404: the fault registers are 0 until the first fault; a halted block has a cause, and FAULT_SEQ is CMD_SEQ. -/
def Obligations.StepKeepsFaultRegsOk : Prop :=
  ∀ s t : State, FaultRegsOk s → step s = .next t → FaultRegsOk t

/-- R94: a command writes memory only in its own range, and a step that executes no command writes none. -/
def Obligations.StepWritesOnlyItsRange : Prop :=
  ∀ s t : State, RoiOk s → step s = .next t →
    (∀ i rest, s.halted = false → decode s.port = .command i rest →
      SameOutside s.mem t.mem (writeRange s i).1 (writeRange s i).2) ∧
    ((s.halted = true ∨ ∀ i rest, decode s.port ≠ .command i rest) → t.mem = s.mem)

/-- R84, R86, R153, R269: no step changes a byte that MEM_OK excludes. -/
def Obligations.StepChangesOnlyAdmittedBytes : Prop :=
  ∀ (s t : State) (a : Nat), Reachable s → step s = .next t → readByte t.mem a ≠ readByte s.mem a →
    a < addressSpace ∧ memOk s.memMap a = true

/-- R56, R153: OVF stays set until BW_INIT on the same context; meanwhile BITCNT never falls, and a command that names the
writer changes no byte of memory. -/
def Obligations.OverflowStickyUntilBwInit : Prop :=
  ∀ (s t : State) (w : WriterId), (s.writer w).ovf = true →
    (step s = .next t → (∀ b m rest, decode s.port ≠ .command (.bwInit w b m) rest) →
      (t.writer w).ovf = true ∧ (s.writer w).bitCnt ≤ (t.writer w).bitCnt) ∧
    ∀ i, namedWriter i = some w → exec i s = .next t → t.mem = s.mem

/-! ### Ranges and stream operations -/

/-- R166: any sequence of puts and skips on a fresh writer. -/
def Obligations.PutSkipSequences : Prop :=
  ∀ (ops : List StreamOp) (x : Stream), x.2.wf = true → x.1.bitCnt = 0 → x.1.ovf = false →
    (x.1.maxBits < opsSize ops → (runOps ops x).1.ovf = true) ∧
    (∀ a, x.1.base + capacityBytes x.1.maxBits ≤ a → readByte (runOps ops x).2 a = readByte x.2 a) ∧
    (∀ k, x.1.maxBits ≤ k → readStreamBit (runOps ops x).2 x.1.base k = readStreamBit x.2 x.1.base k) ∧
    (runOps ops x).1.bitCnt = opsSize ops

/-- R84: a range is admitted when it stays below 2^32 and MEM_OK holds of every byte; otherwise BusError records the lowest
excluded byte, or the first address of a range that only passes 2^32. -/
def Obligations.RangeAdmission : Prop :=
  ∀ (rs : List Region) (a n : Nat),
    (admitFail rs a n = none ↔ Admitted rs a n) ∧ ∀ b, admitFail rs a n = some b ↔ LowestFailing rs a n b

/-- R84, R401: the commands that read or write a range given by their operands raise BusError with the lowest failing byte when
it is not admitted, after their operand and state checks. -/
def Obligations.BusErrorNamesLowestByte : Prop :=
  ∀ (s : State) (b : Nat),
    (∀ w src n, (s.writer w).valid = true → LowestFailing s.memMap src.toNat n.toNat b →
      exec (.nalEpcopy w src n) s = raiseBus (.nalEpcopy w src n) b s) ∧
    (∀ sfx pt src n, s.sbValid = true → s.cfgCodec ≠ .other → LowestFailing s.memMap src.toNat n.toNat b →
      exec (.secAddsei sfx pt src n) s = raiseBus (.secAddsei sfx pt src n) b s) ∧
    ∀ qpn bpl dst, 1 ≤ qpn.toNat → qpn.toNat ≤ bpl.toNat → s.roi.valid = true →
      (LowestFailing s.memMap dst.toNat (s.roi.lcuW.toNat * s.roi.lcuH.toNat * bpl.toNat) b →
        exec (.roiFill qpn bpl dst) s = raiseBus (.roiFill qpn bpl dst) b s ∧
          ∀ v, exec (.qpFlat qpn bpl dst v) s = raiseBus (.qpFlat qpn bpl dst v) b s) ∧
      ∀ src n, s.roi.lcuW.toNat * s.roi.lcuH.toNat * qpn.toNat ≤ n.toNat →
        (LowestFailing s.memMap src.toNat (s.roi.lcuW.toNat * s.roi.lcuH.toNat * qpn.toNat) b →
          exec (.qpLoad qpn bpl dst src n) s = raiseBus (.qpLoad qpn bpl dst src n) b s) ∧
        (Admitted s.memMap src.toNat (s.roi.lcuW.toNat * s.roi.lcuH.toNat * qpn.toNat) →
          LowestFailing s.memMap dst.toNat (s.roi.lcuW.toNat * s.roi.lcuH.toNat * bpl.toNat) b →
          exec (.qpLoad qpn bpl dst src n) s = raiseBus (.qpLoad qpn bpl dst src n) b s)

/-- R81, R153, R162: what puts and skips leave, bit by bit; and whole bytes emitted at a byte boundary with room for them read
back from memory, with every other byte kept. -/
def Obligations.StreamOperationsLand : Prop :=
  ∀ x : Stream, StreamOk x →
    (∀ ops, OpsLand ops x (runOps ops x)) ∧
    ∀ bs, AlignedRoom x.1 bs.length →
      readBytes (runOps (emitOps bs) x).2 (nextByte x.1) bs.length = bs ∧
        SameOutside x.2 (runOps (emitOps bs) x).2 (nextByte x.1) bs.length ∧
        (runOps (emitOps bs) x).1 = { x.1 with bitCnt := x.1.bitCnt + 8 * bs.length }

/-! ### Control commands and the register map -/

/-- R55: the numbers that name a register, and the ones REG_WR may write. R40, R41, R43, R45 to R47, R50 to R54: what each
number reads as, halted or not; entry i of the section table stands at 0x400 + 4i and node i at 0x800 + 8i, and an entry past
the end reads 0. R91: through the read port an undefined number reads 0. -/
def Obligations.RegisterMapNumbers : Prop :=
  (∀ n : BitVec 16,
    ((regOfNat n.toNat).isSome = true ↔
      n.toNat ≤ 0x006 ∨ (0x010 ≤ n.toNat ∧ n.toNat ≤ 0x016) ∨ (0x020 ≤ n.toNat ∧ n.toNat ≤ 0x024) ∨
        (0x028 ≤ n.toNat ∧ n.toNat ≤ 0x02C) ∨ (0x030 ≤ n.toNat ∧ n.toNat ≤ 0x035) ∨ (0x040 ≤ n.toNat ∧ n.toNat ≤ 0x042) ∨
        (0x050 ≤ n.toNat ∧ n.toNat ≤ 0x059) ∨ (0x060 ≤ n.toNat ∧ n.toNat ≤ 0x066) ∨
        (0x400 ≤ n.toNat ∧ n.toNat ≤ 0xFFF)) ∧
    ((regOfNat n.toNat).any regWritable = true ↔ n.toNat = 0x002 ∨ (0x010 ≤ n.toNat ∧ n.toNat ≤ 0x016))) ∧
  ∀ s : State,
    let bit := fun (b : Bool) => if b then 1#32 else 0#32
    let codec := fun (c : Codec) => match c with | .avc => 0#32 | .hevc => 1#32 | .other => 2#32
    let writerAt := fun (n : BitVec 16) (x : HostWriter) =>
      readPort s n = bit x.valid ∧ readPort s (n + 1#16) = x.base ∧ readPort s (n + 2#16) = x.maxBits ∧
        readPort s (n + 3#16) = BitVec.ofNat 32 x.bitCnt ∧ readPort s (n + 4#16) = bit x.ovf
    (readPort s 0x000#16 = s.cmdSeq ∧ readPort s 0x001#16 = s.res) ∧
    ((readPort s 0x002#16).getLsbD 0 = s.fillerClipped ∧ (readPort s 0x002#16).getLsbD 1 = s.cfgDropped ∧
      (readPort s 0x002#16).getLsbD 31 = s.halted ∧ ∀ k, 2 ≤ k → k ≤ 30 → (readPort s 0x002#16).getLsbD k = false) ∧
    (readPort s 0x003#16 = (match s.faultCause with
        | .none => 0#32 | .illegalCommand => 1#32 | .operandRange => 2#32 | .notInitialised => 3#32 | .unsupported => 4#32
        | .roiFull => 5#32 | .sectionFull => 6#32 | .sectionRange => 7#32 | .busError => 8#32 | .regAccess => 9#32) ∧
      readPort s 0x004#16 = s.faultInfo ∧ readPort s 0x005#16 = s.faultSeq ∧ readPort s 0x006#16 = s.faultArg) ∧
    (readPort s 0x010#16 = codec s.cfgCodec ∧
      readPort s 0x011#16 = (match s.cfgScLen with | .three => 3#32 | .four => 4#32) ∧
      readPort s 0x012#16 = bit s.cfgAud ∧
      readPort s 0x013#16 = (match s.cfgFiller with | .off => 0#32 | .fill => 1#32 | .dontFill => 2#32) ∧
      readPort s 0x014#16 = s.cfgSeiMask.setWidth 32 ∧ readPort s 0x015#16 = s.cfgNumLayers ∧
      readPort s 0x016#16 = s.cfgHdrReserve) ∧
    (writerAt 0x020#16 s.w0 ∧ writerAt 0x028#16 s.w1) ∧
    (readPort s 0x030#16 = bit s.sbValid ∧ readPort s 0x031#16 = s.sbBase ∧ readPort s 0x032#16 = s.sbCap ∧
      readPort s 0x033#16 = s.sbHdrBase ∧ readPort s 0x034#16 = s.sbHdrCur ∧
      readPort s 0x035#16 = BitVec.ofNat 32 s.sections.length) ∧
    (readPort s 0x040#16 = s.cpbDelay ∧ readPort s 0x041#16 = s.cpbInitDelay ∧
      readPort s 0x042#16 = s.lastTid.setWidth 32) ∧
    (readPort s 0x050#16 = bit s.roi.valid ∧ readPort s 0x051#16 = s.roi.picW ∧ readPort s 0x052#16 = s.roi.picH ∧
      readPort s 0x053#16 = s.roi.log2Lcu ∧ readPort s 0x054#16 = s.roi.lcuW ∧ readPort s 0x055#16 = s.roi.lcuH ∧
      readPort s 0x056#16 = s.roi.bg.setWidth 32 ∧
      readPort s 0x057#16 = (match s.roi.mode with | .incoming => 0#32 | .quality => 1#32) ∧
      readPort s 0x058#16 = BitVec.ofNat 32 s.nodes.length ∧ readPort s 0x059#16 = codec s.roi.codec) ∧
    (readPort s 0x060#16 = s.params.tmpCap ∧ readPort s 0x061#16 = s.params.maxSections ∧
      readPort s 0x062#16 = s.params.maxParts ∧ readPort s 0x063#16 = s.params.maxRoi ∧
      readPort s 0x064#16 = s.params.maxLayers ∧ readPort s 0x065#16 = s.params.sentinel.setWidth 32 ∧
      readPort s 0x066#16 = s.params.fmv0Mask.setWidth 32) ∧
    (∀ i, i < 256 →
      let reg := fun (k : Nat) => readPort s (BitVec.ofNat 16 (0x400 + 4 * i + k))
      (∀ x, s.sections[i]? = some x → reg 0 = x.offset ∧ reg 1 = x.length ∧ reg 2 = x.flags ∧ reg 3 = 0#32) ∧
        (s.sections.length ≤ i → ∀ k, k < 4 → reg k = 0#32)) ∧
    (∀ i, i < 256 →
      let reg := fun (k : Nat) => readPort s (BitVec.ofNat 16 (0x800 + 8 * i + k))
      (∀ x, s.nodes[i]? = some x → reg 0 = x.x0 ∧ reg 1 = x.y0 ∧ reg 2 = x.w ∧ reg 3 = x.h ∧
          reg 4 = x.code.setWidth 32 ∧ ∀ k, 5 ≤ k → k < 8 → reg k = 0#32) ∧
        (s.nodes.length ≤ i → ∀ k, k < 8 → reg k = 0#32)) ∧
    ∀ n : BitVec 16, (regOfNat n.toNat).isSome = false → readPort s n = 0#32

/-- R380, R381: NOP changes only CMD_SEQ; REG_RD copies the register into RES as it stood before the command, and nothing else
changes but CMD_SEQ; a number that names no register raises RegAccess. -/
def Obligations.NopAndRegRdComplete : Prop :=
  ∀ s : State, exec .nop s = .next { s with cmdSeq := s.cmdSeq + 1#32 } ∧
    ∀ reg : BitVec 16,
      ((regOfNat reg.toNat).isSome = true →
        exec (.regRd reg) s = .next { s with res := readPort s reg, cmdSeq := s.cmdSeq + 1#32 }) ∧
      ((regOfNat reg.toNat).isSome = false → exec (.regRd reg) s = raise (.regRd reg) .regAccess s)

/-- R382: each writable register takes its legal values and no other, STATUS bits 1:0 are cleared by ones, an illegal value
raises OperandRange, and any other number raises RegAccess. -/
def Obligations.RegWrWrites : Prop :=
  ∀ (s : State) (v : Word),
    (v.toNat < 4 → exec (.regWr 0x002#16 v) s = .next { s with
      fillerClipped := s.fillerClipped && !v.getLsbD 0, cfgDropped := s.cfgDropped && !v.getLsbD 1,
      cmdSeq := s.cmdSeq + 1#32 }) ∧
    (v.toNat ≤ 2 → ∃ c, codecWord c = v ∧
      exec (.regWr 0x010#16 v) s = .next { s with cfgCodec := c, cmdSeq := s.cmdSeq + 1#32 }) ∧
    (v.toNat = 3 ∨ v.toNat = 4 → ∃ c, scLenWord c = v ∧
      exec (.regWr 0x011#16 v) s = .next { s with cfgScLen := c, cmdSeq := s.cmdSeq + 1#32 }) ∧
    (v.toNat ≤ 1 → ∃ c, boolWord c = v ∧
      exec (.regWr 0x012#16 v) s = .next { s with cfgAud := c, cmdSeq := s.cmdSeq + 1#32 }) ∧
    (v.toNat ≤ 2 → ∃ c, fillerWord c = v ∧
      exec (.regWr 0x013#16 v) s = .next { s with cfgFiller := c, cmdSeq := s.cmdSeq + 1#32 }) ∧
    (v.toNat < 512 → ∃ m : BitVec 9, m.toNat = v.toNat ∧
      exec (.regWr 0x014#16 v) s = .next { s with cfgSeiMask := m, cmdSeq := s.cmdSeq + 1#32 }) ∧
    (1 ≤ v.toNat → v.toNat ≤ s.params.maxLayers.toNat →
      exec (.regWr 0x015#16 v) s = .next { s with cfgNumLayers := v, cmdSeq := s.cmdSeq + 1#32 }) ∧
    exec (.regWr 0x016#16 v) s = .next { s with cfgHdrReserve := v, cmdSeq := s.cmdSeq + 1#32 } ∧
    (∀ reg : BitVec 16,
      (reg = 0x002#16 ∧ 4 ≤ v.toNat) ∨ ((reg = 0x010#16 ∨ reg = 0x013#16) ∧ 2 < v.toNat) ∨
        (reg = 0x011#16 ∧ v.toNat ≠ 3 ∧ v.toNat ≠ 4) ∨ (reg = 0x012#16 ∧ 1 < v.toNat) ∨
        (reg = 0x014#16 ∧ 512 ≤ v.toNat) ∨ (reg = 0x015#16 ∧ (v.toNat = 0 ∨ s.params.maxLayers.toNat < v.toNat)) →
      exec (.regWr reg v) s = raise (.regWr reg v) .operandRange s) ∧
    ∀ reg : BitVec 16, reg ≠ 0x002#16 → (reg.toNat < 0x010 ∨ 0x016 < reg.toNat) →
      exec (.regWr reg v) s = raise (.regWr reg v) .regAccess s

/-! ### Bit-writer commands -/

/-- R151: BW_INIT sets up the context over an admitted capacity range and touches nothing else; otherwise it raises BusError. -/
def Obligations.BwInitSetsUpWriter : Prop :=
  ∀ (s : State) (w : WriterId) (base maxBits : Word),
    (Admitted s.memMap base.toNat ((maxBits.toNat + 7) / 8) →
      exec (.bwInit w base maxBits) s = .next { s.setWriter w
        { valid := true, base := base, maxBits := maxBits, bitCnt := 0, ovf := false } with cmdSeq := s.cmdSeq + 1#32 }) ∧
    ∀ b, LowestFailing s.memMap base.toNat ((maxBits.toNat + 7) / 8) b →
      exec (.bwInit w base maxBits) s = raiseBus (.bwInit w base maxBits) b s

/-- R154 to R157, R160: BW_PUTBITS, BW_PUTU, BW_PUTS, BW_PUTBIT and BW_ALIGN complete as one put each on a valid writer, and
change only what the put leaves. -/
def Obligations.SinglePutCommandsLand : Prop :=
  ∀ (s : State) (w : WriterId), WriterReady s w →
    (∀ n v, n.toNat ≤ 32 → v.toNat < 2 ^ n.toNat →
      (∃ t, exec (.bwPutbits w n v) s = .next t ∧ WriterRuns [.put n.toNat v.toNat] w s.res s t) ∧
        ∃ t, exec (.bwPutu w n v) s = .next t ∧ WriterRuns [.put n.toNat v.toNat] w s.res s t) ∧
    (∀ (n : BitVec 6) (v : Word) (u : Nat), n.toNat ≤ 32 → (n.toNat = 0 → v.toInt = 0) →
      (0 < n.toNat → -2 ^ (n.toNat - 1) ≤ v.toInt ∧ v.toInt ≤ 2 ^ (n.toNat - 1) - 1) → (u : Int) = v.toInt % 2 ^ n.toNat →
      ∃ t, exec (.bwPuts w n v) s = .next t ∧ WriterRuns [.put n.toNat u] w s.res s t) ∧
    (∀ b, ∃ t, exec (.bwPutbit w b) s = .next t ∧ WriterRuns [.put 1 b.toNat] w s.res s t) ∧
    ∀ b k, k < 8 → ((s.writer w).bitCnt + k) % 8 = 0 →
      ∃ t, exec (.bwAlign w b) s = .next t ∧ WriterRuns [.put k (if b then 2 ^ k - 1 else 0)] w s.res s t

/-- R158, R159, R161: BW_PUTUE, BW_PUTSE and BW_TRAIL complete as two puts each on a valid writer: the Exp-Golomb prefix and
suffix, and the stop bit and its padding. -/
def Obligations.TwoPutCommandsLand : Prop :=
  ∀ (s : State) (w : WriterId), WriterReady s w →
    (∀ (v : Word) (l : Nat), v ≠ 0xFFFFFFFF#32 → 2 ^ l ≤ v.toNat + 1 → v.toNat + 1 < 2 ^ (l + 1) →
      ∃ t, exec (.bwPutue w v) s = .next t ∧ WriterRuns [.put l 0, .put (l + 1) (v.toNat + 1)] w s.res s t) ∧
    (∀ (v : Word) (k l : Nat), v ≠ 0x80000000#32 → (0 < v.toInt → (k : Int) = 2 * v.toInt - 1) →
      (v.toInt ≤ 0 → (k : Int) = -2 * v.toInt) → 2 ^ l ≤ k + 1 → k + 1 < 2 ^ (l + 1) →
      ∃ t, exec (.bwPutse w v) s = .next t ∧ WriterRuns [.put l 0, .put (l + 1) (k + 1)] w s.res s t) ∧
    ∀ k, k < 8 → ((s.writer w).bitCnt + 1 + k) % 8 = 0 →
      ∃ t, exec (.bwTrail w) s = .next t ∧ WriterRuns [.put 1 1, .put k 0] w s.res s t

/-- R162 to R165: BW_SKIP counts without writing; BW_GETBITS, BW_GETDATA and BW_GETWPTR answer in RES; each raises
NotInitialised on an invalid writer. -/
def Obligations.SkipAndQueriesAnswer : Prop :=
  ∀ (s : State) (w : WriterId),
    ((s.writer w).valid = true →
      (∀ n, exec (.bwSkip w n) s = .next { s.setWriter w { s.writer w with
        bitCnt := (s.writer w).bitCnt + n.toNat
        ovf := (s.writer w).ovf || decide ((s.writer w).maxBits.toNat < (s.writer w).bitCnt + n.toNat) } with
          cmdSeq := s.cmdSeq + 1#32 }) ∧
      (∃ r : Word, r.toNat = (s.writer w).bitCnt % 2 ^ 32 ∧
        exec (.bwGetbits w) s = .next { s with res := r, cmdSeq := s.cmdSeq + 1#32 }) ∧
      exec (.bwGetdata w) s = .next { s with res := (s.writer w).base, cmdSeq := s.cmdSeq + 1#32 } ∧
      ∃ r : Word, r.toNat = ((s.writer w).base.toNat + (s.writer w).bitCnt / 8) % 2 ^ 32 ∧
        exec (.bwGetwptr w) s = .next { s with res := r, cmdSeq := s.cmdSeq + 1#32 }) ∧
    ((s.writer w).valid = false →
      (∀ n, exec (.bwSkip w n) s = raise (.bwSkip w n) .notInitialised s) ∧
      exec (.bwGetbits w) s = raise (.bwGetbits w) .notInitialised s ∧
      exec (.bwGetdata w) s = raise (.bwGetdata w) .notInitialised s ∧
      exec (.bwGetwptr w) s = raise (.bwGetwptr w) .notInitialised s)

/-- R152: every command that names a writer, BW_INIT apart, checks its operand ranges and then VALID. -/
def Obligations.WriterCommandsNeedValid : Prop :=
  ∀ (i : Instr) (w : WriterId) (s : State), namedWriter i = some w →
    (i.wellFormed = false → exec i s = raise i .operandRange s) ∧
    (i.wellFormed = true → (s.writer w).valid = false → exec i s = raise i .notInitialised s)

/-! ### NAL framing -/

/-- R201 to R203: NAL_MKHDR answers the header's length and bytes for the codec, or raises the fault its checks name. -/
def Obligations.MakeHeaderAnswers : Prop :=
  ∀ (s : State) (type rl : BitVec 6) (tid : BitVec 3),
    (s.cfgCodec = .other → exec (.nalMkhdr type rl tid) s = raise (.nalMkhdr type rl tid) .unsupported s) ∧
    (s.cfgCodec = .avc →
      (type.toNat ≤ 31 → rl.toNat ≤ 3 → tid.toNat = 0 → ∃ r : Word, r.toNat = 2 ^ 16 + rl.toNat * 2 ^ 5 + type.toNat ∧
        exec (.nalMkhdr type rl tid) s = .next { s with res := r, cmdSeq := s.cmdSeq + 1#32 }) ∧
      (31 < type.toNat ∨ 3 < rl.toNat ∨ tid.toNat ≠ 0 →
        exec (.nalMkhdr type rl tid) s = raise (.nalMkhdr type rl tid) .operandRange s)) ∧
    (s.cfgCodec = .hevc →
      (tid.toNat ≤ 6 → ∃ r : Word,
        r.toNat = 2 * 2 ^ 16 + (type.toNat * 2 + rl.toNat / 2 ^ 5) * 2 ^ 8 + rl.toNat % 2 ^ 5 * 2 ^ 3 + tid.toNat + 1 ∧
        exec (.nalMkhdr type rl tid) s = .next { s with res := r, cmdSeq := s.cmdSeq + 1#32 }) ∧
      (tid.toNat = 7 → exec (.nalMkhdr type rl tid) s = raise (.nalMkhdr type rl tid) .operandRange s))

/-- R204, R205: NAL_START emits the start code that CFG_SC_LEN selects and the header bytes, on any valid writer. -/
def Obligations.StartCodeAndHeaderEmitted : Prop :=
  ∀ (s : State) (w : WriterId) (hdr : BitVec 16) (sc : List Byte), WriterReady s w →
    (s.cfgScLen = .four → sc = [0x00#8, 0x00#8, 0x00#8, 0x01#8]) → (s.cfgScLen = .three → sc = [0x00#8, 0x00#8, 0x01#8]) →
    (hdr.toNat < 256 → ∃ t, exec (.nalStart w .one hdr) s = .next t ∧
      WriterRuns (emitOps (sc ++ [BitVec.ofNat 8 hdr.toNat])) w s.res s t) ∧
    ∃ t, exec (.nalStart w .two hdr) s = .next t ∧
      WriterRuns (emitOps (sc ++ [BitVec.ofNat 8 (hdr.toNat / 256), BitVec.ofNat 8 hdr.toNat])) w s.res s t

/-- R207: the six properties of EP; `tagged` is the output with each byte marked inserted or not. R206: a 03 is inserted only
where the last two emitted bytes are 00 00 and the next input byte, which follows it, has its top six bits zero; by item 4 it is
inserted wherever that is so. Together these fix the output. -/
def Obligations.EmulationPreventionProperties : Prop :=
  ∀ s : List Byte, ∃ tagged : List (Bool × Byte),
    emulationPrevent s = tagged.map Prod.snd ∧
    (tagged.filter (fun e => !e.1)).map Prod.snd = s ∧ (∀ e ∈ tagged, e.1 = true → e.2 = 0x03#8) ∧
    (s.length < 3 → emulationPrevent s = s) ∧
    deEmulate (emulationPrevent s) = s ∧
    (∀ k e0 e1 e2, tagged[k]? = some e0 → tagged[k + 1]? = some e1 → tagged[k + 2]? = some e2 →
      e0.2 = 0x00#8 → e1.2 = 0x00#8 →
      e2.2 ≠ 0x00#8 ∧ e2.2 ≠ 0x01#8 ∧ e2.2 ≠ 0x02#8 ∧ (e2.2 = 0x03#8 → e0.1 = false ∧ e1.1 = false ∧ e2.1 = true)) ∧
    (∀ k b, tagged[k]? = some (true, b) →
      2 ≤ k ∧ tagged[k - 2]? = some (false, 0x00#8) ∧ tagged[k - 1]? = some (false, 0x00#8) ∧
        ∃ c, tagged[k + 1]? = some (false, c) ∧ c.toNat < 4) ∧
    (1 ≤ s.length → (tagged.filter (fun e => e.1)).length ≤ (s.length - 1) / 2) ∧
    (emulationPrevent s).getLast? = s.getLast?

/-- R206, R208, R209: NAL_EPCOPY emits EP of the source bytes as they were before the command, and RES counts them. -/
def Obligations.EpcopyEmits : Prop :=
  ∀ (s : State) (w : WriterId) (src n : Word), WriterReady s w → Admitted s.memMap src.toNat n.toNat →
    ∃ t, exec (.nalEpcopy w src n) s = .next t ∧
      WriterRuns (emitOps (emulationPrevent (readBytes s.mem src.toNat n.toNat))) w
        (BitVec.ofNat 32 (emulationPrevent (readBytes s.mem src.toNat n.toNat)).length) s t

/-- R212 to R215: NAL_FILLER runs the operations of Filler on any valid writer, and RES is the count of landed bytes. -/
def Obligations.FillerRunsItsOperations : Prop :=
  ∀ (s : State) (w : WriterId) (hl : HdrLen) (hdr : BitVec 16) (df : Bool) (budget : Word),
    WriterReady s w → (hl = .one → hdr.toNat < 256) →
    let head := startCode s.cfgScLen ++ nalHeaderBytes hl hdr
    let ops := fillerOps head budget.toNat df (writerView (s.writer w))
    let last := (firstRejected ops (writerView (s.writer w))).getD ((s.writer w).bitCnt + opsSize ops)
    ∃ t, exec (.nalFiller w hl hdr df budget) s = .next t ∧
      WriterRuns ops w
        (if (s.writer w).ovf then 0#32 else BitVec.ofNat 32 ((last - (s.writer w).bitCnt) / 8)) s t

/-- R212, R213: at a byte boundary with room for its header and one byte more, NAL_FILLER's NAL unit lands whole, clipped to
the budget and to the capacity, in its two forms; every other byte keeps. -/
def Obligations.FillerBytesInMemory : Prop :=
  ∀ (s : State) (w : WriterId) (hl : HdrLen) (hdr : BitVec 16) (df : Bool) (budget : Word),
    WriterReady s w → (hl = .one → hdr.toNat < 256) →
    let head := startCode s.cfgScLen ++ nalHeaderBytes hl hdr
    let h := head.length
    let at0 := nextByte (writerView (s.writer w))
    let n := max (h + 1) (min budget.toNat (((s.writer w).maxBits.toNat - (s.writer w).bitCnt) / 8))
    AlignedRoom (writerView (s.writer w)) (h + 1) →
    ∃ t, exec (.nalFiller w hl hdr df budget) s = .next t ∧ t.res = BitVec.ofNat 32 n ∧
      (t.writer w).bitCnt = (s.writer w).bitCnt + 8 * n ∧ (t.writer w).ovf = false ∧
      SameOutside s.mem t.mem at0 n ∧
      (df = false → readBytes t.mem at0 n = head ++ List.replicate (n - h - 1) 0xFF#8 ++ [0x80#8]) ∧
      (df = true → readBytes t.mem at0 h = head ∧ readByte t.mem (at0 + (n - 1)) = 0x80#8 ∧
        (h + 1 < n → readByte t.mem (at0 + h) = 0xFF#8) ∧
        ∀ k, h + 1 ≤ k → k + 1 < n → readByte t.mem (at0 + k) = readByte s.mem (at0 + k))

/-! ### Sections -/

/-- R250: SEC_ATTACH binds an admitted buffer and empties the section table, and touches nothing else. -/
def Obligations.SecAttachBinds : Prop :=
  ∀ (s : State) (base cap : Word),
    (Admitted s.memMap base.toNat cap.toNat →
      exec (.secAttach base cap) s = .next { s with
        sbBase := base, sbCap := cap, sbValid := true, sections := [], sbHdrBase := 0#32, sbHdrCur := 0#32,
        cmdSeq := s.cmdSeq + 1#32 }) ∧
    ∀ b, LowestFailing s.memMap base.toNat cap.toNat b → exec (.secAttach base cap) s = raiseBus (.secAttach base cap) b s

/-- R251: CheckPlan raises SectionFull when the table would pass MAX_SECTIONS, else SectionRange unless every planned range
ends inside the buffer and those of nonzero length overlap nothing. -/
def Obligations.CheckPlanDecides : Prop :=
  ∀ (s : State) (plan : List Span),
    (s.params.maxSections.toNat < s.sections.length + plan.length → checkPlan s plan = some .sectionFull) ∧
    (s.sections.length + plan.length ≤ s.params.maxSections.toNat →
      (PlanFits s.sbCap.toNat (tableSpans s.sections) plan → checkPlan s plan = none) ∧
      (¬PlanFits s.sbCap.toNat (tableSpans s.sections) plan → checkPlan s plan = some .sectionRange))

/-- R252, R253: SEC_ADD appends a section that fits and answers its index; the bitstream grows by the section's bytes, and no
byte of memory changes. Otherwise it raises the fault that its checks name, in their order. -/
def Obligations.SecAddAppends : Prop :=
  ∀ (s : State) (offset length flags : Word),
    (64 ≤ flags.toNat → exec (.secAdd offset length flags) s = raise (.secAdd offset length flags) .operandRange s) ∧
    (flags.toNat < 64 → s.sbValid = false →
      exec (.secAdd offset length flags) s = raise (.secAdd offset length flags) .notInitialised s) ∧
    (flags.toNat < 64 → s.sbValid = true → s.params.maxSections.toNat ≤ s.sections.length →
      exec (.secAdd offset length flags) s = raise (.secAdd offset length flags) .sectionFull s) ∧
    (flags.toNat < 64 → s.sbValid = true → s.sections.length < s.params.maxSections.toNat →
      (s.sbCap.toNat < offset.toNat + length.toNat ∨
          (∃ x ∈ s.sections, ¬Section.Disjoint { offset := offset, length := length, flags := flags } x) →
        exec (.secAdd offset length flags) s = raise (.secAdd offset length flags) .sectionRange s) ∧
      (offset.toNat + length.toNat ≤ s.sbCap.toNat →
        (∀ x ∈ s.sections, Section.Disjoint { offset := offset, length := length, flags := flags } x) →
        ∃ t, exec (.secAdd offset length flags) s = .next t ∧
          t = { s with
            sections := s.sections ++ [{ offset := offset, length := length, flags := flags }],
            res := BitVec.ofNat 32 s.sections.length, cmdSeq := s.cmdSeq + 1#32 } ∧
          bitstream t = bitstream s ++ readBytes s.mem (s.sbBase.toNat + offset.toNat) length.toNat))

/-- R254, R402: SEC_PICTURE's checks before its plan, each with the fault it raises, in their order. A record that ends where
the address space does leaves its parts no address below 2^32: BusError is the rule's (R84, with b = 2^32), and that FAULT_ARG
then shows 0 is the model's reading of it (log entry 7). -/
def Obligations.PictureChecksInOrder : Prop :=
  ∀ (s : State) (rec : Word),
    (s.sbValid = false → exec (.secPicture rec) s = raise (.secPicture rec) .notInitialised s) ∧
    (s.sbValid = true → s.cfgCodec = .other → exec (.secPicture rec) s = raise (.secPicture rec) .unsupported s) ∧
    (s.sbValid = true → s.cfgCodec ≠ .other →
      (∀ b, LowestFailing s.memMap rec.toNat 28 b → exec (.secPicture rec) s = raiseBus (.secPicture rec) b s) ∧
      (Admitted s.memMap rec.toNat 28 →
        (s.params.maxParts.toNat < (readU32 s.mem (rec.toNat + 24)).toNat →
          exec (.secPicture rec) s = raise (.secPicture rec) .operandRange s) ∧
        ((readU32 s.mem (rec.toNat + 24)).toNat ≤ s.params.maxParts.toNat →
          (∀ b, b < addressSpace →
            LowestFailing s.memMap (rec.toNat + 28) (8 * (readU32 s.mem (rec.toNat + 24)).toNat) b →
            exec (.secPicture rec) s = raiseBus (.secPicture rec) b s) ∧
          (rec.toNat + 28 = addressSpace → 0 < (readU32 s.mem (rec.toNat + 24)).toNat →
            exec (.secPicture rec) s = raiseBus (.secPicture rec) 0 s) ∧
          (Admitted s.memMap (rec.toNat + 28) (8 * (readU32 s.mem (rec.toNat + 24)).toNat) →
            2 ^ 13 ≤ (readU32 s.mem rec.toNat).toNat ∨ (readU32 s.mem rec.toNat).toNat / 2 ^ 8 % 4 = 3 ∨
              (readU32 s.mem rec.toNat).toNat / 2 ^ 10 % 8 = 7 →
            exec (.secPicture rec) s = raise (.secPicture rec) .operandRange s))))

/-- R82, R119: the picture-status record's little-endian fields, bit for bit. -/
def Obligations.PictureRecordDecodes : Prop :=
  ∀ (m : Memory) (a : Nat),
    let field := fun o => (readByte m (a + o)).toNat + 2 ^ 8 * (readByte m (a + o + 1)).toNat +
      2 ^ 16 * (readByte m (a + o + 2)).toNat + 2 ^ 24 * (readByte m (a + o + 3)).toNat
    let r := readRecord m a
    r.first = (field 0).testBit 0 ∧ r.last = (field 0).testBit 1 ∧ r.idr = (field 0).testBit 2 ∧
    r.field = (field 0).testBit 3 ∧ r.uduPending = (field 0).testBit 4 ∧ r.ppsChanged = (field 0).testBit 5 ∧
    r.audForce = (field 0).testBit 6 ∧ r.vpsForce = (field 0).testBit 7 ∧
    (r.stype = .b ↔ field 0 / 2 ^ 8 % 4 = 0) ∧ (r.stype = .p ↔ field 0 / 2 ^ 8 % 4 = 1) ∧
    r.tid.toNat = field 0 / 2 ^ 10 % 8 ∧ r.recoveryCount.toNat = field 4 ∧ r.fillerBytes.toNat = field 8 ∧
    r.hdrBase.toNat = field 12 ∧ r.sliceCount.toNat = field 16 ∧ r.cpbInit.toNat = field 20 ∧
    r.parts.length = field 24 ∧
    ∀ i p, r.parts[i]? = some p → p.off.toNat = field (28 + 8 * i) ∧ p.size.toNat = field (32 + 8 * i)

/-- R254, R268 to R273: a picture whose record and plan pass every check completes; its sections are appended in plan order,
SYNC marks every entry on an IDR picture, and STATUS, the header window, the CPB registers, LAST_TID and RES follow. A plan
that does not pass raises SectionFull or SectionRange. -/
def Obligations.PictureCommits : Prop :=
  ∀ (s : State) (rec : Word), PictureReady s rec.toNat →
    let r := readRecord s.mem rec.toNat
    let plan := picturePlan s r
    (s.params.maxSections.toNat < s.sections.length + plan.length →
      exec (.secPicture rec) s = raise (.secPicture rec) .sectionFull s) ∧
    (s.sections.length + plan.length ≤ s.params.maxSections.toNat →
      ¬PlanFits s.sbCap.toNat (tableSpans s.sections) (plannedSpans plan) →
      exec (.secPicture rec) s = raise (.secPicture rec) .sectionRange s) ∧
    (PictureFits s r → ∃ t, exec (.secPicture rec) s = .next t ∧
      t = { s with
        mem := t.mem, sections := t.sections, fillerClipped := t.fillerClipped, cfgDropped := t.cfgDropped,
        sbHdrBase := t.sbHdrBase, sbHdrCur := t.sbHdrCur, cpbDelay := t.cpbDelay, cpbInitDelay := t.cpbInitDelay,
        lastTid := t.lastTid, res := BitVec.ofNat 32 plan.length, cmdSeq := s.cmdSeq + 1#32 } ∧
      t.sections = (s.sections ++ plan.map (fun p =>
        Section.mk (BitVec.ofNat 32 p.span.off) (BitVec.ofNat 32 p.span.len) p.flags)).map
          (fun x => { x with flags := if r.idr then x.flags ||| 0x04#32 else x.flags }) ∧
      t.fillerClipped = (s.fillerClipped || fillerShort s r (planBeforeFiller s r)) ∧
      t.cfgDropped = (s.cfgDropped || (configPlan s r).dropped) ∧
      (r.first = true → t.sbHdrBase = r.hdrBase ∧ t.sbHdrCur = BitVec.ofNat 32 (configPlan s r).cur ∧
        t.cpbDelay.toNat = ((if r.stype = .i then 0 else s.cpbDelay.toNat) + (if r.field then 1 else 2)) % 2 ^ 32 ∧
        t.cpbInitDelay = r.cpbInit ∧ t.lastTid = r.tid) ∧
      (r.first = false → t.sbHdrBase = s.sbHdrBase ∧ t.sbHdrCur = s.sbHdrCur ∧ t.cpbDelay = s.cpbDelay ∧
        t.cpbInitDelay = s.cpbInitDelay ∧ t.lastTid = s.lastTid))

/-- R256 to R263, R37, R210, R211: the configuration items of a first slice, in order, each with its header bytes, its section
flags and its RBSP; none for a later slice. `msg` is SeiMsg (R210). R93: every SEI_UDU answer begins with one fixed UUID of 16
bytes and carries the record's slice count; that it does so in whole bytes of its own is the model's reading (log entry 11). -/
def Obligations.ConfigurationItemsChosen : Prop :=
  ∀ (s : State) (r : PicRecord), ConfigOk s →
    let ask := fun kind layer => s.payload kind layer
      { record := r, cpbDelay := s.cpbDelay, cpbInitDelay := s.cpbInitDelay, codec := s.cfgCodec }
    let msg := fun (t : Nat) (p : List Byte) =>
      List.replicate (t / 255) 0xFF#8 ++ [BitVec.ofNat 8 (t % 255)] ++
        List.replicate (p.length / 255) 0xFF#8 ++ [BitVec.ofNat 8 (p.length % 255)] ++ p
    let layers := List.range s.cfgNumLayers.toNat
    let rp := 0 < r.recoveryCount.toNat
    let onI := r.stype = .i ∨ rp
    let tid1 : Byte := BitVec.ofNat 8 (r.tid.toNat + 1)
    let pick := fun (n : Nat) (cond : Prop) [Decidable cond] (kind : PayloadKind) (type : Nat) =>
      if s.cfgSeiMask.getLsbD n = true ∧ cond then [(kind, type)] else []
    let sel := pick 0 onI .seiBp 0 ++ pick 1 onI .seiRp 6 ++ pick 2 True .seiPt 1 ++ pick 3 True .seiMdcv 137 ++
      pick 4 True .seiCll 144 ++ pick 5 True .seiAtc 147 ++ pick 6 True .seiSt2094x10 4 ++ pick 7 True .seiSt2094x40 4
    let bundle := sel.flatMap (fun e => msg e.2 (ask e.1 0)) ++ [0x80#8]
    (∃ (uuid : List Byte) (code : Word → List Byte), uuid.length = 16 ∧ (∀ n, code n ≠ []) ∧
      ∀ layer ctx, ∃ before after,
        s.payload .seiUdu layer ctx = uuid ++ before ++ code ctx.record.sliceCount ++ after) ∧
    (r.first = false → configItems s r = []) ∧
    (r.first = true → s.cfgCodec = .hevc → configItems s r =
      (if s.cfgAud = true ∨ r.audForce = true then [{ hb := [0x46#8, tid1], flags := 0x02#32, rbsp := ask .aud 0 }] else []) ++
      (if r.idr = true ∨ rp ∨ r.vpsForce = true then
        [{ hb := [0x40#8, 0x01#8], flags := 0x02#32, rbsp := ask .vps 0 }] else []) ++
      (if r.idr = true ∨ rp then layers.map (fun l =>
        { hb := [BitVec.ofNat 8 (0x42 + l / 32), BitVec.ofNat 8 (l % 32 * 8 + 1)], flags := 0x02#32, rbsp := ask .sps l })
        else []) ++
      (if onI ∨ r.ppsChanged = true then layers.map (fun l =>
        { hb := [BitVec.ofNat 8 (0x44 + l / 32), BitVec.ofNat 8 (l % 32 * 8 + 1)], flags := 0x02#32, rbsp := ask .pps l })
        else []) ++
      (if (s.cfgSeiMask.getLsbD 0 = true ∧ onI) ∨ s.cfgSeiMask.getLsbD 2 = true then
        [{ hb := [0x4E#8, tid1], flags := 0x0A#32, rbsp := msg 129 (ask .seiAps 0) ++ [0x80#8] }] else []) ++
      (if sel ≠ [] then [{ hb := [0x4E#8, tid1], flags := 0x0A#32, rbsp := bundle }] else []) ++
      (if s.cfgSeiMask.getLsbD 8 = true then
        [{ hb := [0x4E#8, tid1], flags := 0x0A#32, rbsp := msg 5 (ask .seiUdu 0) ++ [0x80#8] }] else [])) ∧
    (r.first = true → s.cfgCodec = .avc → configItems s r =
      (if s.cfgAud = true ∨ r.audForce = true then [{ hb := [0x09#8], flags := 0x02#32, rbsp := ask .aud 0 }] else []) ++
      (if r.idr = true ∨ rp then layers.map (fun l => { hb := [0x67#8], flags := 0x02#32, rbsp := ask .sps l }) else []) ++
      (if onI ∨ r.ppsChanged = true then layers.map (fun l => { hb := [0x68#8], flags := 0x02#32, rbsp := ask .pps l })
        else []) ++
      (if sel ≠ [] then [{ hb := [0x06#8], flags := 0x0A#32, rbsp := bundle }] else []) ++
      (if s.cfgSeiMask.getLsbD 8 = true then
        [{ hb := [0x06#8], flags := 0x0A#32, rbsp := msg 5 (ask .seiUdu 0) ++ [0x80#8] }] else []))

/-- R255, R264, R278 item 4: the configuration sections of a first slice lie inside the header window, one after another from
HDR_BASE without a gap, in the order of the items. `fate` gives each item its section or none: an item is placed, as its NAL
unit, whenever the temporary buffer holds its RBSP and the unit ends within the window, and dropped only otherwise, so a later,
smaller item may still fit; CFG_DROPPED is raised exactly when an item is dropped. -/
def Obligations.ConfigurationInsideWindow : Prop :=
  ∀ (s : State) (r : PicRecord), r.first = true →
    let c := configPlan s r
    let unit := fun (x : ConfigItem) => startCode s.cfgScLen ++ x.hb ++ emulationPrevent x.rbsp
    (∀ p ∈ c.planned, r.hdrBase.toNat ≤ p.span.off ∧ p.span.off + p.span.len ≤ r.hdrBase.toNat + s.cfgHdrReserve.toNat ∧
      p.span.off + p.span.len ≤ s.sbCap.toNat ∧
      ∃ x ∈ configItems s r, x.rbsp.length ≤ s.params.tmpCap.toNat ∧ p.flags = x.flags ∧ p.content = .bytes (unit x) ∧
        p.span.len = (unit x).length) ∧
    (∀ k p, c.planned[k]? = some p →
      p.span.off = r.hdrBase.toNat + ((c.planned.take k).map (fun q => q.span.len)).sum) ∧
    c.cur = r.hdrBase.toNat + (c.planned.map (fun q => q.span.len)).sum ∧
    (c.dropped = false ↔ c.planned.length = (configItems s r).length) ∧
    ∃ fate : List (ConfigItem × Option Planned),
      fate.map (fun e => e.1) = configItems s r ∧ fate.filterMap (fun e => e.2) = c.planned ∧
      (c.dropped = true ↔ ∃ e ∈ fate, e.2 = none) ∧
      ∀ (k : Nat) (x : ConfigItem) (p : Option Planned), fate[k]? = some (x, p) →
        let cur := r.hdrBase.toNat + (((fate.take k).filterMap (fun e => e.2)).map (fun q => q.span.len)).sum
        let fits := x.rbsp.length ≤ s.params.tmpCap.toNat ∧
          cur + (unit x).length ≤ min (r.hdrBase.toNat + s.cfgHdrReserve.toNat) s.sbCap.toNat
        (fits → p = some { span := { off := cur, len := (unit x).length }, flags := x.flags, content := .bytes (unit x) }) ∧
          (¬fits → p = none)

/-- R266: the filler section of a picture goes at FirstUnused, as long as the budget and the buffer allow, flagged APP_FILLER
in "don't fill" form; FILLER_CLIPPED is raised exactly when it is shorter than FILLER_BYTES. -/
def Obligations.FillerSectionPlanned : Prop :=
  ∀ (s : State) (r : PicRecord), s.cfgCodec ≠ .other →
    let before := planBeforeFiller s r
    let wants := s.cfgFiller ≠ .off ∧ (0 < r.fillerBytes.toNat ∨ (r.uduPending = true ∧ r.last = true))
    let hb : List Byte := if s.cfgCodec = .avc then [0x0C#8] else [0x4C#8, BitVec.ofNat 8 (r.tid.toNat + 1)]
    let h := (startCode s.cfgScLen).length + hb.length
    let off := firstUnusedOver s before
    let n := min (s.sbCap.toNat - off) (max (h + 1) r.fillerBytes.toNat)
    (¬wants → fillerPlan s r before = [] ∧ fillerShort s r before = false) ∧
    (wants →
      (n = 0 → fillerPlan s r before = []) ∧
      (0 < n → fillerPlan s r before = [{
        span := { off := off, len := n }, flags := if s.cfgFiller = .dontFill then 0x20#32 else 0#32,
        content := .filler (startCode s.cfgScLen ++ hb) r.fillerBytes.toNat (decide (s.cfgFiller = .dontFill)) }]) ∧
      (fillerShort s r before = true ↔ n < r.fillerBytes.toNat))

/-- R264 to R267, R278 item 2: a picture's plan is its configuration sections, one section without flags or bytes for each
stream part in order, the filler section, and, for a last slice, exactly one END_OF_FRAME section of length 0, after every other,
at FirstUnused of the table and all the others; another slice plans no END_OF_FRAME section. -/
def Obligations.SentinelEndsThePlan : Prop :=
  ∀ (s : State) (r : PicRecord),
    let before := (configPlan s r).planned ++
      r.parts.map (fun p => { span := { off := p.off.toNat, len := p.size.toNat }, flags := 0#32, content := .none })
    let others := before ++ fillerPlan s r before
    planBeforeFiller s r = before ∧
    (r.last = true → picturePlan s r = others ++
      [{ span := { off := firstUnusedOver s others, len := 0 }, flags := 0x01#32, content := .none }]) ∧
    (r.last = false → picturePlan s r = others) ∧
    ∀ p ∈ others, p.flags.getLsbD 0 = false

/-- R253, R264, R266, R269: after a picture completes, every configuration section holds its NAL unit, the filler section holds
its header, fill and final 80 as far as it is long (the bytes that "don't fill" skips keep), and every byte of memory outside
those sections keeps. -/
def Obligations.PictureBytesLand : Prop :=
  ∀ (s : State) (rec : Word), s.mem.wf = true → StreamBufferOk s → PictureReady s rec.toNat →
    let r := readRecord s.mem rec.toNat
    PictureFits s r → ∃ t, exec (.secPicture rec) s = .next t ∧
      (∀ p ∈ picturePlan s r, ∀ bs, p.content = .bytes bs →
        readBytes t.mem (s.sbBase.toNat + p.span.off) p.span.len = bs) ∧
      (∀ p ∈ picturePlan s r, ∀ head budget df, p.content = .filler head budget df →
        let fill := min (budget - head.length) (s.sbCap.toNat - p.span.off - head.length) - 1
        ∀ k b, k < p.span.len → (head ++ List.replicate fill 0xFF#8 ++ [0x80#8])[k]? = some b →
          readByte t.mem (s.sbBase.toNat + p.span.off + k) =
            if df = true ∧ head.length < k ∧ k < head.length + fill
            then readByte s.mem (s.sbBase.toNat + p.span.off + k) else b) ∧
      ∀ a, (∀ p ∈ picturePlan s r, p.content ≠ .none →
          a < s.sbBase.toNat + p.span.off ∨ s.sbBase.toNat + p.span.off + p.span.len ≤ a) →
        readByte t.mem a = readByte s.mem a

/-- R275, R276: where SEC_ADDSEI places a prefix SEI and a suffix SEI. -/
def Obligations.SeiPlacement : Prop :=
  ∀ s : State,
    (∀ j x, s.sections[j]? = some x → x.flags.getLsbD 3 = true →
      (∀ k y, j < k → s.sections[k]? = some y → y.flags.getLsbD 3 = false) →
      addSeiPlace s false = (j + 1, x.offset.toNat + x.length.toNat)) ∧
    ((∀ y ∈ s.sections, y.flags.getLsbD 3 = false) →
      (∀ j x, s.sections[j]? = some x → x.flags.getLsbD 1 = true →
        (∀ k y, j < k → s.sections[k]? = some y → y.flags.getLsbD 1 = false) →
        addSeiPlace s false = (j + 1, x.offset.toNat + x.length.toNat)) ∧
      ((∀ y ∈ s.sections, y.flags.getLsbD 1 = false) → addSeiPlace s false = (0, s.sbHdrBase.toNat))) ∧
    (addSeiPlace s true).2 = firstUnused (tableSpans s.sections) ∧
    (∀ others x, s.sections = others ++ [x] → x.length = 0#32 → x.flags.getLsbD 0 = true →
      (addSeiPlace s true).1 = others.length) ∧
    ((∀ others x, s.sections = others ++ [x] → x.length ≠ 0#32 ∨ x.flags.getLsbD 0 = false) →
      (addSeiPlace s true).1 = s.sections.length)

/-- R210, R274 to R276: a SEC_ADDSEI that can be placed writes its NAL unit, inserts its section, moves SB_HDRCUR in the prefix case,
answers the position, and changes nothing else. -/
def Obligations.SeiInserted : Prop :=
  ∀ (s : State) (sfx : Bool) (ptype : BitVec 16) (src size : Word), s.mem.wf = true → StreamBufferOk s → s.sbValid = true →
    s.cfgCodec ≠ .other → ¬(sfx = true ∧ s.cfgCodec = .avc) → Admitted s.memMap src.toNat size.toNat →
    let msg := fun (t : Nat) (p : List Byte) =>
      List.replicate (t / 255) 0xFF#8 ++ [BitVec.ofNat 8 (t % 255)] ++
        List.replicate (p.length / 255) 0xFF#8 ++ [BitVec.ofNat 8 (p.length % 255)] ++ p
    let hb : List Byte := if s.cfgCodec = .avc then [0x06#8]
      else [if sfx then 0x50#8 else 0x4E#8, BitVec.ofNat 8 (s.lastTid.toNat + 1)]
    let nb := startCode s.cfgScLen ++ hb ++
      emulationPrevent (msg ptype.toNat (readBytes s.mem src.toNat size.toNat) ++ [0x80#8])
    let pos := (addSeiPlace s sfx).1
    let off := (addSeiPlace s sfx).2
    let limit := if sfx then s.sbCap.toNat else min (s.sbHdrBase.toNat + s.cfgHdrReserve.toNat) s.sbCap.toNat
    off + nb.length ≤ limit → s.sections.length ≠ s.params.maxSections.toNat →
    (∀ x ∈ s.sections, x.length = 0#32 ∨ off + nb.length ≤ x.offset.toNat ∨ x.offset.toNat + x.length.toNat ≤ off) →
    ∃ t, exec (.secAddsei sfx ptype src size) s = .next t ∧
      t = { s with
        mem := t.mem, sections := t.sections, sbHdrCur := t.sbHdrCur, res := BitVec.ofNat 32 pos,
        cmdSeq := s.cmdSeq + 1#32 } ∧
      t.sections = s.sections.take pos ++
        { offset := BitVec.ofNat 32 off, length := BitVec.ofNat 32 nb.length,
          flags := if sfx then 0x10#32 else 0x0A#32 } :: s.sections.drop pos ∧
      (sfx = true → t.sbHdrCur = s.sbHdrCur) ∧
      (sfx = false → t.sbHdrCur.toNat = max s.sbHdrCur.toNat (off + nb.length)) ∧
      readBytes t.mem (s.sbBase.toNat + off) nb.length = nb ∧
      SameOutside s.mem t.mem (s.sbBase.toNat + off) nb.length

/-- R277, and the checks of R274: a SEC_ADDSEI that cannot be placed completes with RES = 0xFFFFFFFF and no other effect but
CMD_SEQ; without a buffer, or for OTHER, it faults. -/
def Obligations.SeiInsertionFails : Prop :=
  ∀ (s : State) (sfx : Bool) (ptype : BitVec 16) (src size : Word),
    (s.sbValid = false → exec (.secAddsei sfx ptype src size) s = raise (.secAddsei sfx ptype src size) .notInitialised s) ∧
    (s.sbValid = true → s.cfgCodec = .other →
      exec (.secAddsei sfx ptype src size) s = raise (.secAddsei sfx ptype src size) .unsupported s) ∧
    (s.sbValid = true → s.cfgCodec ≠ .other → Admitted s.memMap src.toNat size.toNat →
      let msg := fun (t : Nat) (p : List Byte) =>
        List.replicate (t / 255) 0xFF#8 ++ [BitVec.ofNat 8 (t % 255)] ++
          List.replicate (p.length / 255) 0xFF#8 ++ [BitVec.ofNat 8 (p.length % 255)] ++ p
      let hb : List Byte := if s.cfgCodec = .avc then [0x06#8]
        else [if sfx then 0x50#8 else 0x4E#8, BitVec.ofNat 8 (s.lastTid.toNat + 1)]
      let nb := startCode s.cfgScLen ++ hb ++
        emulationPrevent (msg ptype.toNat (readBytes s.mem src.toNat size.toNat) ++ [0x80#8])
      let off := (addSeiPlace s sfx).2
      let limit := if sfx then s.sbCap.toNat else min (s.sbHdrBase.toNat + s.cfgHdrReserve.toNat) s.sbCap.toNat
      (sfx = true ∧ s.cfgCodec = .avc) ∨ limit < off + nb.length ∨ s.sections.length = s.params.maxSections.toNat ∨
        (∃ x ∈ s.sections, x.length ≠ 0#32 ∧ off < x.offset.toNat + x.length.toNat ∧ x.offset.toNat < off + nb.length) →
      exec (.secAddsei sfx ptype src size) s = .next { s with res := 0xFFFFFFFF#32, cmdSeq := s.cmdSeq + 1#32 })

/-- R49: FirstUnused is the greatest end of a section of the table or of one planned earlier in the same command, and 0 when
there is none. -/
def Obligations.FirstUnusedIsMax : Prop :=
  ∀ (s : State) (l : List Planned) (m : Nat), firstUnusedOver s l = m ↔
    (∀ x ∈ s.sections, x.offset.toNat + x.length.toNat ≤ m) ∧ (∀ p ∈ l, p.span.off + p.span.len ≤ m) ∧
      (m = 0 ∨ (∃ x ∈ s.sections, m = x.offset.toNat + x.length.toNat) ∨ ∃ p ∈ l, m = p.span.off + p.span.len)

/-! ### ROI and QP buffer -/

/-- R8, R320, R321: ROI_INIT captures the codec, sets the grid by rounding up, encodes the background, empties the list and
changes nothing else. -/
def Obligations.RoiInitSetsGrid : Prop :=
  ∀ (s : State) (mode : RoiMode) (picW picH q : Word), picW ≠ 0#32 → picH ≠ 0#32 →
    ∃ t, exec (.roiInit mode picW picH q) s = .next t ∧
      t = { s with roi := t.roi, nodes := [], cmdSeq := s.cmdSeq + 1#32 } ∧
      t.roi.valid = true ∧ t.roi.picW = picW ∧ t.roi.picH = picH ∧ t.roi.mode = mode ∧ t.roi.codec = s.cfgCodec ∧
      t.roi.log2Lcu.toNat = (match s.cfgCodec with | .avc => 4 | .hevc => 5 | .other => 6) ∧
      picW.toNat ≤ t.roi.lcuW.toNat * 2 ^ t.roi.log2Lcu.toNat ∧
      t.roi.lcuW.toNat * 2 ^ t.roi.log2Lcu.toNat < picW.toNat + 2 ^ t.roi.log2Lcu.toNat ∧
      picH.toNat ≤ t.roi.lcuH.toNat * 2 ^ t.roi.log2Lcu.toNat ∧
      t.roi.lcuH.toNat * 2 ^ t.roi.log2Lcu.toNat < picH.toNat + 2 ^ t.roi.log2Lcu.toNat ∧
      (t.roi.bg = s.params.sentinel ∧ q.toNat % 256 = s.params.sentinel.toNat ∨
        t.roi.bg.toNat = q.toNat % 64 ∧ q.toNat % 256 ≠ s.params.sentinel.toNat)

/-- R322 to R324: ROI_ADD inserts the clipped LCU rectangle, at the tail in incoming order and before the first node that is
no worse in quality order; a top-left outside the grid answers 0, and a full list raises RoiFull. -/
def Obligations.RoiAddInserts : Prop :=
  ∀ (s : State) (x y w h q : Word),
    let lcu := 2 ^ s.roi.log2Lcu.toNat
    let inside := x.toNat / lcu < s.roi.lcuW.toNat ∧ y.toNat / lcu < s.roi.lcuH.toNat
    (s.roi.valid = false → exec (.roiAdd x y w h q) s = raise (.roiAdd x y w h q) .notInitialised s) ∧
    (s.roi.valid = true → ¬inside →
      exec (.roiAdd x y w h q) s = .next { s with res := 0#32, cmdSeq := s.cmdSeq + 1#32 }) ∧
    (s.roi.valid = true → inside → s.nodes.length = s.params.maxRoi.toNat →
      exec (.roiAdd x y w h q) s = raise (.roiAdd x y w h q) .roiFull s) ∧
    (s.roi.valid = true → inside → s.nodes.length ≠ s.params.maxRoi.toNat → ∃ n before after,
      exec (.roiAdd x y w h q) s =
        .next { s with nodes := before ++ n :: after, res := 1#32, cmdSeq := s.cmdSeq + 1#32 } ∧
      s.nodes = before ++ after ∧
      n.x0.toNat = x.toNat / lcu ∧ n.y0.toNat = y.toNat / lcu ∧
      n.w.toNat = min ((w.toNat + lcu - 1) / lcu) (s.roi.lcuW.toNat - x.toNat / lcu) ∧
      n.h.toNat = min ((h.toNat + lcu - 1) / lcu) (s.roi.lcuH.toNat - y.toNat / lcu) ∧
      (n.code = s.params.sentinel ∧ q.toNat % 256 = s.params.sentinel.toNat ∨
        n.code.toNat = q.toNat % 64 ∧ q.toNat % 256 ≠ s.params.sentinel.toNat) ∧
      (s.roi.mode = .incoming → after = []) ∧
      (s.roi.mode = .quality → (∀ m ∈ before, dqp n.code < dqp m.code) ∧
        ∀ m, after.head? = some m → dqp m.code ≤ dqp n.code))

/-- R325, R326: ROI_CLEAR empties the list and keeps the context; ROI_DESTROY makes every ROI register 0; and without a valid
context every ROI and QP command but ROI_INIT raises NotInitialised. -/
def Obligations.RoiClearAndDestroy : Prop :=
  ∀ s : State,
    (s.roi.valid = true →
      exec .roiClear s = .next { s with nodes := [], cmdSeq := s.cmdSeq + 1#32 } ∧
      ∃ t, exec .roiDestroy s = .next t ∧ t = { s with roi := t.roi, nodes := [], cmdSeq := s.cmdSeq + 1#32 } ∧
        t.roi.valid = false ∧ ∀ n : BitVec 16, 0x050 ≤ n.toNat → n.toNat ≤ 0x059 → readPort t n = 0#32) ∧
    (s.roi.valid = false →
      exec .roiClear s = raise .roiClear .notInitialised s ∧ exec .roiDestroy s = raise .roiDestroy .notInitialised s ∧
      (∀ x y w h q, exec (.roiAdd x y w h q) s = raise (.roiAdd x y w h q) .notInitialised s) ∧
      ∀ (qpn bpl : BitVec 8) (dst : Word), 1 ≤ qpn.toNat → qpn.toNat ≤ bpl.toNat →
        exec (.roiFill qpn bpl dst) s = raise (.roiFill qpn bpl dst) .notInitialised s ∧
        (∀ v, exec (.qpFlat qpn bpl dst v) s = raise (.qpFlat qpn bpl dst v) .notInitialised s) ∧
        ∀ src n, exec (.qpLoad qpn bpl dst src n) s = raise (.qpLoad qpn bpl dst src n) .notInitialised s)

/-- R327, R332, R333: QP_FLAT stores the encoded value in every cell; QP_LOAD stores the table's bytes as they were before the
command, raw; neither touches another byte. A short table answers 1. -/
def Obligations.QpBufferCommandsFill : Prop :=
  ∀ (s : State) (qpn bpl : BitVec 8) (dst : Word),
    (QpReady s qpn bpl dst →
      (∀ v : Word, ∃ t c, exec (.qpFlat qpn bpl dst v) s = .next t ∧ QpWrites qpn bpl dst (fun _ _ _ => c) s t ∧
        (c = s.params.sentinel ∧ v.toNat % 256 = s.params.sentinel.toNat ∨
          c.toNat = v.toNat % 64 ∧ v.toNat % 256 ≠ s.params.sentinel.toNat)) ∧
      ∀ src srcLen : Word, s.roi.lcuW.toNat * s.roi.lcuH.toNat * qpn.toNat ≤ srcLen.toNat →
        Admitted s.memMap src.toNat (s.roi.lcuW.toNat * s.roi.lcuH.toNat * qpn.toNat) →
        ∃ t, exec (.qpLoad qpn bpl dst src srcLen) s = .next t ∧
          QpWrites qpn bpl dst
            (fun x y k => readByte s.mem (src.toNat + ((y * s.roi.lcuW.toNat + x) * qpn.toNat + k))) s t) ∧
    (1 ≤ qpn.toNat → qpn.toNat ≤ bpl.toNat → s.roi.valid = true → ∀ src srcLen : Word,
      srcLen.toNat < s.roi.lcuW.toNat * s.roi.lcuH.toNat * qpn.toNat →
      exec (.qpLoad qpn bpl dst src srcLen) s = .next { s with res := 1#32, cmdSeq := s.cmdSeq + 1#32 })

/-- R328 to R331: after ROI_FILL every cell of the grid holds, in each of its QPN bytes, the background followed through the
nodes in list order, each drawing its rectangle and smoothing every cell around it once; every other byte of memory keeps. -/
def Obligations.RoiFillComputesGrid : Prop :=
  ∀ (s : State) (qpn bpl : BitVec 8) (dst : Word), QpReady s qpn bpl dst →
    ∃ t, exec (.roiFill qpn bpl dst) s = .next t ∧
      QpWrites qpn bpl dst (fun x y _ => s.nodes.foldl (cellAfterNode s.params s.roi.codec x y) s.roi.bg) s t

/-- R334: the four properties of a filled grid, with DQP spelled out (R321) and the whole byte of a smoothed cell (R330). `added`
is the sequence of nodes as they were added to the list. -/
def Obligations.RoiFillProperties : Prop :=
  ∀ (s : State) (qpn bpl : BitVec 8) (dst : Word), QpReady s qpn bpl dst → s.params.Ok →
    ∃ t, exec (.roiFill qpn bpl dst) s = .next t ∧
      (∀ (added : List RoiNode) (i j : Nat) (a b : RoiNode) (x y : Nat),
        s.nodes = added.foldl (fun l n => insertNode s.roi.mode n l) [] →
        i < j → added[i]? = some a → added[j]? = some b →
        x < s.roi.lcuW.toNat → y < s.roi.lcuH.toNat → nodeCovers a x y → nodeCovers b x y →
        (∀ k c, k ≠ i → k ≠ j → added[k]? = some c → ¬nodeTouches c x y) →
        ∀ k, k < qpn.toNat → readByte t.mem (cellByte s bpl dst x y k) =
          match s.roi.mode with
          | .incoming => b.code
          | .quality => if dqp b.code < dqp a.code then b.code else a.code) ∧
      (∀ old code : Byte,
        let v := smoothValue s.params s.roi.codec old code
        (-32 : Int) ≤ dqp v ∧ dqp v ≤ 31 ∧ dqp v = (dqp old + dqp code) / 2 ∧
          v &&& s.params.fmv0Mask = (old ||| code) &&& s.params.fmv0Mask ∧
          v = (BitVec.ofInt 8 ((dqp old + dqp code) / 2) &&& 0x3F#8) ||| ((old ||| code) &&& s.params.fmv0Mask)) ∧
      (∀ c : Byte, dqp c = if c.toNat % 64 < 32 then ((c.toNat % 64 : Nat) : Int) else ((c.toNat % 64 : Nat) : Int) - 64) ∧
      ∀ (q : QpLayout) (n : RoiNode) (m : Memory), n.code = s.params.sentinel →
        smoothNode s.params s.roi.codec q n m = m
end

