-- ==== Sys2Proof/Laws/Admission.lean ====
section
/-! SUPPORT. The laws of range admission (20_memory.md R84): what walking past the admitted regions finds. -/

namespace Sys2Proof.Machine

/-- How many regions end past b: a measure that every region walked past lowers. -/
def regionsAhead (rs : List Region) (b : Nat) : Nat := rs.countP (fun r => decide (b < r.base + r.size))

theorem regionContains_iff (r : Region) (b : Nat) : regionContains r b = true ↔ r.base ≤ b ∧ b < r.base + r.size := by
  simp [regionContains]

theorem regionsAhead_lt (rs : List Region) (b c : Nat) (r : Region) (hr : r ∈ rs) (hb : b < r.base + r.size)
    (he : r.base + r.size ≤ c) : regionsAhead rs c < regionsAhead rs b := by
  unfold regionsAhead
  induction rs with
  | nil => simp at hr
  | cons x t ih =>
    have mono : t.countP (fun r => decide (c < r.base + r.size)) ≤ t.countP (fun r => decide (b < r.base + r.size)) :=
      List.countP_mono_left (fun y _ h => by simp at h ⊢; omega)
    simp only [List.countP_cons, decide_eq_true_eq]
    rcases List.mem_cons.1 hr with rfl | ht
    · rw [if_neg (by omega), if_pos hb]
      omega
    · have := ih ht
      split <;> split <;> omega

/-- Where the walk from b stops, nothing is admitted, and everything on the way is. -/
theorem skipCovered_stops (rs : List Region) (fuel b : Nat) (hf : regionsAhead rs b ≤ fuel) :
    b ≤ skipCovered rs fuel b ∧ memOk rs (skipCovered rs fuel b) = false ∧
      ∀ x, b ≤ x → x < skipCovered rs fuel b → memOk rs x = true := by
  induction fuel generalizing b with
  | zero =>
    refine ⟨Nat.le_refl b, ?_, fun x h1 h2 => absurd h2 (by simp only [skipCovered]; omega)⟩
    have h0 : regionsAhead rs b = 0 := by omega
    unfold regionsAhead at h0
    rw [List.countP_eq_zero] at h0
    simp only [skipCovered, memOk, List.any_eq_false]
    intro r hr hc
    exact h0 r hr (by simpa using ((regionContains_iff r b).1 hc).2)
  | succ n ih =>
    rw [skipCovered]
    split
    · rename_i hn
      refine ⟨Nat.le_refl b, ?_, fun x h1 h2 => absurd h2 (by omega)⟩
      simp only [memOk, List.any_eq_false]
      intro r hr
      have := List.find?_eq_none.1 hn r hr
      simpa using this
    · rename_i r hs
      have hmem := List.mem_of_find?_eq_some hs
      have hf' : regionContains r b = true := by
        have := List.find?_some hs
        exact this
      have hc := (regionContains_iff r b).1 hf'
      have hlt := regionsAhead_lt rs b (r.base + r.size) r hmem hc.2 (Nat.le_refl _)
      obtain ⟨h1, h2, h3⟩ := ih (r.base + r.size) (by omega)
      refine ⟨by omega, h2, fun x hx hlt => ?_⟩
      by_cases hxr : x < r.base + r.size
      · simp only [memOk, List.any_eq_true]
        exact ⟨r, hmem, (regionContains_iff r x).2 ⟨by omega, hxr⟩⟩
      · exact h3 x (by omega) hlt

/-- The first address at or after b that is not admitted. -/
theorem firstUncovered_spec (rs : List Region) (b : Nat) :
    b ≤ firstUncovered rs b ∧ memOk rs (firstUncovered rs b) = false ∧
      ∀ x, b ≤ x → x < firstUncovered rs b → memOk rs x = true :=
  skipCovered_stops rs rs.length b (List.countP_le_length)

/-- What an admitted range is. -/
theorem admitted_of_admitFail_none (rs : List Region) (a n : Nat) (h : admitFail rs a n = none) : Admitted rs a n := by
  unfold admitFail at h
  obtain ⟨h1, h2, h3⟩ := firstUncovered_spec rs a
  intro b hb hlt
  split at h
  · omega
  · unfold firstBad at h
    split at h
    · exact absurd h (by simp)
    · rename_i hnone
      split at h
      · exact absurd h (by simp)
      · rename_i hle
        have hnu : ¬ firstUncovered rs a < min (a + n) addressSpace := by
          intro hc
          rw [if_pos hc] at hnone
          exact absurd hnone (by simp)
        exact ⟨by omega, h3 b hb (by omega)⟩

/-- An admitted range lies in the address space. -/
theorem Admitted.le_space {rs : List Region} {a n : Nat} (h : Admitted rs a n) (hn : 0 < n) : a + n ≤ addressSpace := by
  have := (h (a + n - 1) (by omega) (by omega)).1
  omega

end Sys2Proof.Machine
end

