-- ==== Sys2Proof/Laws/Memory.lean ====
section
/-! SUPPORT. The laws of memory: a read after a write, the canonical form, byte ranges. -/

namespace Sys2Proof.Machine

theorem readCells_writeCells_same (l : List Host.Cell) (a : Nat) (b : Byte) (lo : Nat) (h : cellsWf lo l = true) :
    readCells (writeCells l a b) a = b := by
  induction l generalizing lo with
  | nil => by_cases hb : b = unlisted <;> simp [writeCells, readCells, hb]
  | cons c t ih =>
    obtain ⟨x, v⟩ := c
    simp only [cellsWf, Bool.and_eq_true, decide_eq_true_eq] at h
    obtain ⟨⟨hlo, hx, hv⟩, ht⟩ := h
    have tail : ∀ (l : List Host.Cell) (lo : Nat), cellsWf lo l = true → a < lo → readCells l a = unlisted := by
      intro l
      induction l with
      | nil => intros; rfl
      | cons c t ih =>
        intro lo hw hlt
        obtain ⟨y, u⟩ := c
        simp only [cellsWf, Bool.and_eq_true, decide_eq_true_eq] at hw
        simp only [readCells]
        rw [if_neg (by omega)]
        exact ih (y + 1) hw.2 (by omega)
    simp only [writeCells]
    split
    · rename_i hax
      split
      · rename_i hb
        simp only [readCells]
        rw [if_neg (by omega), tail t (x + 1) ht (by omega), hb]
      · simp [readCells]
    · split
      · rename_i hax
        split
        · rename_i hb
          rw [tail t (x + 1) ht (by omega), hb]
        · simp [readCells]
      · rename_i hne
        simp only [readCells, if_neg hne]
        exact ih (x + 1) ht

theorem readCells_writeCells_other (l : List Host.Cell) (a a' : Nat) (b : Byte) (h : a' ≠ a) :
    readCells (writeCells l a b) a' = readCells l a' := by
  induction l with
  | nil => by_cases hb : b = unlisted <;> simp [writeCells, readCells, hb, h]
  | cons c t ih =>
    obtain ⟨x, v⟩ := c
    simp only [writeCells]
    split
    · split
      · rfl
      · simp [readCells, h]
    · split
      · rename_i hax
        subst hax
        split <;> simp [readCells, h]
      · simp only [readCells, ih]

theorem cellsWf_mono (l : List Host.Cell) (lo lo' : Nat) (h : cellsWf lo l = true) (hl : lo' ≤ lo) :
    cellsWf lo' l = true := by
  cases l with
  | nil => rfl
  | cons c t =>
    obtain ⟨x, v⟩ := c
    simp only [cellsWf, Bool.and_eq_true, decide_eq_true_eq] at h ⊢
    exact ⟨⟨by omega, h.1.2.1, h.1.2.2⟩, h.2⟩

theorem cellsWf_writeCells (l : List Host.Cell) (a : Nat) (b : Byte) (lo : Nat) (h : cellsWf lo l = true) (hlo : lo ≤ a)
    (ha : a < addressSpace) : cellsWf lo (writeCells l a b) = true := by
  induction l generalizing lo with
  | nil => by_cases hb : b = unlisted <;> simp [writeCells, cellsWf, hb, hlo, ha]
  | cons c t ih =>
    obtain ⟨x, v⟩ := c
    have hw := h
    simp only [cellsWf, Bool.and_eq_true, decide_eq_true_eq] at h
    simp only [writeCells]
    split
    · split
      · exact hw
      · rename_i hb
        simp only [cellsWf, Bool.and_eq_true, decide_eq_true_eq]
        exact ⟨⟨hlo, ha, hb⟩, ⟨by omega, h.1.2⟩, h.2⟩
    · split
      · rename_i hax
        split
        · exact cellsWf_mono t (x + 1) lo h.2 (by omega)
        · rename_i hb
          simp only [cellsWf, Bool.and_eq_true, decide_eq_true_eq]
          exact ⟨⟨hlo, ha, hb⟩, by rw [hax]; exact h.2⟩
      · simp only [cellsWf, Bool.and_eq_true, decide_eq_true_eq]
        exact ⟨h.1, ih (x + 1) h.2 (by omega)⟩

/-- Memory with nothing listed is in canonical form. -/
theorem wf_empty : Memory.wf { cells := [] } = true := rfl

/-- A read of the byte just written, at an address of the port. -/
theorem readByte_writeByte_same (m : Memory) (a : Nat) (b : Byte) (h : m.wf = true) (ha : a < addressSpace) :
    readByte (writeByte m a b) a = b := by
  simp only [writeByte, if_pos ha, readByte]
  exact readCells_writeCells_same m.cells a b 0 h

/-- A write leaves every other address alone. -/
theorem readByte_writeByte_other (m : Memory) (a a' : Nat) (b : Byte) (h : a' ≠ a) :
    readByte (writeByte m a b) a' = readByte m a' := by
  unfold writeByte
  split
  · exact readCells_writeCells_other m.cells a a' b h
  · rfl

/-- One byte's write keeps the canonical form. -/
theorem wf_writeByte (m : Memory) (a : Nat) (b : Byte) (h : m.wf = true) : (writeByte m a b).wf = true := by
  unfold writeByte
  split
  · rename_i ha
    exact cellsWf_writeCells m.cells a b 0 h (Nat.zero_le a) ha
  · exact h

/-- A byte sequence's write keeps the canonical form. -/
theorem wf_writeBytes (bs : List Byte) (m : Memory) (a : Nat) (h : m.wf = true) : (writeBytes m a bs).wf = true := by
  induction bs generalizing m a with
  | nil => exact h
  | cons b t ih => exact ih _ _ (wf_writeByte m a b h)

/-- A byte sequence's write leaves every address outside its range alone. -/
theorem readByte_writeBytes_outside (bs : List Byte) (m : Memory) (a x : Nat) (h : x < a ∨ a + bs.length ≤ x) :
    readByte (writeBytes m a bs) x = readByte m x := by
  induction bs generalizing m a with
  | nil => rfl
  | cons b t ih =>
    simp only [List.length_cons] at h
    rw [writeBytes, ih (writeByte m a b) (a + 1) (by omega), readByte_writeByte_other m a x b (by omega)]

/-- A read inside a byte sequence just written. -/
theorem readByte_writeBytes_inside (bs : List Byte) (m : Memory) (a k : Nat) (hw : m.wf = true) (hk : k < bs.length)
    (ha : a + bs.length ≤ addressSpace) : readByte (writeBytes m a bs) (a + k) = bs[k] := by
  induction bs generalizing m a k with
  | nil => simp at hk
  | cons b t ih =>
    simp only [List.length_cons] at hk ha
    cases k with
    | zero =>
      rw [writeBytes, readByte_writeBytes_outside t (writeByte m a b) (a + 1) (a + 0) (by omega)]
      exact readByte_writeByte_same m a b hw (by omega)
    | succ k =>
      have := ih (writeByte m a b) (a + 1) k (wf_writeByte m a b hw) (by omega) (by omega)
      rw [writeBytes, show a + (k + 1) = a + 1 + k by omega, this]
      rfl

@[simp] theorem length_readBytes (m : Memory) (a n : Nat) : (readBytes m a n).length = n := by
  induction n generalizing a with
  | zero => rfl
  | succ n ih => simp [readBytes, ih]

theorem getElem_readBytes (m : Memory) (a n k : Nat) (h : k < (readBytes m a n).length) :
    (readBytes m a n)[k] = readByte m (a + k) := by
  induction n generalizing a k with
  | zero => simp [readBytes] at h
  | succ n ih =>
    cases k with
    | zero => simp [readBytes]
    | succ k => simp only [readBytes, List.getElem_cons_succ]; rw [ih]; congr 1; omega

/-- Two reads of a range agree when every byte of it does. -/
theorem readBytes_congr (m m' : Memory) (a n : Nat) (h : ∀ k, k < n → readByte m' (a + k) = readByte m (a + k)) :
    readBytes m' a n = readBytes m a n := by
  induction n generalizing a with
  | zero => rfl
  | succ n ih =>
    have h0 := h 0 (by omega)
    simp only [Nat.add_zero] at h0
    simp only [readBytes, h0]
    rw [ih (a + 1) (fun k hk => by have := h (k + 1) (by omega); rw [show a + 1 + k = a + (k + 1) by omega]; exact this)]

/-- Reading back a byte sequence just written. -/
theorem readBytes_writeBytes (bs : List Byte) (m : Memory) (a : Nat) (hw : m.wf = true)
    (ha : a + bs.length ≤ addressSpace) : readBytes (writeBytes m a bs) a bs.length = bs := by
  apply List.ext_getElem
  · simp
  · intro k h1 h2
    rw [getElem_readBytes, readByte_writeBytes_inside bs m a k hw h2 ha]

end Sys2Proof.Machine
end

