-- ==== Sys2Proof/Laws/State.lean ====
section
/-! SUPPORT. What each named update of State leaves of each field: true by computation, so that no proof unfolds an update. -/

namespace Sys2Proof.Machine

/-! ### W[w] <- x -/

@[simp] theorem setWriter_cmdSeq (s : State) (w : WriterId) (x : HostWriter) : (s.setWriter w x).cmdSeq = s.cmdSeq := by cases w <;> rfl
@[simp] theorem setWriter_res (s : State) (w : WriterId) (x : HostWriter) : (s.setWriter w x).res = s.res := by cases w <;> rfl
@[simp] theorem setWriter_fillerClipped (s : State) (w : WriterId) (x : HostWriter) : (s.setWriter w x).fillerClipped = s.fillerClipped := by cases w <;> rfl
@[simp] theorem setWriter_cfgDropped (s : State) (w : WriterId) (x : HostWriter) : (s.setWriter w x).cfgDropped = s.cfgDropped := by cases w <;> rfl
@[simp] theorem setWriter_halted (s : State) (w : WriterId) (x : HostWriter) : (s.setWriter w x).halted = s.halted := by cases w <;> rfl
@[simp] theorem setWriter_faultCause (s : State) (w : WriterId) (x : HostWriter) : (s.setWriter w x).faultCause = s.faultCause := by cases w <;> rfl
@[simp] theorem setWriter_faultInfo (s : State) (w : WriterId) (x : HostWriter) : (s.setWriter w x).faultInfo = s.faultInfo := by cases w <;> rfl
@[simp] theorem setWriter_faultSeq (s : State) (w : WriterId) (x : HostWriter) : (s.setWriter w x).faultSeq = s.faultSeq := by cases w <;> rfl
@[simp] theorem setWriter_faultArg (s : State) (w : WriterId) (x : HostWriter) : (s.setWriter w x).faultArg = s.faultArg := by cases w <;> rfl
@[simp] theorem setWriter_cfgCodec (s : State) (w : WriterId) (x : HostWriter) : (s.setWriter w x).cfgCodec = s.cfgCodec := by cases w <;> rfl
@[simp] theorem setWriter_cfgScLen (s : State) (w : WriterId) (x : HostWriter) : (s.setWriter w x).cfgScLen = s.cfgScLen := by cases w <;> rfl
@[simp] theorem setWriter_cfgAud (s : State) (w : WriterId) (x : HostWriter) : (s.setWriter w x).cfgAud = s.cfgAud := by cases w <;> rfl
@[simp] theorem setWriter_cfgFiller (s : State) (w : WriterId) (x : HostWriter) : (s.setWriter w x).cfgFiller = s.cfgFiller := by cases w <;> rfl
@[simp] theorem setWriter_cfgSeiMask (s : State) (w : WriterId) (x : HostWriter) : (s.setWriter w x).cfgSeiMask = s.cfgSeiMask := by cases w <;> rfl
@[simp] theorem setWriter_cfgNumLayers (s : State) (w : WriterId) (x : HostWriter) : (s.setWriter w x).cfgNumLayers = s.cfgNumLayers := by cases w <;> rfl
@[simp] theorem setWriter_cfgHdrReserve (s : State) (w : WriterId) (x : HostWriter) : (s.setWriter w x).cfgHdrReserve = s.cfgHdrReserve := by cases w <;> rfl
@[simp] theorem setWriter_sbValid (s : State) (w : WriterId) (x : HostWriter) : (s.setWriter w x).sbValid = s.sbValid := by cases w <;> rfl
@[simp] theorem setWriter_sbBase (s : State) (w : WriterId) (x : HostWriter) : (s.setWriter w x).sbBase = s.sbBase := by cases w <;> rfl
@[simp] theorem setWriter_sbCap (s : State) (w : WriterId) (x : HostWriter) : (s.setWriter w x).sbCap = s.sbCap := by cases w <;> rfl
@[simp] theorem setWriter_sbHdrBase (s : State) (w : WriterId) (x : HostWriter) : (s.setWriter w x).sbHdrBase = s.sbHdrBase := by cases w <;> rfl
@[simp] theorem setWriter_sbHdrCur (s : State) (w : WriterId) (x : HostWriter) : (s.setWriter w x).sbHdrCur = s.sbHdrCur := by cases w <;> rfl
@[simp] theorem setWriter_sections (s : State) (w : WriterId) (x : HostWriter) : (s.setWriter w x).sections = s.sections := by cases w <;> rfl
@[simp] theorem setWriter_cpbDelay (s : State) (w : WriterId) (x : HostWriter) : (s.setWriter w x).cpbDelay = s.cpbDelay := by cases w <;> rfl
@[simp] theorem setWriter_cpbInitDelay (s : State) (w : WriterId) (x : HostWriter) : (s.setWriter w x).cpbInitDelay = s.cpbInitDelay := by cases w <;> rfl
@[simp] theorem setWriter_lastTid (s : State) (w : WriterId) (x : HostWriter) : (s.setWriter w x).lastTid = s.lastTid := by cases w <;> rfl
@[simp] theorem setWriter_roi (s : State) (w : WriterId) (x : HostWriter) : (s.setWriter w x).roi = s.roi := by cases w <;> rfl
@[simp] theorem setWriter_nodes (s : State) (w : WriterId) (x : HostWriter) : (s.setWriter w x).nodes = s.nodes := by cases w <;> rfl
@[simp] theorem setWriter_platform (s : State) (w : WriterId) (x : HostWriter) : (s.setWriter w x).platform = s.platform := by cases w <;> rfl
@[simp] theorem setWriter_mem (s : State) (w : WriterId) (x : HostWriter) : (s.setWriter w x).mem = s.mem := by cases w <;> rfl
@[simp] theorem setWriter_port (s : State) (w : WriterId) (x : HostWriter) : (s.setWriter w x).port = s.port := by cases w <;> rfl

@[simp] theorem setWriter_w0_w0 (s : State) (x : HostWriter) : (s.setWriter .w0 x).w0 = x := rfl
@[simp] theorem setWriter_w0_w1 (s : State) (x : HostWriter) : (s.setWriter .w0 x).w1 = s.w1 := rfl
@[simp] theorem setWriter_w1_w0 (s : State) (x : HostWriter) : (s.setWriter .w1 x).w0 = s.w0 := rfl
@[simp] theorem setWriter_w1_w1 (s : State) (x : HostWriter) : (s.setWriter .w1 x).w1 = x := rfl
@[simp] theorem writer_setWriter_same (s : State) (w : WriterId) (x : HostWriter) : (s.setWriter w x).writer w = x := by
  cases w <;> rfl
theorem writer_setWriter_other (s : State) (w w' : WriterId) (x : HostWriter) (h : w' ≠ w) :
    (s.setWriter w x).writer w' = s.writer w' := by
  cases w <;> cases w' <;> first | rfl | exact absurd rfl h
@[simp] theorem setWriter_params (s : State) (w : WriterId) (x : HostWriter) : (s.setWriter w x).params = s.params := by
  cases w <;> rfl
@[simp] theorem setWriter_memMap (s : State) (w : WriterId) (x : HostWriter) : (s.setWriter w x).memMap = s.memMap := by
  cases w <;> rfl

/-! ### W[w] and memory after a stream operation -/

@[simp] theorem withStream_cmdSeq (s : State) (w : WriterId) (x : Stream) : (s.withStream w x).cmdSeq = s.cmdSeq := by cases w <;> rfl
@[simp] theorem withStream_res (s : State) (w : WriterId) (x : Stream) : (s.withStream w x).res = s.res := by cases w <;> rfl
@[simp] theorem withStream_fillerClipped (s : State) (w : WriterId) (x : Stream) : (s.withStream w x).fillerClipped = s.fillerClipped := by cases w <;> rfl
@[simp] theorem withStream_cfgDropped (s : State) (w : WriterId) (x : Stream) : (s.withStream w x).cfgDropped = s.cfgDropped := by cases w <;> rfl
@[simp] theorem withStream_halted (s : State) (w : WriterId) (x : Stream) : (s.withStream w x).halted = s.halted := by cases w <;> rfl
@[simp] theorem withStream_faultCause (s : State) (w : WriterId) (x : Stream) : (s.withStream w x).faultCause = s.faultCause := by cases w <;> rfl
@[simp] theorem withStream_faultInfo (s : State) (w : WriterId) (x : Stream) : (s.withStream w x).faultInfo = s.faultInfo := by cases w <;> rfl
@[simp] theorem withStream_faultSeq (s : State) (w : WriterId) (x : Stream) : (s.withStream w x).faultSeq = s.faultSeq := by cases w <;> rfl
@[simp] theorem withStream_faultArg (s : State) (w : WriterId) (x : Stream) : (s.withStream w x).faultArg = s.faultArg := by cases w <;> rfl
@[simp] theorem withStream_cfgCodec (s : State) (w : WriterId) (x : Stream) : (s.withStream w x).cfgCodec = s.cfgCodec := by cases w <;> rfl
@[simp] theorem withStream_cfgScLen (s : State) (w : WriterId) (x : Stream) : (s.withStream w x).cfgScLen = s.cfgScLen := by cases w <;> rfl
@[simp] theorem withStream_cfgAud (s : State) (w : WriterId) (x : Stream) : (s.withStream w x).cfgAud = s.cfgAud := by cases w <;> rfl
@[simp] theorem withStream_cfgFiller (s : State) (w : WriterId) (x : Stream) : (s.withStream w x).cfgFiller = s.cfgFiller := by cases w <;> rfl
@[simp] theorem withStream_cfgSeiMask (s : State) (w : WriterId) (x : Stream) : (s.withStream w x).cfgSeiMask = s.cfgSeiMask := by cases w <;> rfl
@[simp] theorem withStream_cfgNumLayers (s : State) (w : WriterId) (x : Stream) : (s.withStream w x).cfgNumLayers = s.cfgNumLayers := by cases w <;> rfl
@[simp] theorem withStream_cfgHdrReserve (s : State) (w : WriterId) (x : Stream) : (s.withStream w x).cfgHdrReserve = s.cfgHdrReserve := by cases w <;> rfl
@[simp] theorem withStream_sbValid (s : State) (w : WriterId) (x : Stream) : (s.withStream w x).sbValid = s.sbValid := by cases w <;> rfl
@[simp] theorem withStream_sbBase (s : State) (w : WriterId) (x : Stream) : (s.withStream w x).sbBase = s.sbBase := by cases w <;> rfl
@[simp] theorem withStream_sbCap (s : State) (w : WriterId) (x : Stream) : (s.withStream w x).sbCap = s.sbCap := by cases w <;> rfl
@[simp] theorem withStream_sbHdrBase (s : State) (w : WriterId) (x : Stream) : (s.withStream w x).sbHdrBase = s.sbHdrBase := by cases w <;> rfl
@[simp] theorem withStream_sbHdrCur (s : State) (w : WriterId) (x : Stream) : (s.withStream w x).sbHdrCur = s.sbHdrCur := by cases w <;> rfl
@[simp] theorem withStream_sections (s : State) (w : WriterId) (x : Stream) : (s.withStream w x).sections = s.sections := by cases w <;> rfl
@[simp] theorem withStream_cpbDelay (s : State) (w : WriterId) (x : Stream) : (s.withStream w x).cpbDelay = s.cpbDelay := by cases w <;> rfl
@[simp] theorem withStream_cpbInitDelay (s : State) (w : WriterId) (x : Stream) : (s.withStream w x).cpbInitDelay = s.cpbInitDelay := by cases w <;> rfl
@[simp] theorem withStream_lastTid (s : State) (w : WriterId) (x : Stream) : (s.withStream w x).lastTid = s.lastTid := by cases w <;> rfl
@[simp] theorem withStream_roi (s : State) (w : WriterId) (x : Stream) : (s.withStream w x).roi = s.roi := by cases w <;> rfl
@[simp] theorem withStream_nodes (s : State) (w : WriterId) (x : Stream) : (s.withStream w x).nodes = s.nodes := by cases w <;> rfl
@[simp] theorem withStream_platform (s : State) (w : WriterId) (x : Stream) : (s.withStream w x).platform = s.platform := by cases w <;> rfl
@[simp] theorem withStream_port (s : State) (w : WriterId) (x : Stream) : (s.withStream w x).port = s.port := by cases w <;> rfl
@[simp] theorem withStream_mem (s : State) (w : WriterId) (x : Stream) : (s.withStream w x).mem = x.2 := rfl
@[simp] theorem withStream_writer_same (s : State) (w : WriterId) (x : Stream) :
    (s.withStream w x).writer w = { s.writer w with bitCnt := x.1.bitCnt, ovf := x.1.ovf } := by cases w <;> rfl
theorem withStream_writer_other (s : State) (w w' : WriterId) (x : Stream) (h : w' ≠ w) :
    (s.withStream w x).writer w' = s.writer w' := by
  cases w <;> cases w' <;> first | rfl | exact absurd rfl h
@[simp] theorem withStream_params (s : State) (w : WriterId) (x : Stream) : (s.withStream w x).params = s.params := by
  cases w <;> rfl
@[simp] theorem withStream_memMap (s : State) (w : WriterId) (x : Stream) : (s.withStream w x).memMap = s.memMap := by
  cases w <;> rfl

/-! ### Fault entry -/

@[simp] theorem faultEntry_cmdSeq (h : Word) (c : FaultCause) (b : Nat) (s : State) : (faultEntry h c b s).cmdSeq = s.cmdSeq := rfl
@[simp] theorem faultEntry_res (h : Word) (c : FaultCause) (b : Nat) (s : State) : (faultEntry h c b s).res = s.res := rfl
@[simp] theorem faultEntry_fillerClipped (h : Word) (c : FaultCause) (b : Nat) (s : State) : (faultEntry h c b s).fillerClipped = s.fillerClipped := rfl
@[simp] theorem faultEntry_cfgDropped (h : Word) (c : FaultCause) (b : Nat) (s : State) : (faultEntry h c b s).cfgDropped = s.cfgDropped := rfl
@[simp] theorem faultEntry_halted (h : Word) (c : FaultCause) (b : Nat) (s : State) : (faultEntry h c b s).halted = true := rfl
@[simp] theorem faultEntry_faultCause (h : Word) (c : FaultCause) (b : Nat) (s : State) : (faultEntry h c b s).faultCause = c := rfl
@[simp] theorem faultEntry_faultInfo (h : Word) (c : FaultCause) (b : Nat) (s : State) : (faultEntry h c b s).faultInfo = h := rfl
@[simp] theorem faultEntry_faultSeq (h : Word) (c : FaultCause) (b : Nat) (s : State) : (faultEntry h c b s).faultSeq = s.cmdSeq := rfl
@[simp] theorem faultEntry_faultArg (h : Word) (c : FaultCause) (b : Nat) (s : State) : (faultEntry h c b s).faultArg = (if c = .busError then BitVec.ofNat 32 b else 0#32) := rfl
@[simp] theorem faultEntry_cfgCodec (h : Word) (c : FaultCause) (b : Nat) (s : State) : (faultEntry h c b s).cfgCodec = s.cfgCodec := rfl
@[simp] theorem faultEntry_cfgScLen (h : Word) (c : FaultCause) (b : Nat) (s : State) : (faultEntry h c b s).cfgScLen = s.cfgScLen := rfl
@[simp] theorem faultEntry_cfgAud (h : Word) (c : FaultCause) (b : Nat) (s : State) : (faultEntry h c b s).cfgAud = s.cfgAud := rfl
@[simp] theorem faultEntry_cfgFiller (h : Word) (c : FaultCause) (b : Nat) (s : State) : (faultEntry h c b s).cfgFiller = s.cfgFiller := rfl
@[simp] theorem faultEntry_cfgSeiMask (h : Word) (c : FaultCause) (b : Nat) (s : State) : (faultEntry h c b s).cfgSeiMask = s.cfgSeiMask := rfl
@[simp] theorem faultEntry_cfgNumLayers (h : Word) (c : FaultCause) (b : Nat) (s : State) : (faultEntry h c b s).cfgNumLayers = s.cfgNumLayers := rfl
@[simp] theorem faultEntry_cfgHdrReserve (h : Word) (c : FaultCause) (b : Nat) (s : State) : (faultEntry h c b s).cfgHdrReserve = s.cfgHdrReserve := rfl
@[simp] theorem faultEntry_w0 (h : Word) (c : FaultCause) (b : Nat) (s : State) : (faultEntry h c b s).w0 = s.w0 := rfl
@[simp] theorem faultEntry_w1 (h : Word) (c : FaultCause) (b : Nat) (s : State) : (faultEntry h c b s).w1 = s.w1 := rfl
@[simp] theorem faultEntry_sbValid (h : Word) (c : FaultCause) (b : Nat) (s : State) : (faultEntry h c b s).sbValid = s.sbValid := rfl
@[simp] theorem faultEntry_sbBase (h : Word) (c : FaultCause) (b : Nat) (s : State) : (faultEntry h c b s).sbBase = s.sbBase := rfl
@[simp] theorem faultEntry_sbCap (h : Word) (c : FaultCause) (b : Nat) (s : State) : (faultEntry h c b s).sbCap = s.sbCap := rfl
@[simp] theorem faultEntry_sbHdrBase (h : Word) (c : FaultCause) (b : Nat) (s : State) : (faultEntry h c b s).sbHdrBase = s.sbHdrBase := rfl
@[simp] theorem faultEntry_sbHdrCur (h : Word) (c : FaultCause) (b : Nat) (s : State) : (faultEntry h c b s).sbHdrCur = s.sbHdrCur := rfl
@[simp] theorem faultEntry_sections (h : Word) (c : FaultCause) (b : Nat) (s : State) : (faultEntry h c b s).sections = s.sections := rfl
@[simp] theorem faultEntry_cpbDelay (h : Word) (c : FaultCause) (b : Nat) (s : State) : (faultEntry h c b s).cpbDelay = s.cpbDelay := rfl
@[simp] theorem faultEntry_cpbInitDelay (h : Word) (c : FaultCause) (b : Nat) (s : State) : (faultEntry h c b s).cpbInitDelay = s.cpbInitDelay := rfl
@[simp] theorem faultEntry_lastTid (h : Word) (c : FaultCause) (b : Nat) (s : State) : (faultEntry h c b s).lastTid = s.lastTid := rfl
@[simp] theorem faultEntry_roi (h : Word) (c : FaultCause) (b : Nat) (s : State) : (faultEntry h c b s).roi = s.roi := rfl
@[simp] theorem faultEntry_nodes (h : Word) (c : FaultCause) (b : Nat) (s : State) : (faultEntry h c b s).nodes = s.nodes := rfl
@[simp] theorem faultEntry_platform (h : Word) (c : FaultCause) (b : Nat) (s : State) : (faultEntry h c b s).platform = s.platform := rfl
@[simp] theorem faultEntry_mem (h : Word) (c : FaultCause) (b : Nat) (s : State) : (faultEntry h c b s).mem = s.mem := rfl
@[simp] theorem faultEntry_port (h : Word) (c : FaultCause) (b : Nat) (s : State) : (faultEntry h c b s).port = s.port := rfl
@[simp] theorem faultEntry_params (h : Word) (c : FaultCause) (b : Nat) (s : State) : (faultEntry h c b s).params = s.params := rfl
@[simp] theorem faultEntry_memMap (h : Word) (c : FaultCause) (b : Nat) (s : State) : (faultEntry h c b s).memMap = s.memMap := rfl

/-! ### The host's reset -/

@[simp] theorem hostReset_mem (s : State) : (hostReset s).mem = s.mem := rfl
@[simp] theorem hostReset_platform (s : State) : (hostReset s).platform = s.platform := rfl
@[simp] theorem hostReset_port (s : State) : (hostReset s).port = [] := rfl
@[simp] theorem hostReset_halted (s : State) : (hostReset s).halted = false := rfl

/-! ### The payload source -/

@[simp] theorem payload_seiUdu (s : State) (layer : Nat) (ctx : PayloadCtx) :
    s.payload .seiUdu layer ctx =
      s.uduUuid.toList ++ s.uduBefore ctx ++ (s.sliceCountCode ctx.record.sliceCount).bytes ++ s.uduAfter ctx := rfl
@[simp] theorem sliceCountCode_bytes_ne_nil (c : SliceCountCode) : c.bytes ≠ [] := List.cons_ne_nil _ _
theorem hostReset_payload (s : State) (kind : PayloadKind) (layer : Nat) (ctx : PayloadCtx) :
    (hostReset s).payload kind layer ctx = s.payload kind layer ctx := rfl

end Sys2Proof.Machine
end

