-- ==== Sys2Proof/Laws/Stream.lean ====
section
/-! SUPPORT. The laws of the bit writer: what one bit, one put, one skip and a sequence of them do to a writer and to memory
(40_bitwriter.md R153, R162). -/

namespace Sys2Proof.Machine

/-- Replacing one bit of a byte sets that bit and keeps the others. -/
theorem getLsbD_setBit (old : Byte) (pos j : Nat) (v : Bool) (hp : pos < 8) (hj : j < 8) :
    (setBit old pos v).getLsbD j = if j = pos then v else old.getLsbD j := by
  unfold setBit
  by_cases h : j = pos
  · subst h
    cases v <;> simp [hj]
  · have h1 : ¬(pos ≤ j ∧ j - pos = 0) := by omega
    cases v <;> simp [hj, h] <;> intros <;> omega

theorem wf_writeStreamBit (m : Memory) (base k : Nat) (v : Bool) (h : m.wf = true) :
    (writeStreamBit m base k v).wf = true := wf_writeByte _ _ _ h

theorem wf_writeStreamBits (n : Nat) (m : Memory) (base k v : Nat) (h : m.wf = true) :
    (writeStreamBits m base k n v).wf = true := by
  induction n generalizing m k with
  | zero => exact h
  | succ n ih => exact ih _ _ (wf_writeStreamBit m base k _ h)

/-- One stream bit's write keeps every other bit of memory. -/
theorem getLsbD_writeStreamBit_other (m : Memory) (base k a j : Nat) (v : Bool) (h : m.wf = true) (hj : j < 8)
    (hne : ¬(a = base + k / 8 ∧ j = 7 - k % 8)) :
    (readByte (writeStreamBit m base k v) a).getLsbD j = (readByte m a).getLsbD j := by
  unfold writeStreamBit
  by_cases ha : a = base + k / 8
  · by_cases hs : base + k / 8 < addressSpace
    · rw [ha, readByte_writeByte_same _ _ _ h hs, getLsbD_setBit _ _ _ _ (by omega) hj]
      rw [if_neg (fun e => hne ⟨ha, e⟩)]
    · unfold writeByte
      rw [if_neg hs]
  · rw [readByte_writeByte_other _ _ _ _ ha]

/-- One stream bit's write is read back, at an address of the port. -/
theorem readStreamBit_writeStreamBit_same (m : Memory) (base k : Nat) (v : Bool) (h : m.wf = true)
    (hs : base + k / 8 < addressSpace) : readStreamBit (writeStreamBit m base k v) base k = v := by
  unfold readStreamBit writeStreamBit
  rw [readByte_writeByte_same _ _ _ h hs, getLsbD_setBit _ _ _ _ (by omega) (by omega), if_pos rfl]

/-- The bits of a put keep every bit of memory they do not name. -/
theorem getLsbD_writeStreamBits_other (n : Nat) (m : Memory) (base k v a j : Nat) (h : m.wf = true) (hj : j < 8)
    (hne : ∀ i, i < n → ¬(a = base + (k + i) / 8 ∧ j = 7 - (k + i) % 8)) :
    (readByte (writeStreamBits m base k n v) a).getLsbD j = (readByte m a).getLsbD j := by
  induction n generalizing m k with
  | zero => rfl
  | succ n ih =>
    rw [writeStreamBits, ih _ _ (wf_writeStreamBit m base k _ h)
      (fun i hi => by have := hne (i + 1) (by omega); rwa [show k + (i + 1) = k + 1 + i by omega] at this)]
    exact getLsbD_writeStreamBit_other m base k a j _ h hj (by simpa using hne 0 (by omega))

/-- The bits of a put are read back, the most significant first. -/
theorem readStreamBit_writeStreamBits (n : Nat) (m : Memory) (base k v i : Nat) (h : m.wf = true) (hi : i < n)
    (hs : base + (k + n + 7) / 8 ≤ addressSpace) :
    readStreamBit (writeStreamBits m base k n v) base (k + i) = v.testBit (n - 1 - i) := by
  induction n generalizing m k i with
  | zero => omega
  | succ n ih =>
    rw [writeStreamBits]
    cases i with
    | zero =>
      have hkeep := getLsbD_writeStreamBits_other n (writeStreamBit m base k (v.testBit n)) base (k + 1) v (base + k / 8)
        (7 - k % 8) (wf_writeStreamBit m base k _ h) (by omega) (by intro i hi; omega)
      have hsame := readStreamBit_writeStreamBit_same m base k (v.testBit n) h (by omega)
      simp only [readStreamBit, Nat.add_zero] at hsame ⊢
      rw [hkeep, hsame]
      simp
    | succ i =>
      have := ih (writeStreamBit m base k (v.testBit n)) (k + 1) i (wf_writeStreamBit m base k _ h) (by omega) (by omega)
      rw [show k + (i + 1) = k + 1 + i by omega, this]
      congr 1
      omega

/-- The bits of a put change no byte outside those that hold them. -/
theorem readByte_writeStreamBits_outside (n : Nat) (m : Memory) (base k v a : Nat)
    (h : a < base + k / 8 ∨ base + (k + n + 7) / 8 ≤ a) :
    readByte (writeStreamBits m base k n v) a = readByte m a := by
  induction n generalizing m k with
  | zero => rfl
  | succ n ih =>
    rw [writeStreamBits, ih _ _ (by omega), writeStreamBit, readByte_writeByte_other _ _ _ _ (by omega)]

/-! ### One put or skip -/

@[simp] theorem putBits_base (n v : Nat) (x : Stream) : (putBits n v x).1.base = x.1.base := by
  unfold putBits; split <;> rfl
@[simp] theorem putBits_maxBits (n v : Nat) (x : Stream) : (putBits n v x).1.maxBits = x.1.maxBits := by
  unfold putBits; split <;> rfl
@[simp] theorem putBits_bitCnt (n v : Nat) (x : Stream) : (putBits n v x).1.bitCnt = x.1.bitCnt + n := by
  unfold putBits; split <;> rfl
@[simp] theorem skipBits_base (n : Nat) (x : Stream) : (skipBits n x).1.base = x.1.base := rfl
@[simp] theorem skipBits_maxBits (n : Nat) (x : Stream) : (skipBits n x).1.maxBits = x.1.maxBits := rfl
@[simp] theorem skipBits_bitCnt (n : Nat) (x : Stream) : (skipBits n x).1.bitCnt = x.1.bitCnt + n := rfl
@[simp] theorem skipBits_mem (n : Nat) (x : Stream) : (skipBits n x).2 = x.2 := rfl

theorem rejects_iff (wr : BitWriter) (n : Nat) :
    rejects wr n = true ↔ wr.ovf = true ∨ wr.maxBits < wr.bitCnt + n := by
  simp [rejects]

theorem putBits_ovf (n v : Nat) (x : Stream) :
    (putBits n v x).1.ovf = true ↔ x.1.ovf = true ∨ x.1.maxBits < x.1.bitCnt + n := by
  unfold putBits
  split
  · rename_i h
    simpa using (rejects_iff x.1 n).1 h
  · rename_i h
    have hn : ¬(x.1.ovf = true ∨ x.1.maxBits < x.1.bitCnt + n) := fun e => h ((rejects_iff x.1 n).2 e)
    constructor
    · intro e; exact Or.inl e
    · intro e; exact absurd e hn

theorem skipBits_ovf (n : Nat) (x : Stream) :
    (skipBits n x).1.ovf = true ↔ x.1.ovf = true ∨ x.1.maxBits < x.1.bitCnt + n := by
  simp [skipBits]

theorem putBits_rejected (n v : Nat) (x : Stream) (h : x.1.ovf = true ∨ x.1.maxBits < x.1.bitCnt + n) :
    (putBits n v x).2 = x.2 := by
  unfold putBits
  rw [if_pos ((rejects_iff x.1 n).2 h)]

theorem putBits_fits (n v : Nat) (x : Stream) (ho : x.1.ovf = false) (hr : x.1.bitCnt + n ≤ x.1.maxBits) :
    putBits n v x = ({ x.1 with bitCnt := x.1.bitCnt + n }, writeStreamBits x.2 x.1.base x.1.bitCnt n v) := by
  unfold putBits
  rw [if_neg]
  rw [rejects_iff]
  simp [ho]; omega

theorem wf_putBits (n v : Nat) (x : Stream) (h : x.2.wf = true) : (putBits n v x).2.wf = true := by
  unfold putBits
  split
  · exact h
  · exact wf_writeStreamBits _ _ _ _ _ h

/-- What a put does, bit by bit. -/
theorem putBits_lands (n v : Nat) (x : Stream) (h : StreamOk x) : PutLands n v x (putBits n v x) where
  base := putBits_base n v x
  capacity := putBits_maxBits n v x
  counted := putBits_bitCnt n v x
  flagged := putBits_ovf n v x
  rejected := putBits_rejected n v x
  written ho hr i hi := by
    rw [putBits_fits n v x ho hr]
    refine readStreamBit_writeStreamBits n x.2 x.1.base x.1.bitCnt v i h.memory hi ?_
    have := h.space
    unfold capacityBytes at this
    omega
  kept ho hr a j hj hne := by
    rw [putBits_fits n v x ho hr]
    exact getLsbD_writeStreamBits_other n x.2 x.1.base x.1.bitCnt v a j h.memory hj hne

/-- A put changes no byte outside the writer's capacity. -/
theorem readByte_putBits_outside (n v : Nat) (x : Stream) (a : Nat)
    (h : a < x.1.base ∨ x.1.base + capacityBytes x.1.maxBits ≤ a) : readByte (putBits n v x).2 a = readByte x.2 a := by
  by_cases hr : x.1.ovf = true ∨ x.1.maxBits < x.1.bitCnt + n
  · rw [putBits_rejected n v x hr]
  · have ho : x.1.ovf = false := by
      cases hh : x.1.ovf
      · rfl
      · exact absurd (Or.inl hh) hr
    have hb : x.1.bitCnt + n ≤ x.1.maxBits := by omega
    rw [putBits_fits n v x ho hb]
    refine readByte_writeStreamBits_outside n x.2 x.1.base x.1.bitCnt v a ?_
    unfold capacityBytes at h
    omega

/-! ### A sequence of puts and skips -/

@[simp] theorem run_base (o : StreamOp) (x : Stream) : (o.run x).1.base = x.1.base := by cases o <;> simp [StreamOp.run]
@[simp] theorem run_maxBits (o : StreamOp) (x : Stream) : (o.run x).1.maxBits = x.1.maxBits := by
  cases o <;> simp [StreamOp.run]
@[simp] theorem run_bitCnt (o : StreamOp) (x : Stream) : (o.run x).1.bitCnt = x.1.bitCnt + o.size := by
  cases o <;> simp [StreamOp.run, StreamOp.size]
theorem run_ovf (o : StreamOp) (x : Stream) :
    (o.run x).1.ovf = true ↔ x.1.ovf = true ∨ x.1.maxBits < x.1.bitCnt + o.size := by
  cases o
  · exact putBits_ovf _ _ _
  · exact skipBits_ovf _ _
theorem wf_run (o : StreamOp) (x : Stream) (h : x.2.wf = true) : (o.run x).2.wf = true := by
  cases o
  · exact wf_putBits _ _ _ h
  · exact h
theorem readByte_run_outside (o : StreamOp) (x : Stream) (a : Nat)
    (h : a < x.1.base ∨ x.1.base + capacityBytes x.1.maxBits ≤ a) : readByte (o.run x).2 a = readByte x.2 a := by
  cases o
  · exact readByte_putBits_outside _ _ _ _ h
  · rfl
theorem run_rejected (o : StreamOp) (x : Stream) (h : x.1.ovf = true) : (o.run x).2 = x.2 := by
  cases o
  · exact putBits_rejected _ _ _ (Or.inl h)
  · rfl
theorem streamOk_run (o : StreamOp) (x : Stream) (h : StreamOk x) : StreamOk (o.run x) where
  memory := wf_run o x h.memory
  space := by simpa using h.space

/-- What one operation does. -/
theorem run_lands (o : StreamOp) (x : Stream) (h : StreamOk x) : OpLands o x (o.run x) := by
  cases o with
  | put n v => exact putBits_lands n v x h
  | skip n => exact ⟨rfl, rfl, rfl, skipBits_ovf n x, rfl⟩

@[simp] theorem runOps_nil (x : Stream) : runOps [] x = x := rfl
@[simp] theorem runOps_cons (o : StreamOp) (ops : List StreamOp) (x : Stream) :
    runOps (o :: ops) x = runOps ops (o.run x) := rfl
theorem runOps_append (a b : List StreamOp) (x : Stream) : runOps (a ++ b) x = runOps b (runOps a x) := by
  simp [runOps]

@[simp] theorem runOps_base (ops : List StreamOp) (x : Stream) : (runOps ops x).1.base = x.1.base := by
  induction ops generalizing x with
  | nil => rfl
  | cons o t ih => simp [ih]
@[simp] theorem runOps_maxBits (ops : List StreamOp) (x : Stream) : (runOps ops x).1.maxBits = x.1.maxBits := by
  induction ops generalizing x with
  | nil => rfl
  | cons o t ih => simp [ih]
@[simp] theorem runOps_bitCnt (ops : List StreamOp) (x : Stream) :
    (runOps ops x).1.bitCnt = x.1.bitCnt + opsSize ops := by
  induction ops generalizing x with
  | nil => rfl
  | cons o t ih => simp [ih, opsSize]; omega
theorem wf_runOps (ops : List StreamOp) (x : Stream) (h : x.2.wf = true) : (runOps ops x).2.wf = true := by
  induction ops generalizing x with
  | nil => exact h
  | cons o t ih => exact ih _ (wf_run o x h)
theorem readByte_runOps_outside (ops : List StreamOp) (x : Stream) (a : Nat)
    (h : a < x.1.base ∨ x.1.base + capacityBytes x.1.maxBits ≤ a) : readByte (runOps ops x).2 a = readByte x.2 a := by
  induction ops generalizing x with
  | nil => rfl
  | cons o t ih => rw [runOps_cons, ih _ (by simpa using h), readByte_run_outside o x a h]
/-- A writer that has overflowed stays so, and writes nothing. -/
theorem runOps_overflowed (ops : List StreamOp) (x : Stream) (h : x.1.ovf = true) :
    (runOps ops x).1.ovf = true ∧ (runOps ops x).2 = x.2 := by
  induction ops generalizing x with
  | nil => exact ⟨h, rfl⟩
  | cons o t ih =>
    have := ih (o.run x) ((run_ovf o x).2 (Or.inl h))
    rw [runOps_cons]
    exact ⟨this.1, this.2.trans (run_rejected o x h)⟩
/-- OVF clear at the end means that everything fitted. -/
theorem runOps_clear (ops : List StreamOp) (x : Stream) (hx : x.1.ovf = false → x.1.bitCnt ≤ x.1.maxBits)
    (h : (runOps ops x).1.ovf = false) : x.1.bitCnt + opsSize ops ≤ x.1.maxBits := by
  have key : ∀ (ops : List StreamOp) (x : Stream), (x.1.ovf = false → x.1.bitCnt ≤ x.1.maxBits) →
      ((runOps ops x).1.ovf = false → (runOps ops x).1.bitCnt ≤ (runOps ops x).1.maxBits) := by
    intro ops
    induction ops with
    | nil => intro x hx h; exact hx h
    | cons o t ih =>
      intro x _ h
      refine ih (o.run x) ?_ h
      intro ho
      have : ¬(x.1.ovf = true ∨ x.1.maxBits < x.1.bitCnt + o.size) := by
        rw [← run_ovf]; simp [ho]
      rw [run_bitCnt, run_maxBits]
      omega
  have := key ops x hx h
  simpa using this
/-- With OVF clear and room for everything, nothing overflows. -/
theorem runOps_fits (ops : List StreamOp) (x : Stream) (ho : x.1.ovf = false)
    (hr : x.1.bitCnt + opsSize ops ≤ x.1.maxBits) : (runOps ops x).1.ovf = false := by
  induction ops generalizing x with
  | nil => exact ho
  | cons o t ih =>
    have hs : opsSize (o :: t) = o.size + opsSize t := by simp [opsSize]
    rw [runOps_cons]
    refine ih _ ?_ (by rw [run_bitCnt, run_maxBits]; omega)
    have : ¬(o.run x).1.ovf = true := by rw [run_ovf]; simp [ho]; omega
    simpa using this

/-! ### The block's own sequences, as operations -/

theorem emitBytes_eq (bs : List Byte) (x : Stream) : emitBytes bs x = runOps (emitOps bs) x := by
  induction bs generalizing x with
  | nil => rfl
  | cons b t ih => exact ih _

theorem putUe_eq (v : Nat) (x : Stream) :
    putUe v x = runOps [.put (Nat.log2 (v + 1)) 0, .put (Nat.log2 (v + 1) + 1) (v + 1)] x := rfl

@[simp] theorem opsSize_emitOps (bs : List Byte) : opsSize (emitOps bs) = 8 * bs.length := by
  induction bs with
  | nil => rfl
  | cons b t ih => simp [opsSize, emitOps, StreamOp.size] at ih ⊢; omega

@[simp] theorem opsSize_append (a b : List StreamOp) : opsSize (a ++ b) = opsSize a + opsSize b := by simp [opsSize]
@[simp] theorem opsSize_nil : opsSize [] = 0 := rfl
@[simp] theorem opsSize_cons (o : StreamOp) (l : List StreamOp) : opsSize (o :: l) = o.size + opsSize l := by
  simp [opsSize]

theorem emitOps_append (a b : List Byte) : emitOps (a ++ b) = emitOps a ++ emitOps b := by simp [emitOps]

end Sys2Proof.Machine
end

