-- ==== Sys2Proof/Laws/Ops.lean ====
section
/-! SUPPORT. What each shared operation can do, said once: completing, faulting, the shape of a writer command, a register's
write, and one step of the block. -/

namespace Sys2Proof.Machine

@[simp] theorem complete_eq_next (s t : State) : complete s = .next t ↔ { s with cmdSeq := s.cmdSeq + 1#32 } = t := by
  simp [complete]

@[simp] theorem completeWith_eq_next (r : Word) (s t : State) :
    completeWith r s = .next t ↔ { s with res := r, cmdSeq := s.cmdSeq + 1#32 } = t := by
  simp [completeWith]

@[simp] theorem raise_eq_next (i : Instr) (c : FaultCause) (s t : State) :
    raise i c s = .next t ↔ faultEntry (headerWord i) c 0 s = t := by
  simp [raise]

@[simp] theorem raiseBus_eq_next (i : Instr) (b : Nat) (s t : State) :
    raiseBus i b s = .next t ↔ faultEntry (headerWord i) .busError b s = t := by
  simp [raiseBus]

/-- A writer command faults on its operands, faults on VALID, or runs its effect on the stream. -/
theorem writerCommand_cases {i : Instr} {ok : Bool} {w : WriterId} {f : Stream → Stream} {s t : State}
    (h : writerCommand i ok w f s = .next t) :
    (ok = false ∧ t = faultEntry (headerWord i) .operandRange 0 s) ∨
      (ok = true ∧ (s.writer w).valid = false ∧ t = faultEntry (headerWord i) .notInitialised 0 s) ∨
      (ok = true ∧ (s.writer w).valid = true ∧
        t = { s.withStream w (f (s.stream w)) with cmdSeq := s.cmdSeq + 1#32 }) := by
  unfold writerCommand at h
  split at h
  · rename_i hok
    split at h
    · rename_i hv
      exact Or.inr (Or.inr ⟨hok, hv, by rw [← (complete_eq_next _ _).1 h, withStream_cmdSeq]⟩)
    · rename_i hv
      exact Or.inr (Or.inl ⟨hok, by simpa using hv, ((raise_eq_next _ _ _ _).1 h).symm⟩)
  · rename_i hok
    exact Or.inl ⟨by simpa using hok, ((raise_eq_next _ _ _ _).1 h).symm⟩

/-- A writer query faults on VALID, or answers. -/
theorem writerQuery_cases {i : Instr} {w : WriterId} {f : HostWriter → Word} {s t : State}
    (h : writerQuery i w f s = .next t) :
    ((s.writer w).valid = false ∧ t = faultEntry (headerWord i) .notInitialised 0 s) ∨
      ((s.writer w).valid = true ∧ t = { s with res := f (s.writer w), cmdSeq := s.cmdSeq + 1#32 }) := by
  unfold writerQuery at h
  split at h
  · rename_i hv
    exact Or.inr ⟨hv, ((completeWith_eq_next _ _ _).1 h).symm⟩
  · rename_i hv
    exact Or.inl ⟨by simpa using hv, ((raise_eq_next _ _ _ _).1 h).symm⟩

/-- A register's write changes configuration registers and STATUS bits 1:0 only, and CFG_NUM_LAYERS stays from 1 to
MAX_LAYERS. -/
theorem writeReg_cases {s t : State} {r : RegName} {v : Word} (h : writeReg s r v = some t) :
    t = { s with
      fillerClipped := t.fillerClipped, cfgDropped := t.cfgDropped, cfgCodec := t.cfgCodec, cfgScLen := t.cfgScLen,
      cfgAud := t.cfgAud, cfgFiller := t.cfgFiller, cfgSeiMask := t.cfgSeiMask, cfgNumLayers := t.cfgNumLayers,
      cfgHdrReserve := t.cfgHdrReserve } ∧
    (t.cfgNumLayers = s.cfgNumLayers ∨
      (1 ≤ t.cfgNumLayers.toNat ∧ t.cfgNumLayers.toNat ≤ s.params.maxLayers.toNat)) := by
  unfold writeReg at h
  split at h
  · split at h
    · cases h; exact ⟨rfl, Or.inl rfl⟩
    · cases h
  · rw [Option.map_eq_some_iff] at h
    obtain ⟨c, _, rfl⟩ := h; exact ⟨rfl, Or.inl rfl⟩
  · rw [Option.map_eq_some_iff] at h
    obtain ⟨c, _, rfl⟩ := h; exact ⟨rfl, Or.inl rfl⟩
  · rw [Option.map_eq_some_iff] at h
    obtain ⟨c, _, rfl⟩ := h; exact ⟨rfl, Or.inl rfl⟩
  · rw [Option.map_eq_some_iff] at h
    obtain ⟨c, _, rfl⟩ := h; exact ⟨rfl, Or.inl rfl⟩
  · split at h
    · cases h; exact ⟨rfl, Or.inl rfl⟩
    · cases h
  · split at h
    · cases h
    · rename_i hv
      cases h
      refine ⟨rfl, Or.inr ⟨?_, by show v.toNat ≤ _; omega⟩⟩
      have : v ≠ 0#32 := fun e => hv (Or.inl e)
      have : v.toNat ≠ 0 := fun e => this (BitVec.eq_of_toNat_eq (by simpa using e))
      show 1 ≤ v.toNat
      omega
  · cases h; exact ⟨rfl, Or.inl rfl⟩
  · cases h

/-- One step: a halted block discards a word; a block without a whole command keeps its state; an illegal header faults; a
whole command is executed. -/
theorem step_cases {s t : State} (h : step s = .next t) :
    (s.halted = true ∧ t = { s with port := s.port.tail }) ∨
      (s.halted = false ∧ (∀ i rest, decode s.port ≠ .command i rest) ∧
        (t = s ∨ ∃ hw rest, t = faultEntry hw .illegalCommand 0 { s with port := rest })) ∨
      (s.halted = false ∧ ∃ i rest, decode s.port = .command i rest ∧ exec i { s with port := rest } = .next t) := by
  unfold step blockStep at h
  split at h
  · rename_i hh
    exact Or.inl ⟨hh, by simpa using h.symm⟩
  · rename_i hh
    have hh : s.halted = false := by simpa using hh
    split at h
    · rename_i hd
      exact Or.inr (Or.inl ⟨hh, by simp [hd], Or.inl (by simpa using h.symm)⟩)
    · rename_i hd
      exact Or.inr (Or.inl ⟨hh, by simp [hd], Or.inl (by simpa using h.symm)⟩)
    · rename_i hw rest hd
      exact Or.inr (Or.inl ⟨hh, by simp [hd], Or.inr ⟨hw, rest, by simpa using h.symm⟩⟩)
    · rename_i hw rest hd
      exact Or.inr (Or.inl ⟨hh, by simp [hd], Or.inr ⟨hw, rest, by simpa using h.symm⟩⟩)
    · rename_i i rest hd
      exact Or.inr (Or.inr ⟨hh, i, rest, hd, h⟩)

end Sys2Proof.Machine
end

