-- ==== Sys2Proof/Laws/Nal.lean ====
section
/-! SUPPORT. The laws of NAL framing: Filler as a sequence of puts and skips (41_nal.md R212 to R214), and whole bytes emitted
at a byte boundary. -/

namespace Sys2Proof.Machine

/-- Operations inside Filler, noting the first rejection. -/
def fillerOpsRun (ops : List StreamOp) (r : FillerRun) : FillerRun := ops.foldl (fun r o => fillerOp o.size o.run r) r

theorem fillerOpsRun_stream (ops : List StreamOp) (r : FillerRun) :
    (fillerOpsRun ops r).stream = runOps ops r.stream := by
  induction ops generalizing r with
  | nil => rfl
  | cons o t ih => exact ih _

theorem run_writer_of_fits (o : StreamOp) (x : Stream) (h : ¬(x.1.ovf = true ∨ x.1.maxBits < x.1.bitCnt + o.size)) :
    (o.run x).1 = { x.1 with bitCnt := x.1.bitCnt + o.size } := by
  have hv : (o.run x).1.ovf = x.1.ovf := by
    have h1 := run_ovf o x
    have h2 : x.1.ovf = false := by
      cases hh : x.1.ovf
      · rfl
      · exact absurd (Or.inl hh) h
    have h3 : ¬(o.run x).1.ovf = true := fun e => h (h1.1 e)
    rw [h2]
    simpa using h3
  have hb := run_base o x
  have hm := run_maxBits o x
  have hc := run_bitCnt o x
  cases hx : (o.run x).1 with
  | mk a b c d => rw [hx] at hv hb hm hc; simp at hv hb hm hc; simp [hv, hb, hm, hc]

theorem fillerOpsRun_firstRej (ops : List StreamOp) (r : FillerRun) :
    (fillerOpsRun ops r).firstRej = (match r.firstRej with
      | some k => some k
      | none => firstRejected ops r.stream.1) := by
  induction ops generalizing r with
  | nil => cases h : r.firstRej <;> simp [fillerOpsRun, firstRejected, h]
  | cons o t ih =>
    show (fillerOpsRun t (fillerOp o.size o.run r)).firstRej = _
    rw [ih]
    cases h : r.firstRej with
    | some k => simp [fillerOp, h]
    | none =>
      by_cases hr : r.stream.1.ovf = true ∨ r.stream.1.maxBits < r.stream.1.bitCnt + o.size
      · simp [fillerOp, h, firstRejected, hr, (rejects_iff _ _).2 hr]
      · have hrj : rejects r.stream.1 o.size = false := by
          simpa using fun e => hr ((rejects_iff _ _).1 e)
        simp only [fillerOp, h, firstRejected, if_neg hr, hrj, Bool.false_eq_true, if_false]
        rw [run_writer_of_fits o r.stream hr]

theorem fillerEmits_eq (bs : List Byte) (r : FillerRun) : fillerEmits bs r = fillerOpsRun (emitOps bs) r := by
  induction bs generalizing r with
  | nil => rfl
  | cons b t ih => exact ih _

/-- Filler is the sequence of its operations. -/
theorem fillerRun_eq (head : List Byte) (budget : Nat) (df : Bool) (x : Stream) :
    fillerRun head budget df x = fillerOpsRun (fillerOps head budget df x.1) { stream := x, firstRej := none } := by
  have happ : ∀ a b r, fillerOpsRun (a ++ b) r = fillerOpsRun b (fillerOpsRun a r) := by
    intro a b r; simp [fillerOpsRun]
  unfold fillerRun fillerOps
  simp only [fillerEmits_eq, happ]
  have hfill : fillCount budget head.length (fillerOpsRun (emitOps head) { stream := x, firstRej := none }).stream.1 =
      min (budget - head.length) ((x.1.maxBits - (x.1.bitCnt + 8 * head.length)) / 8) - 1 := by
    rw [fillerOpsRun_stream]
    simp [fillCount]
  rw [hfill]
  cases df with
  | false => rfl
  | true =>
    simp only [if_true]
    split <;> rfl

/-- The stream that Filler leaves. -/
theorem fillerRun_stream (head : List Byte) (budget : Nat) (df : Bool) (x : Stream) :
    (fillerRun head budget df x).stream = runOps (fillerOps head budget df x.1) x := by
  rw [fillerRun_eq, fillerOpsRun_stream]

/-- Where Filler was first rejected. -/
theorem fillerRun_firstRej (head : List Byte) (budget : Nat) (df : Bool) (x : Stream) :
    (fillerRun head budget df x).firstRej = firstRejected (fillerOps head budget df x.1) x.1 := by
  rw [fillerRun_eq, fillerOpsRun_firstRej]

/-- With OVF clear and room for everything, no operation is rejected. -/
theorem firstRejected_fits (ops : List StreamOp) (wr : BitWriter) (ho : wr.ovf = false)
    (hr : wr.bitCnt + opsSize ops ≤ wr.maxBits) : firstRejected ops wr = none := by
  induction ops generalizing wr with
  | nil => rfl
  | cons o t ih =>
    have hs : opsSize (o :: t) = o.size + opsSize t := by simp
    rw [firstRejected, if_neg (by simp [ho]; omega)]
    exact ih _ ho (by show wr.bitCnt + o.size + opsSize t ≤ wr.maxBits; omega)

/-- A whole byte put at a byte boundary that has room for it is that byte of memory, and no other byte changes. -/
theorem emit8_aligned (b : Byte) (x : Stream) (h : StreamOk x) (hr : AlignedRoom x.1 1) :
    readByte (putBits 8 b.toNat x).2 (nextByte x.1) = b ∧
      ∀ a, a ≠ nextByte x.1 → readByte (putBits 8 b.toNat x).2 a = readByte x.2 a := by
  obtain ⟨ho, ha, hm⟩ := hr
  have hl := putBits_lands 8 b.toNat x h
  constructor
  · apply BitVec.eq_of_getLsbD_eq
    intro j hj
    have := hl.written ho (by omega) (7 - j) (by omega)
    unfold readStreamBit at this
    rw [show (x.1.bitCnt + (7 - j)) / 8 = x.1.bitCnt / 8 by omega, show 7 - (x.1.bitCnt + (7 - j)) % 8 = j by omega,
      show 8 - 1 - (7 - j) = j by omega] at this
    exact this
  · intro a hne
    rw [putBits_fits 8 b.toNat x ho (by omega)]
    apply readByte_writeStreamBits_outside
    unfold nextByte at hne
    omega

/-- Bytes emitted into a writer with room for fewer of them are first rejected where the room ends. -/
theorem firstRejected_clipped (bs : List Byte) (wr : BitWriter) (room : Nat) (ho : wr.ovf = false)
    (hm : wr.maxBits = wr.bitCnt + 8 * room) (hr : room < bs.length) :
    firstRejected (emitOps bs) wr = some (wr.bitCnt + 8 * room) := by
  induction bs generalizing wr room with
  | nil => simp at hr
  | cons b t ih =>
    simp only [emitOps, List.map_cons, firstRejected, StreamOp.size, ho]
    cases room with
    | zero => rw [if_pos (by simp; omega)]; simp
    | succ room =>
      rw [if_neg (by simp; omega)]
      have h := ih { wr with bitCnt := wr.bitCnt + 8 } room ho (by simp; omega) (by simpa using hr)
      rw [emitOps] at h
      simp only [ho] at h
      rw [h]
      simp
      omega

/-- The landed bytes of a filler on a fresh writer of `room` whole bytes (R212, R266). -/
theorem landedBytes_fresh (head : List Byte) (budget : Nat) (df : Bool) (x : Stream) (room : Nat) (ho : x.1.ovf = false)
    (hb : x.1.bitCnt = 0) (hm : x.1.maxBits = 8 * room) :
    landedBytes x (fillerRun head budget df x) = min room (max (head.length + 1) budget) := by
  unfold landedBytes
  rw [ho, fillerRun_firstRej, fillerRun_stream, runOps_bitCnt]
  set h := head.length with hh
  have hspace : min (budget - head.length) ((x.1.maxBits - (x.1.bitCnt + 8 * head.length)) / 8) - 1 =
      min (budget - h) (room - h) - 1 := by rw [hb, hm]; omega
  by_cases hr : room ≤ h
  · have hops : fillerOps head budget df x.1 = emitOps (head ++ [0x80#8]) := by
      unfold fillerOps
      simp only [hspace]
      rw [show min (budget - h) (room - h) - 1 = 0 by omega]
      cases df <;> simp [emitOps]
    rw [hops, firstRejected_clipped _ _ room ho (by omega) (by simp; omega)]
    simp [hb]
    omega
  · set fill := min (budget - h) (room - h) - 1 with hf
    have hsize : opsSize (fillerOps head budget df x.1) = 8 * (h + fill + 1) := by
      unfold fillerOps
      simp only [hspace]
      cases df
      · simp [StreamOp.size]; omega
      · simp only [if_true]; split <;> simp [StreamOp.size] <;> omega
    rw [firstRejected_fits _ _ ho (by rw [hsize]; omega), hsize, hb]
    simp
    omega

end Sys2Proof.Machine
end

