-- ==== Sys2Proof/Laws/Exec.lean ====
section
/-! SUPPORT. What executing a command can do, said once: it faults, and the state is the fault entry's, or it completes in one
of the forms of `Completed`. -/

namespace Sys2Proof.Machine

/-- A command that ran operations on a valid writer. -/
def RanOn (w : WriterId) (s t : State) : Prop :=
  (s.writer w).valid = true ∧ ∃ ops r,
    t = { s.withStream w (runOps ops (s.stream w)) with res := r, cmdSeq := s.cmdSeq + 1#32 }

/-- A command that only answered. -/
def Answered (s t : State) : Prop := ∃ r, t = { s with res := r, cmdSeq := s.cmdSeq + 1#32 }

/-- The checks a completed command has passed that later proofs need, and the state it leaves. -/
def Completed : Instr → State → State → Prop
  | .nop, s, t => t = { s with cmdSeq := s.cmdSeq + 1#32 }
  | .regRd _, s, t => Answered s t
  | .regWr reg value, s, t => ∃ r u, regOfNat reg.toNat = some r ∧ writeReg s r value = some u ∧
      t = { u with cmdSeq := s.cmdSeq + 1#32 }
  | .bwInit w base maxBits, s, t => admitFail s.memMap base.toNat (capacityBytes maxBits.toNat) = none ∧
      t = { s.setWriter w { valid := true, base := base, maxBits := maxBits, bitCnt := 0, ovf := false } with
            cmdSeq := s.cmdSeq + 1#32 }
  | .bwPutbits w _ _, s, t => RanOn w s t
  | .bwPutbit w _, s, t => RanOn w s t
  | .bwPutu w _ _, s, t => RanOn w s t
  | .bwPuts w _ _, s, t => RanOn w s t
  | .bwPutue w _, s, t => RanOn w s t
  | .bwPutse w _, s, t => RanOn w s t
  | .bwAlign w _, s, t => RanOn w s t
  | .bwTrail w, s, t => RanOn w s t
  | .bwSkip w n, s, t => (s.writer w).valid = true ∧
      t = { s.withStream w (skipBits n.toNat (s.stream w)) with cmdSeq := s.cmdSeq + 1#32 }
  | .bwGetbits _, s, t => Answered s t
  | .bwGetdata _, s, t => Answered s t
  | .bwGetwptr _, s, t => Answered s t
  | .nalMkhdr _ _ _, s, t => Answered s t
  | .nalStart w _ _, s, t => RanOn w s t
  | .nalEpcopy w _ _, s, t => RanOn w s t
  | .nalFiller w _ _ _ _, s, t => RanOn w s t
  | .secAttach base cap, s, t => admitFail s.memMap base.toNat cap.toNat = none ∧
      t = { s with
            sbBase := base, sbCap := cap, sbValid := true, sections := [], sbHdrBase := 0#32, sbHdrCur := 0#32,
            cmdSeq := s.cmdSeq + 1#32 }
  | .secAdd offset length flags, s, t => sectionFlagsOk flags = true ∧ s.sbValid = true ∧
      checkPlan s [{ off := offset.toNat, len := length.toNat }] = none ∧
      t = { s with
            sections := s.sections ++ [{ offset := offset, length := length, flags := flags }],
            res := BitVec.ofNat 32 s.sections.length, cmdSeq := s.cmdSeq + 1#32 }
  | .secPicture record, s, t => s.sbValid = true ∧ s.cfgCodec ≠ .other ∧
      recordFlagsOk (readU32 s.mem record.toNat) = true ∧ ∃ r plan, r = readRecord s.mem record.toNat ∧
      plan = picturePlan s r ∧ checkPlan s (plannedSpans plan) = none ∧
      t = { commitPicture s r plan with res := BitVec.ofNat 32 plan.length, cmdSeq := s.cmdSeq + 1#32 }
  | .secAddsei sfx ptype src size, s, t => s.sbValid = true ∧ s.cfgCodec ≠ .other ∧
      (Answered s t ∨ ∃ nb, nb = addSeiBytes s sfx ptype (readBytes s.mem src.toNat size.toNat) ∧
        addSeiFits s sfx nb.length = true ∧
        t = { addSeiCommit s sfx nb with res := BitVec.ofNat 32 (addSeiPlace s sfx).1, cmdSeq := s.cmdSeq + 1#32 })
  | .roiInit mode picW picH bgQuality, s, t => pictureSizeOk picW picH = true ∧
      t = { s with
            roi := { valid := true, picW := picW, picH := picH,
                     log2Lcu := BitVec.ofNat 32 (log2Lcu s.cfgCodec),
                     lcuW := BitVec.ofNat 32 (ceilShift picW.toNat (log2Lcu s.cfgCodec)),
                     lcuH := BitVec.ofNat 32 (ceilShift picH.toNat (log2Lcu s.cfgCodec)),
                     bg := encodeQuality s.params (qualityArg bgQuality), mode := mode, codec := s.cfgCodec },
            nodes := [], cmdSeq := s.cmdSeq + 1#32 }
  | .roiAdd x y w h quality, s, t => s.roi.valid = true ∧
      (Answered s t ∨ (roiInside s.roi x y = true ∧ s.nodes.length ≠ s.params.maxRoi.toNat ∧
        t = { s with
              nodes := insertNode s.roi.mode
                (roiNodeOf s.roi (encodeQuality s.params (qualityArg quality)) x y w h) s.nodes,
              res := 1#32, cmdSeq := s.cmdSeq + 1#32 }))
  | .roiClear, s, t => s.roi.valid = true ∧ t = { s with nodes := [], cmdSeq := s.cmdSeq + 1#32 }
  | .roiDestroy, s, t => s.roi.valid = true ∧
      t = { s with roi := RoiContext.reset, nodes := [], cmdSeq := s.cmdSeq + 1#32 }
  | .roiFill qpn bpl dst, s, t => qpLayoutOk qpn bpl = true ∧ s.roi.valid = true ∧
      admitFail s.memMap dst.toNat (qpRangeLen (qpLayout s.roi qpn bpl dst)) = none ∧
      t = { s with mem := roiFillMemory s (qpLayout s.roi qpn bpl dst), res := 0#32, cmdSeq := s.cmdSeq + 1#32 }
  | .qpFlat qpn bpl dst value, s, t => qpLayoutOk qpn bpl = true ∧ s.roi.valid = true ∧
      admitFail s.memMap dst.toNat (qpRangeLen (qpLayout s.roi qpn bpl dst)) = none ∧
      t = { s with
            mem := fillCells (qpLayout s.roi qpn bpl dst) (encodeQuality s.params (qualityArg value))
              (gridCells (qpLayout s.roi qpn bpl dst)) s.mem,
            res := 0#32, cmdSeq := s.cmdSeq + 1#32 }
  | .qpLoad qpn bpl dst src _, s, t => qpLayoutOk qpn bpl = true ∧ s.roi.valid = true ∧
      (Answered s t ∨ (admitFail s.memMap dst.toNat (qpRangeLen (qpLayout s.roi qpn bpl dst)) = none ∧
        t = { s with
              mem := loadCells (qpLayout s.roi qpn bpl dst)
                (readBytes s.mem src.toNat (qpTableLen (qpLayout s.roi qpn bpl dst)))
                (gridCells (qpLayout s.roi qpn bpl dst)) s.mem,
              res := 0#32, cmdSeq := s.cmdSeq + 1#32 }))

/-- A fault leaves the state of before with the fault entry. -/
def Faulted (i : Instr) (s t : State) : Prop := ∃ c b, t = faultEntry (headerWord i) c b s

theorem faulted_of_raise {i : Instr} {c : FaultCause} {s t : State} (h : raise i c s = .next t) : Faulted i s t :=
  ⟨c, 0, ((raise_eq_next _ _ _ _).1 h).symm⟩

theorem faulted_of_raiseBus {i : Instr} {b : Nat} {s t : State} (h : raiseBus i b s = .next t) : Faulted i s t :=
  ⟨.busError, b, ((raiseBus_eq_next _ _ _ _).1 h).symm⟩

theorem answered_of_completeWith {r : Word} {s t : State} (h : completeWith r s = .next t) : Answered s t :=
  ⟨r, ((completeWith_eq_next _ _ _).1 h).symm⟩

/-- A writer command faults, or runs the operations that its effect is. -/
theorem writerCommand_ran {i : Instr} {ok : Bool} {w : WriterId} {f : Stream → Stream} {s t : State} (ops : List StreamOp)
    (hf : f (s.stream w) = runOps ops (s.stream w)) (h : writerCommand i ok w f s = .next t) :
    Faulted i s t ∨ RanOn w s t := by
  rcases writerCommand_cases h with ⟨_, ht⟩ | ⟨_, _, ht⟩ | ⟨_, hv, ht⟩
  · exact Or.inl ⟨_, _, ht⟩
  · exact Or.inl ⟨_, _, ht⟩
  · refine Or.inr ⟨hv, ops, s.res, ?_⟩
    rw [ht, hf]
    cases w <;> rfl

theorem writerQuery_answered {i : Instr} {w : WriterId} {f : HostWriter → Word} {s t : State}
    (h : writerQuery i w f s = .next t) : Faulted i s t ∨ Answered s t := by
  rcases writerQuery_cases h with ⟨_, ht⟩ | ⟨_, ht⟩
  · exact Or.inl ⟨_, _, ht⟩
  · exact Or.inr ⟨_, ht⟩

theorem execRegWr_cases {reg : BitVec 16} {value : Word} {s t : State} (h : execRegWr reg value s = .next t) :
    Faulted (.regWr reg value) s t ∨ Completed (.regWr reg value) s t := by
  unfold execRegWr at h
  split at h
  · exact Or.inl (faulted_of_raise h)
  · rename_i r hr
    split at h
    · split at h
      · exact Or.inl (faulted_of_raise h)
      · rename_i u hu
        have hseq : u.cmdSeq = s.cmdSeq := by rw [(writeReg_cases hu).1]
        exact Or.inr ⟨r, u, hr, hu, by rw [← (complete_eq_next _ _).1 h, hseq]⟩
    · exact Or.inl (faulted_of_raise h)

theorem execSecAdd_cases {o l f : Word} {s t : State} (h : execSecAdd o l f s = .next t) :
    Faulted (.secAdd o l f) s t ∨ Completed (.secAdd o l f) s t := by
  unfold execSecAdd at h
  split at h
  · rename_i hf
    split at h
    · rename_i hv
      split at h
      · exact Or.inl (faulted_of_raise h)
      · rename_i hc
        exact Or.inr ⟨hf, hv, hc, ((completeWith_eq_next _ _ _).1 h).symm⟩
    · exact Or.inl (faulted_of_raise h)
  · exact Or.inl (faulted_of_raise h)

theorem execSecPicture_cases {record : Word} {s t : State} (h : execSecPicture record s = .next t) :
    Faulted (.secPicture record) s t ∨ Completed (.secPicture record) s t := by
  unfold execSecPicture at h
  split at h
  · rename_i hv
    split at h
    · exact Or.inl (faulted_of_raise h)
    · rename_i hc
      split at h
      · exact Or.inl (faulted_of_raiseBus h)
      · split at h
        · exact Or.inl (faulted_of_raise h)
        · split at h
          · exact Or.inl (faulted_of_raiseBus h)
          · split at h
            · rename_i hr
              unfold pictureFlow at h
              split at h
              · exact Or.inl (faulted_of_raise h)
              · rename_i hp
                exact Or.inr ⟨hv, hc, hr, _, _, rfl, rfl, hp, ((completeWith_eq_next _ _ _).1 h).symm⟩
            · exact Or.inl (faulted_of_raise h)
  · exact Or.inl (faulted_of_raise h)

theorem execSecAddsei_cases {sfx : Bool} {ptype : BitVec 16} {src size : Word} {s t : State}
    (h : execSecAddsei sfx ptype src size s = .next t) :
    Faulted (.secAddsei sfx ptype src size) s t ∨ Completed (.secAddsei sfx ptype src size) s t := by
  unfold execSecAddsei at h
  split at h
  · rename_i hv
    split at h
    · exact Or.inl (faulted_of_raise h)
    · rename_i hc
      split at h
      · exact Or.inl (faulted_of_raiseBus h)
      · simp only at h
        split at h
        · exact Or.inr ⟨hv, hc, Or.inl (answered_of_completeWith h)⟩
        · split at h
          · rename_i hf
            exact Or.inr ⟨hv, hc, Or.inr ⟨_, rfl, hf, ((completeWith_eq_next _ _ _).1 h).symm⟩⟩
          · exact Or.inr ⟨hv, hc, Or.inl (answered_of_completeWith h)⟩
  · exact Or.inl (faulted_of_raise h)

theorem execRoiAdd_cases {x y w hh q : Word} {s t : State} (h : execRoiAdd x y w hh q s = .next t) :
    Faulted (.roiAdd x y w hh q) s t ∨ Completed (.roiAdd x y w hh q) s t := by
  unfold execRoiAdd at h
  split at h
  · rename_i hv
    split at h
    · rename_i hi
      split at h
      · exact Or.inl (faulted_of_raise h)
      · rename_i hl
        exact Or.inr ⟨hv, Or.inr ⟨hi, hl, ((completeWith_eq_next _ _ _).1 h).symm⟩⟩
    · exact Or.inr ⟨hv, Or.inl (answered_of_completeWith h)⟩
  · exact Or.inl (faulted_of_raise h)

theorem execRoiFill_cases {qpn bpl : BitVec 8} {dst : Word} {s t : State} (h : execRoiFill qpn bpl dst s = .next t) :
    Faulted (.roiFill qpn bpl dst) s t ∨ Completed (.roiFill qpn bpl dst) s t := by
  unfold execRoiFill at h
  split at h
  · rename_i hl
    split at h
    · rename_i hv
      split at h
      · exact Or.inl (faulted_of_raiseBus h)
      · rename_i ha
        exact Or.inr ⟨hl, hv, ha, ((completeWith_eq_next _ _ _).1 h).symm⟩
    · exact Or.inl (faulted_of_raise h)
  · exact Or.inl (faulted_of_raise h)

theorem execQpFlat_cases {qpn bpl : BitVec 8} {dst value : Word} {s t : State}
    (h : execQpFlat qpn bpl dst value s = .next t) :
    Faulted (.qpFlat qpn bpl dst value) s t ∨ Completed (.qpFlat qpn bpl dst value) s t := by
  unfold execQpFlat at h
  split at h
  · rename_i hl
    split at h
    · rename_i hv
      split at h
      · exact Or.inl (faulted_of_raiseBus h)
      · rename_i ha
        exact Or.inr ⟨hl, hv, ha, ((completeWith_eq_next _ _ _).1 h).symm⟩
    · exact Or.inl (faulted_of_raise h)
  · exact Or.inl (faulted_of_raise h)

theorem execQpLoad_cases {qpn bpl : BitVec 8} {dst src srcLen : Word} {s t : State}
    (h : execQpLoad qpn bpl dst src srcLen s = .next t) :
    Faulted (.qpLoad qpn bpl dst src srcLen) s t ∨ Completed (.qpLoad qpn bpl dst src srcLen) s t := by
  unfold execQpLoad at h
  split at h
  · rename_i hl
    split at h
    · rename_i hv
      simp only at h
      split at h
      · exact Or.inr ⟨hl, hv, Or.inl (answered_of_completeWith h)⟩
      · split at h
        · exact Or.inl (faulted_of_raiseBus h)
        · split at h
          · exact Or.inl (faulted_of_raiseBus h)
          · rename_i ha
            exact Or.inr ⟨hl, hv, Or.inr ⟨ha, ((completeWith_eq_next _ _ _).1 h).symm⟩⟩
    · exact Or.inl (faulted_of_raise h)
  · exact Or.inl (faulted_of_raise h)

/-- What executing a command can do. -/
theorem exec_cases {i : Instr} {s t : State} (h : exec i s = .next t) : Faulted i s t ∨ Completed i s t := by
  cases i with
  | nop => exact Or.inr ((complete_eq_next _ _).1 h).symm
  | regRd reg =>
    simp only [exec, execRegRd] at h
    split at h
    · exact Or.inl (faulted_of_raise h)
    · exact Or.inr (answered_of_completeWith h)
  | regWr reg value => exact execRegWr_cases h
  | bwInit w base maxBits =>
    simp only [exec, execBwInit] at h
    split at h
    · exact Or.inl (faulted_of_raiseBus h)
    · rename_i ha
      refine Or.inr ⟨ha, ?_⟩
      rw [← (complete_eq_next _ _).1 h]
      cases w <;> rfl
  | bwPutbits w n v => exact writerCommand_ran [.put n.toNat v.toNat] rfl h
  | bwPutbit w b =>
    simp only [exec, execBwPutbit] at h
    exact writerCommand_ran [.put 1 b.toNat] rfl h
  | bwPutu w n v => exact writerCommand_ran [.put n.toNat v.toNat] rfl h
  | bwPuts w n v => exact writerCommand_ran [.put n.toNat (putSignedBits n v)] rfl h
  | bwPutue w v => exact writerCommand_ran _ (putUe_eq _ _) h
  | bwPutse w v => exact writerCommand_ran _ (putUe_eq _ _) h
  | bwAlign w b =>
    simp only [exec, execBwAlign] at h
    exact writerCommand_ran [.put (padBits (s.stream w).1) (if b then 2 ^ padBits (s.stream w).1 - 1 else 0)] rfl h
  | bwTrail w =>
    simp only [exec, execBwTrail] at h
    exact writerCommand_ran [.put 1 1, .put (padBits (putBits 1 1 (s.stream w)).1) 0] rfl h
  | bwSkip w n =>
    simp only [exec, execBwSkip] at h
    rcases writerCommand_cases h with ⟨_, ht⟩ | ⟨_, _, ht⟩ | ⟨_, hv, ht⟩
    · exact Or.inl ⟨_, _, ht⟩
    · exact Or.inl ⟨_, _, ht⟩
    · exact Or.inr ⟨hv, ht⟩
  | bwGetbits w =>
    simp only [exec, execBwGetbits] at h
    exact writerQuery_answered h
  | bwGetdata w => exact writerQuery_answered h
  | bwGetwptr w =>
    simp only [exec, execBwGetwptr] at h
    exact writerQuery_answered h
  | nalMkhdr type rl tid =>
    simp only [exec, execNalMkhdr] at h
    split at h
    · exact Or.inl (faulted_of_raise h)
    · split at h
      · exact Or.inr (answered_of_completeWith h)
      · exact Or.inl (faulted_of_raise h)
    · split at h
      · exact Or.inr (answered_of_completeWith h)
      · exact Or.inl (faulted_of_raise h)
  | nalStart w hl hdr => exact writerCommand_ran _ (emitBytes_eq _ _) h
  | nalEpcopy w src n =>
    simp only [exec, execNalEpcopy] at h
    split at h
    · rename_i hv
      split at h
      · exact Or.inl (faulted_of_raiseBus h)
      · rw [completeWith_eq_next, emitBytes_eq] at h
        exact Or.inr ⟨hv, _, _, by rw [← h, withStream_cmdSeq]⟩
    · exact Or.inl (faulted_of_raise h)
  | nalFiller w hl hdr df budget =>
    simp only [exec, execNalFiller] at h
    split at h
    · split at h
      · rename_i hv
        rw [completeWith_eq_next, fillerRun_stream] at h
        exact Or.inr ⟨hv, _, _, by rw [← h, withStream_cmdSeq]⟩
      · exact Or.inl (faulted_of_raise h)
    · exact Or.inl (faulted_of_raise h)
  | secAttach base cap =>
    simp only [exec, execSecAttach] at h
    split at h
    · exact Or.inl (faulted_of_raiseBus h)
    · rename_i ha
      exact Or.inr ⟨ha, ((complete_eq_next _ _).1 h).symm⟩
  | secAdd o l f => exact execSecAdd_cases h
  | secPicture record => exact execSecPicture_cases h
  | secAddsei sfx ptype src size => exact execSecAddsei_cases h
  | roiInit mode picW picH q =>
    simp only [exec, execRoiInit] at h
    split at h
    · rename_i hp
      exact Or.inr ⟨hp, ((complete_eq_next _ _).1 h).symm⟩
    · exact Or.inl (faulted_of_raise h)
  | roiAdd x y w hh q => exact execRoiAdd_cases h
  | roiClear =>
    simp only [exec, execRoiClear] at h
    split at h
    · rename_i hv
      exact Or.inr ⟨hv, ((complete_eq_next _ _).1 h).symm⟩
    · exact Or.inl (faulted_of_raise h)
  | roiDestroy =>
    simp only [exec, execRoiDestroy] at h
    split at h
    · rename_i hv
      exact Or.inr ⟨hv, ((complete_eq_next _ _).1 h).symm⟩
    · exact Or.inl (faulted_of_raise h)
  | roiFill qpn bpl dst => exact execRoiFill_cases h
  | qpFlat qpn bpl dst value => exact execQpFlat_cases h
  | qpLoad qpn bpl dst src srcLen => exact execQpLoad_cases h

end Sys2Proof.Machine
end

