-- ==== Sys2Proof/Laws/PerInstr.lean ====
section
/-! SUPPORT. A statement about every command, one lemma per constructor (LAWS.json): how many words its encoding has and
which opcode its header carries (30_encoding.md R110, R113, R117). -/

namespace Sys2Proof.Laws

open Sys2Proof

/-- The OPC field of a byte followed by 24 bits is the byte. -/
theorem headerOpc_append (b : Byte) (f : BitVec 24) : headerOpc (b ++ f) = b := by
  apply BitVec.eq_of_getLsbD_eq
  intro i hi
  simp only [headerOpc, BitVec.getLsbD_extractLsb', BitVec.getLsbD_append, hi, decide_true, Bool.true_and]
  rw [if_neg (by omega)]
  congr 1
  omega

/-- The encoding is one header word and the opcode's K argument words, and the header's OPC is the opcode's. -/
def EncodeLength.Statement (i : Instr) : Prop :=
  (encode i).length = 1 + argCount (instrOpcode i) ∧ headerOpc (headerWord i) = opcodeByte (instrOpcode i)

theorem EncodeLength.nop : EncodeLength.Statement .nop := ⟨rfl, headerOpc_append _ _⟩
theorem EncodeLength.regRd (reg : BitVec 16) :
    EncodeLength.Statement (.regRd reg) := ⟨rfl, headerOpc_append _ _⟩
theorem EncodeLength.regWr (reg : BitVec 16) (value : Word) :
    EncodeLength.Statement (.regWr reg value) := ⟨rfl, headerOpc_append _ _⟩
theorem EncodeLength.bwInit (w : WriterId) (base maxBits : Word) :
    EncodeLength.Statement (.bwInit w base maxBits) := ⟨rfl, headerOpc_append _ _⟩
theorem EncodeLength.bwPutbits (w : WriterId) (n : BitVec 6) (value : Word) :
    EncodeLength.Statement (.bwPutbits w n value) := ⟨rfl, headerOpc_append _ _⟩
theorem EncodeLength.bwPutbit (w : WriterId) (b : Bool) :
    EncodeLength.Statement (.bwPutbit w b) := ⟨rfl, headerOpc_append _ _⟩
theorem EncodeLength.bwPutu (w : WriterId) (n : BitVec 6) (value : Word) :
    EncodeLength.Statement (.bwPutu w n value) := ⟨rfl, headerOpc_append _ _⟩
theorem EncodeLength.bwPuts (w : WriterId) (n : BitVec 6) (value : Word) :
    EncodeLength.Statement (.bwPuts w n value) := ⟨rfl, headerOpc_append _ _⟩
theorem EncodeLength.bwPutue (w : WriterId) (value : Word) :
    EncodeLength.Statement (.bwPutue w value) := ⟨rfl, headerOpc_append _ _⟩
theorem EncodeLength.bwPutse (w : WriterId) (value : Word) :
    EncodeLength.Statement (.bwPutse w value) := ⟨rfl, headerOpc_append _ _⟩
theorem EncodeLength.bwAlign (w : WriterId) (b : Bool) :
    EncodeLength.Statement (.bwAlign w b) := ⟨rfl, headerOpc_append _ _⟩
theorem EncodeLength.bwTrail (w : WriterId) :
    EncodeLength.Statement (.bwTrail w) := ⟨rfl, headerOpc_append _ _⟩
theorem EncodeLength.bwSkip (w : WriterId) (n : Word) :
    EncodeLength.Statement (.bwSkip w n) := ⟨rfl, headerOpc_append _ _⟩
theorem EncodeLength.bwGetbits (w : WriterId) :
    EncodeLength.Statement (.bwGetbits w) := ⟨rfl, headerOpc_append _ _⟩
theorem EncodeLength.bwGetdata (w : WriterId) :
    EncodeLength.Statement (.bwGetdata w) := ⟨rfl, headerOpc_append _ _⟩
theorem EncodeLength.bwGetwptr (w : WriterId) :
    EncodeLength.Statement (.bwGetwptr w) := ⟨rfl, headerOpc_append _ _⟩
theorem EncodeLength.nalMkhdr (type rl : BitVec 6) (tid : BitVec 3) :
    EncodeLength.Statement (.nalMkhdr type rl tid) := ⟨rfl, headerOpc_append _ _⟩
theorem EncodeLength.nalStart (w : WriterId) (hl : HdrLen) (hdr : BitVec 16) :
    EncodeLength.Statement (.nalStart w hl hdr) := ⟨rfl, headerOpc_append _ _⟩
theorem EncodeLength.nalEpcopy (w : WriterId) (src n : Word) :
    EncodeLength.Statement (.nalEpcopy w src n) := ⟨rfl, headerOpc_append _ _⟩
theorem EncodeLength.nalFiller (w : WriterId) (hl : HdrLen) (hdr : BitVec 16) (df : Bool) (budget : Word) :
    EncodeLength.Statement (.nalFiller w hl hdr df budget) := ⟨rfl, headerOpc_append _ _⟩
theorem EncodeLength.secAttach (base cap : Word) :
    EncodeLength.Statement (.secAttach base cap) := ⟨rfl, headerOpc_append _ _⟩
theorem EncodeLength.secAdd (offset length flags : Word) :
    EncodeLength.Statement (.secAdd offset length flags) := ⟨rfl, headerOpc_append _ _⟩
theorem EncodeLength.secPicture (record : Word) :
    EncodeLength.Statement (.secPicture record) := ⟨rfl, headerOpc_append _ _⟩
theorem EncodeLength.secAddsei (sfx : Bool) (ptype : BitVec 16) (src size : Word) :
    EncodeLength.Statement (.secAddsei sfx ptype src size) := ⟨rfl, headerOpc_append _ _⟩
theorem EncodeLength.roiInit (mode : RoiMode) (picW picH bgQuality : Word) :
    EncodeLength.Statement (.roiInit mode picW picH bgQuality) := ⟨rfl, headerOpc_append _ _⟩
theorem EncodeLength.roiAdd (x y w h quality : Word) :
    EncodeLength.Statement (.roiAdd x y w h quality) := ⟨rfl, headerOpc_append _ _⟩
theorem EncodeLength.roiClear : EncodeLength.Statement .roiClear := ⟨rfl, headerOpc_append _ _⟩
theorem EncodeLength.roiDestroy : EncodeLength.Statement .roiDestroy := ⟨rfl, headerOpc_append _ _⟩
theorem EncodeLength.roiFill (qpn bpl : BitVec 8) (dst : Word) :
    EncodeLength.Statement (.roiFill qpn bpl dst) := ⟨rfl, headerOpc_append _ _⟩
theorem EncodeLength.qpFlat (qpn bpl : BitVec 8) (dst value : Word) :
    EncodeLength.Statement (.qpFlat qpn bpl dst value) := ⟨rfl, headerOpc_append _ _⟩
theorem EncodeLength.qpLoad (qpn bpl : BitVec 8) (dst src srcLen : Word) :
    EncodeLength.Statement (.qpLoad qpn bpl dst src srcLen) := ⟨rfl, headerOpc_append _ _⟩

end Sys2Proof.Laws
end

