-- ==== Sys2Proof/Laws/Roi.lean ====
section
/-! SUPPORT. The laws of the QP buffer: where cells lie, what one cell's write does, and what filling and smoothing a list of
cells does (43_roi_qp.md R327 to R331). -/

namespace Sys2Proof.Machine

/-! ### The layout -/

/-- A cell's group lies inside the buffer's range. -/
theorem group_inside (q : QpLayout) (x y : Nat) (hx : x < q.lcuW) (hy : y < q.lcuH) :
    groupAddr q x y + q.bpl ≤ q.dst + qpRangeLen q := by
  unfold groupAddr qpRangeLen
  have h1 : y * q.lcuW + x + 1 ≤ q.lcuW * q.lcuH := by
    have : (y + 1) * q.lcuW ≤ q.lcuH * q.lcuW := Nat.mul_le_mul_right _ hy
    rw [Nat.mul_comm q.lcuW q.lcuH]
    rw [Nat.add_mul] at this
    omega
  have h2 : (y * q.lcuW + x + 1) * q.bpl ≤ q.lcuW * q.lcuH * q.bpl := Nat.mul_le_mul_right _ h1
  rw [Nat.add_mul (y * q.lcuW + x) 1 q.bpl] at h2
  omega

/-- Two different cells have different indexes. -/
theorem cell_index_ne (q : QpLayout) (x y x' y' : Nat) (hx : x < q.lcuW) (hx' : x' < q.lcuW) (h : ¬(x = x' ∧ y = y')) :
    y * q.lcuW + x ≠ y' * q.lcuW + x' := by
  intro e
  rcases Nat.lt_trichotomy y y' with hlt | heq | hgt
  · have : (y + 1) * q.lcuW ≤ y' * q.lcuW := Nat.mul_le_mul_right _ hlt
    rw [Nat.add_mul] at this
    omega
  · subst heq
    exact h ⟨by omega, rfl⟩
  · have : (y' + 1) * q.lcuW ≤ y * q.lcuW := Nat.mul_le_mul_right _ hgt
    rw [Nat.add_mul] at this
    omega

/-- The groups of two different cells share no byte. -/
theorem group_apart (q : QpLayout) (x y x' y' : Nat) (hx : x < q.lcuW) (hx' : x' < q.lcuW) (h : ¬(x = x' ∧ y = y')) :
    groupAddr q x y + q.bpl ≤ groupAddr q x' y' ∨ groupAddr q x' y' + q.bpl ≤ groupAddr q x y := by
  unfold groupAddr
  have hne := cell_index_ne q x y x' y' hx hx' h
  rcases Nat.lt_or_gt_of_ne hne with hlt | hgt
  · left
    have : (y * q.lcuW + x + 1) * q.bpl ≤ (y' * q.lcuW + x') * q.bpl := Nat.mul_le_mul_right _ hlt
    rw [Nat.add_mul (y * q.lcuW + x) 1 q.bpl] at this
    omega
  · right
    have : (y' * q.lcuW + x' + 1) * q.bpl ≤ (y * q.lcuW + x) * q.bpl := Nat.mul_le_mul_right _ hgt
    rw [Nat.add_mul (y' * q.lcuW + x') 1 q.bpl] at this
    omega

/-- The cells of a rectangle. -/
theorem mem_rectCells (x0 y0 w h : Nat) (c : Nat × Nat) :
    c ∈ rectCells x0 y0 w h ↔ x0 ≤ c.1 ∧ c.1 < x0 + w ∧ y0 ≤ c.2 ∧ c.2 < y0 + h := by
  obtain ⟨x, y⟩ := c
  simp only [rectCells, List.mem_flatMap, List.mem_map, List.mem_range, Prod.mk.injEq]
  constructor
  · rintro ⟨j, hj, i, hi, rfl, rfl⟩
    omega
  · rintro ⟨h1, h2, h3, h4⟩
    exact ⟨y - y0, by omega, x - x0, by omega, by omega, by omega⟩

/-- The cells of the grid. -/
theorem mem_gridCells (q : QpLayout) (c : Nat × Nat) : c ∈ gridCells q ↔ c.1 < q.lcuW ∧ c.2 < q.lcuH := by
  rw [gridCells, mem_rectCells]
  omega

theorem mem_rowCells (y a b : Nat) (c : Nat × Nat) : c ∈ rowCells y a b ↔ a ≤ c.1 ∧ c.1 < b ∧ c.2 = y := by
  obtain ⟨x, y'⟩ := c
  simp only [rowCells, List.mem_map, List.mem_range, Prod.mk.injEq]
  constructor
  · rintro ⟨i, hi, rfl, rfl⟩; omega
  · rintro ⟨h1, h2, h3⟩; exact ⟨x - a, by omega, by omega, h3.symm⟩

theorem mem_columnCells (x a b : Nat) (c : Nat × Nat) : c ∈ columnCells x a b ↔ c.1 = x ∧ a ≤ c.2 ∧ c.2 < b := by
  obtain ⟨x', y⟩ := c
  simp only [columnCells, List.mem_map, List.mem_range, Prod.mk.injEq]
  constructor
  · rintro ⟨i, hi, rfl, rfl⟩; omega
  · rintro ⟨h1, h2, h3⟩; exact ⟨y - a, by omega, h1.symm, by omega⟩

/-- The cells around a node inside the grid: within one cell of its rectangle, in the grid, and outside the rectangle (R331). -/
theorem mem_haloCells (q : QpLayout) (n : RoiNode) (c : Nat × Nat) (hx : n.x0.toNat + n.w.toNat ≤ q.lcuW)
    (hy : n.y0.toNat + n.h.toNat ≤ q.lcuH) (hw : 0 < n.w.toNat) (hh : 0 < n.h.toNat) :
    c ∈ haloCells q n ↔ c.1 < q.lcuW ∧ c.2 < q.lcuH ∧ n.x0.toNat ≤ c.1 + 1 ∧ c.1 < n.x0.toNat + n.w.toNat + 1 ∧
      n.y0.toNat ≤ c.2 + 1 ∧ c.2 < n.y0.toNat + n.h.toNat + 1 ∧ ¬nodeCovers n c.1 c.2 := by
  obtain ⟨x, y⟩ := c
  simp only [haloCells, List.mem_append]
  have hrow : ∀ (p : Prop) [Decidable p] (yy : Nat) (l : List (Nat × Nat)),
      ((x, y) ∈ (if p then l else []) ↔ p ∧ (x, y) ∈ l) := by
    intro p _ yy l; by_cases hp : p <;> simp [hp]
  rw [hrow (0 < n.y0.toNat) 0, hrow (n.y0.toNat + n.h.toNat < q.lcuH) 0, hrow (0 < n.x0.toNat) 0,
    hrow (n.x0.toNat + n.w.toNat < q.lcuW) 0, mem_rowCells, mem_rowCells, mem_columnCells, mem_columnCells]
  simp only
  split <;> split <;> constructor <;> omega

/-- No cell around a node comes twice (R331). -/
theorem nodup_haloCells (q : QpLayout) (n : RoiNode) (hw : 0 < n.w.toNat) (hh : 0 < n.h.toNat) :
    (haloCells q n).Nodup := by
  have row : ∀ y a b, (rowCells y a b).Nodup := by
    intro y a b
    refine List.Nodup.map (fun i j e => ?_) List.nodup_range
    simpa using e
  have col : ∀ y a b, (columnCells y a b).Nodup := by
    intro y a b
    refine List.Nodup.map (fun i j e => ?_) List.nodup_range
    simpa using e
  have opt : ∀ (p : Prop) [Decidable p] (l : List (Nat × Nat)), l.Nodup → (if p then l else []).Nodup := by
    intro p _ l h; by_cases hp : p <;> simp [hp, h]
  have sub : ∀ (p : Prop) [Decidable p] (l : List (Nat × Nat)) (c : Nat × Nat), c ∈ (if p then l else []) → p ∧ c ∈ l := by
    intro p _ l c; by_cases hp : p <;> simp [hp]
  unfold haloCells
  refine List.Nodup.append (List.Nodup.append (List.Nodup.append (opt _ _ (row _ _ _)) (opt _ _ (row _ _ _)) ?_)
    (opt _ _ (col _ _ _)) ?_) (opt _ _ (col _ _ _)) ?_
  · intro c h1 h2
    have h1 := sub _ _ _ h1
    have h2 := sub _ _ _ h2
    rw [mem_rowCells] at h1 h2
    omega
  · intro c h1 h2
    have h2 := sub _ _ _ h2
    rw [mem_columnCells] at h2
    rcases List.mem_append.1 h1 with h1 | h1 <;> have h1 := sub _ _ _ h1 <;> rw [mem_rowCells] at h1 <;> omega
  · intro c h1 h2
    have h2 := sub _ _ _ h2
    rw [mem_columnCells] at h2
    rcases List.mem_append.1 h1 with h1 | h1
    · rcases List.mem_append.1 h1 with h1 | h1 <;> have h1 := sub _ _ _ h1 <;> rw [mem_rowCells] at h1 <;> omega
    · have h1 := sub _ _ _ h1
      rw [mem_columnCells] at h1
      omega

/-! ### One cell's write -/

theorem wf_writeCell (q : QpLayout) (v : Byte) (m : Memory) (x y : Nat) (h : m.wf = true) :
    (writeCell q v m x y).wf = true := wf_writeBytes _ _ _ h

/-- A cell's write changes no byte but the cell's QPN bytes. -/
theorem readByte_writeCell_outside (q : QpLayout) (v : Byte) (m : Memory) (x y a : Nat)
    (h : a < groupAddr q x y ∨ groupAddr q x y + q.qpn ≤ a) : readByte (writeCell q v m x y) a = readByte m a :=
  readByte_writeBytes_outside _ _ _ _ (by simpa using h)

/-- A cell's write sets each of the cell's QPN bytes. -/
theorem readByte_writeCell_inside (q : QpLayout) (v : Byte) (m : Memory) (x y k : Nat) (hw : m.wf = true) (hk : k < q.qpn)
    (ha : groupAddr q x y + q.qpn ≤ addressSpace) : readByte (writeCell q v m x y) (groupAddr q x y + k) = v := by
  have := readByte_writeBytes_inside (List.replicate q.qpn v) m (groupAddr q x y) k hw (by simpa using hk) (by simpa using ha)
  simpa [writeCell] using this

/-! ### A list of cells, each rewritten once from its own value -/

/-- One cell rewritten by a function of its own byte 0. -/
def rewriteCell (q : QpLayout) (f : Byte → Byte) (m : Memory) (c : Nat × Nat) : Memory :=
  writeCell q (f (readCell q m c.1 c.2)) m c.1 c.2

theorem fillCells_eq (q : QpLayout) (v : Byte) (cells : List (Nat × Nat)) (m : Memory) :
    fillCells q v cells m = cells.foldl (rewriteCell q (fun _ => v)) m := rfl

theorem smoothCell_eq (p : Params) (codec : Codec) (q : QpLayout) (code : Byte) :
    smoothCell p codec q code = rewriteCell q (fun old => smoothValue p codec old code) := rfl

theorem wf_rewriteCells (q : QpLayout) (f : Byte → Byte) (cells : List (Nat × Nat)) (m : Memory) (h : m.wf = true) :
    (cells.foldl (rewriteCell q f) m).wf = true := by
  induction cells generalizing m with
  | nil => exact h
  | cons c t ih => exact ih _ (wf_writeCell _ _ _ _ _ h)

/-- Rewriting cells changes no byte but their QPN bytes. -/
theorem readByte_rewriteCells_outside (q : QpLayout) (f : Byte → Byte) (cells : List (Nat × Nat)) (m : Memory) (a : Nat)
    (h : ∀ c ∈ cells, a < groupAddr q c.1 c.2 ∨ groupAddr q c.1 c.2 + q.qpn ≤ a) :
    readByte (cells.foldl (rewriteCell q f) m) a = readByte m a := by
  induction cells generalizing m with
  | nil => rfl
  | cons c t ih =>
    rw [List.foldl_cons, ih _ (fun d hd => h d (List.mem_cons_of_mem _ hd))]
    exact readByte_writeCell_outside _ _ _ _ _ _ (h c (List.mem_cons_self ..))

/-- A cell not in the list keeps its bytes. -/
theorem readByte_rewriteCells_other (q : QpLayout) (f : Byte → Byte) (cells : List (Nat × Nat)) (m : Memory) (x y k : Nat)
    (hb : q.qpn ≤ q.bpl) (hx : x < q.lcuW) (hk : k < q.qpn) (hc : ∀ c ∈ cells, c.1 < q.lcuW) (hn : (x, y) ∉ cells) :
    readByte (cells.foldl (rewriteCell q f) m) (groupAddr q x y + k) = readByte m (groupAddr q x y + k) := by
  apply readByte_rewriteCells_outside
  intro c hmem
  have hne : ¬(x = c.1 ∧ y = c.2) := by
    rintro ⟨rfl, rfl⟩
    exact hn hmem
  rcases group_apart q x y c.1 c.2 hx (hc c hmem) hne with h | h
  · left; omega
  · right; omega

/-- Each cell of a list without repeats is rewritten once, from its value before. -/
theorem readByte_rewriteCells_mem (q : QpLayout) (f : Byte → Byte) (cells : List (Nat × Nat)) (m : Memory) (x y k : Nat)
    (hw : m.wf = true) (hb : q.qpn ≤ q.bpl) (hs : q.dst + qpRangeLen q ≤ addressSpace) (hk : k < q.qpn)
    (hc : ∀ c ∈ cells, c.1 < q.lcuW ∧ c.2 < q.lcuH) (hd : cells.Nodup) (hn : (x, y) ∈ cells) :
    readByte (cells.foldl (rewriteCell q f) m) (groupAddr q x y + k) = f (readByte m (groupAddr q x y)) := by
  induction cells generalizing m with
  | nil => simp at hn
  | cons c t ih =>
    rw [List.foldl_cons]
    rw [List.nodup_cons] at hd
    have ht : ∀ d ∈ t, d.1 < q.lcuW ∧ d.2 < q.lcuH := fun d hm => hc d (List.mem_cons_of_mem _ hm)
    by_cases hxy : (x, y) = c
    · subst hxy
      have hin := hc (x, y) (List.mem_cons_self ..)
      rw [readByte_rewriteCells_other q f t _ x y k hb hin.1 hk (fun d hm => (ht d hm).1) hd.1]
      have := group_inside q x y hin.1 hin.2
      exact readByte_writeCell_inside q _ m x y k hw hk (by omega)
    · have hmem : (x, y) ∈ t := by
        rcases List.mem_cons.1 hn with h | h
        · exact absurd h hxy
        · exact h
      rw [ih (rewriteCell q f m c) (wf_writeCell _ _ _ _ _ hw) ht hd.2 hmem]
      congr 1
      have := readByte_rewriteCells_other q f [c] m x y 0 hb (ht _ hmem).1 (by omega)
        (by intro d hd; rw [List.mem_singleton.1 hd]; exact (hc c (List.mem_cons_self ..)).1) (by simpa using hxy)
      simpa using this

/-- The cells of a rectangle come once each. -/
theorem nodup_rectCells (x0 y0 w h : Nat) : (rectCells x0 y0 w h).Nodup := by
  unfold rectCells
  rw [List.nodup_flatMap]
  refine ⟨fun j _ => List.Nodup.map (fun a b e => by simpa using e) List.nodup_range, ?_⟩
  refine List.Pairwise.imp ?_ List.nodup_range
  intro i j hij c h1 h2
  simp only [List.mem_map] at h1 h2
  obtain ⟨a, _, rfl⟩ := h1
  obtain ⟨b, _, hb⟩ := h2
  simp only [Prod.mk.injEq] at hb
  omega

/-! ### Drawing and smoothing a node -/

theorem wf_drawNode (q : QpLayout) (n : RoiNode) (m : Memory) (h : m.wf = true) : (drawNode q n m).wf = true := by
  rw [drawNode, fillCells_eq]
  exact wf_rewriteCells q _ _ m h

theorem wf_smoothNode (p : Params) (codec : Codec) (q : QpLayout) (n : RoiNode) (m : Memory) (h : m.wf = true) :
    (smoothNode p codec q n m).wf = true := by
  unfold smoothNode
  split
  · exact h
  · rw [smoothCell_eq]
    exact wf_rewriteCells q _ _ m h

theorem wf_applyNodes (p : Params) (codec : Codec) (q : QpLayout) (l : List RoiNode) (m : Memory) (h : m.wf = true) :
    (l.foldl (applyNode p codec q) m).wf = true := by
  induction l generalizing m with
  | nil => exact h
  | cons n t ih => exact ih _ (wf_smoothNode p codec q n _ (wf_drawNode q n m h))

/-- ROI_FILL keeps the canonical form of memory. -/
theorem wf_roiFillMemory (s : State) (q : QpLayout) (h : s.mem.wf = true) : (roiFillMemory s q).wf = true := by
  rw [roiFillMemory, fillCells_eq]
  exact wf_applyNodes _ _ _ _ _ (wf_rewriteCells q _ _ s.mem h)

theorem wf_loadCells (q : QpLayout) (t : List Byte) (cells : List (Nat × Nat)) (m : Memory) (h : m.wf = true) :
    (loadCells q t cells m).wf = true := by
  unfold loadCells
  induction cells generalizing m with
  | nil => exact h
  | cons c r ih => exact ih _ (wf_writeBytes _ _ _ h)

/-! ### Drawing and smoothing one node -/

/-- A byte of a cell's group after a node inside the grid is drawn (R329). -/
theorem readByte_drawNode (q : QpLayout) (n : RoiNode) (m : Memory) (x y k : Nat) (hw : m.wf = true) (hb : q.qpn ≤ q.bpl)
    (hs : q.dst + qpRangeLen q ≤ addressSpace) (hk : k < q.qpn) (hnx : n.x0.toNat + n.w.toNat ≤ q.lcuW)
    (hny : n.y0.toNat + n.h.toNat ≤ q.lcuH) (hx : x < q.lcuW) :
    readByte (drawNode q n m) (groupAddr q x y + k) =
      if nodeCovers n x y then n.code else readByte m (groupAddr q x y + k) := by
  rw [drawNode, fillCells_eq]
  split
  · rename_i hc
    rw [readByte_rewriteCells_mem q _ _ m x y k hw hb hs hk _ (nodup_rectCells _ _ _ _) ((mem_rectCells _ _ _ _ _).2 hc)]
    intro c hc
    rw [mem_rectCells] at hc
    omega
  · rename_i hc
    rw [readByte_rewriteCells_other q _ _ m x y k hb hx hk]
    · intro c hc
      rw [mem_rectCells] at hc
      omega
    · rwa [mem_rectCells]

/-- A byte of a cell's group after a node inside the grid is smoothed (R330, R331). -/
theorem readByte_smoothNode (p : Params) (codec : Codec) (q : QpLayout) (n : RoiNode) (m : Memory) (x y k : Nat)
    (hw : m.wf = true) (hb : q.qpn ≤ q.bpl) (hs : q.dst + qpRangeLen q ≤ addressSpace) (hk : k < q.qpn)
    (hnx : n.x0.toNat + n.w.toNat ≤ q.lcuW) (hny : n.y0.toNat + n.h.toNat ≤ q.lcuH) (hx : x < q.lcuW) (hy : y < q.lcuH) :
    readByte (smoothNode p codec q n m) (groupAddr q x y + k) =
      if ¬nodeCovers n x y ∧ nodeTouches n x y ∧ n.code ≠ p.sentinel
      then smoothValue p codec (readByte m (groupAddr q x y)) n.code else readByte m (groupAddr q x y + k) := by
  unfold smoothNode
  split
  · rename_i h0
    rw [if_neg]
    rintro ⟨_, h2, h3⟩
    rcases h0 with h | h | h
    · exact h3 h
    · exact h2.1 h
    · exact h2.2.1 h
  · rename_i h0
    simp only [not_or] at h0
    have hwp : 0 < n.w.toNat := Nat.pos_of_ne_zero fun e => h0.2.1 (BitVec.eq_of_toNat_eq (by simpa using e))
    have hhp : 0 < n.h.toNat := Nat.pos_of_ne_zero fun e => h0.2.2 (BitVec.eq_of_toNat_eq (by simpa using e))
    have hmem := fun c => mem_haloCells q n c hnx hny hwp hhp
    rw [smoothCell_eq]
    split
    · rename_i h1
      rw [readByte_rewriteCells_mem q _ _ m x y k hw hb hs hk _ (nodup_haloCells q n hwp hhp)]
      · rw [hmem]
        obtain ⟨_, b, _⟩ := h1
        simp only [nodeTouches] at b
        simp only
        omega
      · intro c hc
        rw [hmem] at hc
        omega
    · rename_i h1
      rw [readByte_rewriteCells_other q _ _ m x y k hb hx hk]
      · intro c hc
        rw [hmem] at hc
        omega
      · rw [hmem]
        intro h2
        refine h1 ⟨h2.2.2.2.2.2.2, ⟨h0.2.1, h0.2.2, ?_⟩, h0.1⟩
        simp only at h2
        omega

end Sys2Proof.Machine
end

