-- ==== Sys2Proof/Laws/Sections.lean ====
section
/-! SUPPORT. The range test of CheckPlan (42_sections.md R251), said once in terms of ranges. -/

namespace Sys2Proof.Machine

theorem Span.Apart.symm {p q : Span} (h : Span.Apart p q) : Span.Apart q p := by unfold Span.Apart at *; omega

theorem overlaps_eq_false (p q : Span) (hp : 0 < p.len) (hq : 0 < q.len) : overlaps p q = false ↔ Span.Apart p q := by
  simp only [overlaps, Span.Apart, decide_eq_false_iff_not]
  omega

/-- The range loop accepts a plan exactly when every range ends inside the capacity and no two share a byte. -/
theorem rangesOk_iff (cap : Nat) (seen plan : List Span) (hs : ∀ q ∈ seen, 0 < q.len) :
    rangesOk cap seen plan = true ↔
      (∀ p ∈ plan, p.off + p.len ≤ cap) ∧ (∀ p ∈ plan, ∀ q ∈ seen, Span.Apart p q) ∧ plan.Pairwise Span.Apart := by
  induction plan generalizing seen with
  | nil => simp [rangesOk]
  | cons p rest ih =>
    simp only [rangesOk, Bool.and_eq_true, decide_eq_true_eq, List.pairwise_cons, List.forall_mem_cons]
    by_cases hp : p.len = 0
    · have h0 : ∀ q, Span.Apart p q := fun q => Or.inl hp
      rw [if_pos hp, ih seen hs]
      exact ⟨fun ⟨a, b, c, d⟩ => ⟨⟨a, b⟩, ⟨fun q _ => h0 q, c⟩, fun q _ => h0 q, d⟩,
        fun ⟨⟨a, b⟩, ⟨_, c⟩, _, d⟩ => ⟨a, b, c, d⟩⟩
    · have hs' : ∀ q ∈ seen ++ [p], 0 < q.len := by
        intro q hq
        rcases List.mem_append.1 hq with h | h
        · exact hs q h
        · rw [List.mem_singleton.1 h]; omega
      have hany : (!(seen.any fun q => overlaps p q)) = true ↔ ∀ q ∈ seen, Span.Apart p q := by
        rw [Bool.not_eq_true', List.any_eq_false]
        exact forall₂_congr fun q hq => by
          rw [Bool.not_eq_true, overlaps_eq_false p q (by omega) (hs q hq)]
      rw [if_neg hp, Bool.and_eq_true, ih _ hs', hany]
      simp only [List.mem_append, List.mem_singleton]
      constructor
      · rintro ⟨a, c, b, d, e⟩
        exact ⟨⟨a, b⟩, ⟨c, fun q hq y hy => d q hq y (Or.inl hy)⟩, fun q hq => (d q hq p (Or.inr rfl)).symm, e⟩
      · rintro ⟨⟨a, b⟩, ⟨c, d⟩, f, e⟩
        refine ⟨a, c, b, fun q hq y hy => ?_, e⟩
        rcases hy with hy | rfl
        · exact d q hq y hy
        · exact (f q hq).symm

/-- The table's ranges of nonzero length are all that a plan can overlap. -/
theorem rangesOk_table_iff (cap : Nat) (table plan : List Span) :
    rangesOk cap (table.filter (fun q => decide (0 < q.len))) plan = true ↔ PlanFits cap table plan := by
  rw [rangesOk_iff cap _ plan (fun q hq => by simpa using (List.mem_filter.1 hq).2)]
  constructor
  · rintro ⟨a, b, c⟩
    refine ⟨a, fun p hp q hq => ?_, c⟩
    by_cases hz : q.len = 0
    · exact Or.inr (Or.inl hz)
    · exact b p hp q (List.mem_filter.2 ⟨hq, by simpa using by omega⟩)
  · rintro ⟨a, b, c⟩
    exact ⟨a, fun p hp q hq => b p hp q (List.mem_filter.1 hq).1, c⟩

end Sys2Proof.Machine
end

