-- ==== Sys2Proof/Tests/Slice0.lean ====
section
/-! SUPPORT. Small tests: ill-formed terms are refused, words written out from 30_encoding.md decode, one step gives what
95_test_vectors.md says, and the hypotheses of every statement of Certificates/Slice0 are met (`test_witness_…`). Expected
results are the spec's worked examples and vectors, or computed by hand from its rules. -/

namespace Sys2Proof.Tests

-- The tests are elaborated one after another: each that runs beside others holds a thread of its own.
set_option Elab.async false

open Sys2Proof Sys2Proof.Machine

/-! ### Ill-formed terms -/

theorem test_illFormed_regRd : (Instr.regRd 0x007#16).wellFormed = false := by decide
theorem test_illFormed_regWr : (Instr.regWr 0x000#16 0#32).wellFormed = false := by decide
theorem test_illFormed_bwPutbits : (Instr.bwPutbits .w0 33#6 0#32).wellFormed = false := by decide
theorem test_illFormed_bwPutbits_value : (Instr.bwPutbits .w0 4#6 16#32).wellFormed = false := by decide
theorem test_illFormed_bwPutu : (Instr.bwPutu .w0 4#6 16#32).wellFormed = false := by decide
theorem test_illFormed_bwPuts : (Instr.bwPuts .w0 4#6 8#32).wellFormed = false := by decide
theorem test_illFormed_bwPutue : (Instr.bwPutue .w0 0xFFFFFFFF#32).wellFormed = false := by decide
theorem test_illFormed_bwPutse : (Instr.bwPutse .w0 0x80000000#32).wellFormed = false := by decide
theorem test_illFormed_nalStart : (Instr.nalStart .w0 .one 0x0106#16).wellFormed = false := by decide
theorem test_illFormed_nalFiller : (Instr.nalFiller .w0 .one 0x4C01#16 false 10#32).wellFormed = false := by decide
theorem test_illFormed_secAdd : (Instr.secAdd 0#32 1#32 0x40#32).wellFormed = false := by decide
theorem test_illFormed_roiInit : (Instr.roiInit .incoming 0#32 64#32 0#32).wellFormed = false := by decide
theorem test_illFormed_roiFill : (Instr.roiFill 2#8 1#8 0x9000#32).wellFormed = false := by decide
theorem test_illFormed_qpFlat : (Instr.qpFlat 0#8 1#8 0x9000#32 0#32).wellFormed = false := by decide
theorem test_illFormed_qpLoad : (Instr.qpLoad 3#8 2#8 0#32 0#32 0#32).wellFormed = false := by decide

/-! ### Words written out from the encoding tables (R111 to R113, R122) -/

theorem test_decode_nop : decode [0x00000000#32, 7#32] = .command .nop [7#32] := by decide
theorem test_decode_regRd : decode [0x01000403#32] = .command (.regRd 0x0403#16) [] := by decide
theorem test_decode_regWr : decode [0x02000010#32, 1#32] = .command (.regWr 0x0010#16 1#32) [] := by decide
theorem test_decode_bwInit : decode [0x10010000#32, 0x4000#32, 0x80#32] =
    .command (.bwInit .w1 0x4000#32 0x80#32) [] := by decide
theorem test_decode_bwPutbits : decode [0x11010005#32, 0x13#32] = .command (.bwPutbits .w1 5#6 0x13#32) [] := by decide
theorem test_decode_bwPutbit : decode [0x12010001#32] = .command (.bwPutbit .w1 true) [] := by decide
theorem test_decode_bwPutu : decode [0x13000008#32, 0xAB#32] = .command (.bwPutu .w0 8#6 0xAB#32) [] := by decide
theorem test_decode_bwPuts : decode [0x14000004#32, 0xFFFFFFFD#32] =
    .command (.bwPuts .w0 4#6 0xFFFFFFFD#32) [] := by decide
theorem test_decode_bwPutue : decode [0x15010000#32, 3#32] = .command (.bwPutue .w1 3#32) [] := by decide
theorem test_decode_bwPutse : decode [0x16000000#32, 1#32] = .command (.bwPutse .w0 1#32) [] := by decide
theorem test_decode_bwAlign : decode [0x17000001#32] = .command (.bwAlign .w0 true) [] := by decide
theorem test_decode_bwTrail : decode [0x18010000#32] = .command (.bwTrail .w1) [] := by decide
theorem test_decode_bwSkip : decode [0x19000000#32, 20#32] = .command (.bwSkip .w0 20#32) [] := by decide
theorem test_decode_bwGetbits : decode [0x1A010000#32] = .command (.bwGetbits .w1) [] := by decide
theorem test_decode_bwGetdata : decode [0x1B000000#32] = .command (.bwGetdata .w0) [] := by decide
theorem test_decode_bwGetwptr : decode [0x1C000000#32] = .command (.bwGetwptr .w0) [] := by decide
theorem test_decode_nalMkhdr : decode [0x20006067#32] = .command (.nalMkhdr 39#6 1#6 6#3) [] := by decide
theorem test_decode_nalStart : decode [0x21034001#32] = .command (.nalStart .w1 .two 0x4001#16) [] := by decide
theorem test_decode_nalEpcopy : decode [0x22010000#32, 0x3000#32, 8#32] =
    .command (.nalEpcopy .w1 0x3000#32 8#32) [] := by decide
theorem test_decode_nalFiller : decode [0x23064C01#32, 10#32] =
    .command (.nalFiller .w0 .two 0x4C01#16 true 10#32) [] := by decide
theorem test_decode_secAttach : decode [0x30000000#32, 0x7000#32, 256#32] =
    .command (.secAttach 0x7000#32 256#32) [] := by decide
theorem test_decode_secAdd : decode [0x31000000#32, 100#32, 20#32, 2#32] =
    .command (.secAdd 100#32 20#32 2#32) [] := by decide
theorem test_decode_secPicture : decode [0x32000000#32, 0x20000#32] = .command (.secPicture 0x20000#32) [] := by decide
theorem test_decode_secAddsei : decode [0x33010004#32, 0x21000#32, 2#32] =
    .command (.secAddsei true 4#16 0x21000#32 2#32) [] := by decide
theorem test_decode_roiInit : decode [0x40000001#32, 96#32, 64#32, 0x20#32] =
    .command (.roiInit .quality 96#32 64#32 0x20#32) [] := by decide
theorem test_decode_roiAdd : decode [0x41000000#32, 1#32, 2#32, 3#32, 4#32, 5#32] =
    .command (.roiAdd 1#32 2#32 3#32 4#32 5#32) [] := by decide
theorem test_decode_roiClear : decode [0x42000000#32] = .command .roiClear [] := by decide
theorem test_decode_roiDestroy : decode [0x43000000#32] = .command .roiDestroy [] := by decide
theorem test_decode_roiFill : decode [0x44000402#32, 0x9000#32] = .command (.roiFill 2#8 4#8 0x9000#32) [] := by decide
theorem test_decode_qpFlat : decode [0x45000201#32, 0x9100#32, 0xFB#32] =
    .command (.qpFlat 1#8 2#8 0x9100#32 0xFB#32) [] := by decide
theorem test_decode_qpLoad : decode [0x46000101#32, 0x9000#32, 0xA000#32, 3#32] =
    .command (.qpLoad 1#8 1#8 0x9000#32 0xA000#32 3#32) [] := by decide

theorem test_decode_unknownOpcode : decode [0x03000000#32, 1#32] = .illegalOpcode 0x03000000#32 [1#32] := by decide
theorem test_decode_reservedBit : decode [0x11020005#32, 1#32] = .reservedBitSet 0x11020005#32 [1#32] := by decide
theorem test_decode_owed : decode [0x31000000#32, 1#32, 2#32] = .owed .secAdd := by decide
theorem test_decodeTableWord : decodeTableWord 64 0x0000001311010005 = some (.bwPutbits .w1 5#6 0x13#32) := by decide
theorem test_withFetchWord : (State.reset.withFetchWord 32 0x31000000).port = [0x31000000#32, 0#32, 0#32, 0#32] := by decide

/-! ### One step, from the vectors of 95_test_vectors.md -/

/-- The parameters of the vectors (95_test_vectors.md section 1). -/
def params : Params :=
  { tmpCap := 2048#32, maxSections := 64#32, maxParts := 16#32, maxRoi := 32#32, maxLayers := 2#32, sentinel := 0x80#8,
    fmv0Mask := 0x80#8 }

/-- A launch with the vectors' parameters over some memory map and payload answers. -/
def launch (rs : List Region) (answers : List PayloadEntry) : State :=
  { State.reset with platform := some { params := params, memMap := rs, payloads := answers, udu := none } }

/-- The vectors' start state: every address admitted. -/
def base : State := launch [{ base := 0, size := 2 ^ 32 }] []

/-- The vectors' start state over a memory of 256 bytes. -/
def small : State := launch [{ base := 0, size := 0x100 }] []

/-- A field of the state after one step. -/
def stepped {α : Type} (s : State) (f : State → α) : Option α :=
  match step s with
  | .next t => some (f t)
  | _ => none

/-- A field of the state after the step that takes these words. -/
def ran {α : Type} (ws : List Word) (s : State) (f : State → α) : Option α := stepped { s with port := ws } f

/-- Bytes put into memory. -/
def poke (s : State) (a : Nat) (bs : List Byte) : State := { s with mem := writeBytes s.mem a bs }

/-- A fresh W[0] of some capacity in bits. -/
def bw (a bits : Word) (s : State) : State :=
  { s with w0 := { valid := true, base := a, maxBits := bits, bitCnt := 0, ovf := false } }

/-- The writer of V-BW-1 to V-BW-9: 8 zero bytes at 0x1000. -/
def bw8 : State := poke (bw 0x1000#32 64#32 base) 0x1000 (List.replicate 8 0#8)

/-- The first byte of that writer, and its BITCNT. -/
def first (t : State) : Byte × Nat := (readByte t.mem 0x1000, t.w0.bitCnt)

theorem test_nop : ran [0#32] base (fun t => (t.cmdSeq, t.res, t.port)) = some (1#32, 0#32, []) := by decide +kernel
theorem test_regRd : ran [0x01000011#32] base (fun t => t.res) = some 4#32 := by decide +kernel
theorem test_regRd_undefined : ran [0x01000007#32] base (fun t => (t.faultCause, t.halted)) = some (.regAccess, true) := by
  decide +kernel
theorem test_regWr : ran [0x02000010#32, 1#32] base (fun t => (t.cfgCodec, t.cmdSeq)) = some (.hevc, 1#32) := by
  decide +kernel
theorem test_regWr_range : ran [0x02000011#32, 5#32] base (fun t => (t.faultCause, t.cfgScLen, t.faultInfo)) =
    some (.operandRange, .four, 0x02000011#32) := by decide +kernel
theorem test_bwInit : ran [0x10000000#32, 0x1000#32, 64#32] base (fun t => t.w0) =
    some { valid := true, base := 0x1000#32, maxBits := 64#32, bitCnt := 0, ovf := false } := by decide +kernel
theorem test_bwInit_bus : ran [0x10000000#32, 0xFFFFFFF8#32, 128#32] base (fun t => (t.faultCause, t.faultArg, t.w0.valid)) =
    some (.busError, 0xFFFFFFF8#32, false) := by decide +kernel
theorem test_bwPutbits : ran [0x11000003#32, 5#32] bw8 first = some (0xA0#8, 3) := by decide +kernel
theorem test_bwPutbits_overflow :
    ran [0x11000008#32, 0xAB#32] (bw 0x1000#32 7#32 base) (fun t => (first t, t.w0.ovf)) =
      some ((0xEE#8, 8), true) := by decide +kernel
theorem test_bwPutbit : ran [0x12000001#32] bw8 first = some (0x80#8, 1) := by decide +kernel
theorem test_bwPutu : ran [0x13000008#32, 0xAB#32] bw8 first = some (0xAB#8, 8) := by decide +kernel
theorem test_bwPuts : ran [0x14000004#32, 0xFFFFFFFD#32] bw8 first = some (0xD0#8, 4) := by decide +kernel
theorem test_bwPutue : ran [0x15000000#32, 3#32] bw8 first = some (0x20#8, 5) := by decide +kernel
theorem test_bwPutue_split : ran [0x15000000#32, 3#32] (bw 0x1000#32 4#32 base) first = some (0x2E#8, 5) := by decide +kernel
theorem test_bwPutse : ran [0x16000000#32, 0xFFFFFFFE#32] bw8 first = some (0x28#8, 5) := by decide +kernel
theorem test_bwPutse_positive : ran [0x16000000#32, 1#32] bw8 first = some (0x40#8, 3) := by decide +kernel
theorem test_bwAlign : ran [0x17000001#32] { bw8 with w0.bitCnt := 3 } first = some (0x1F#8, 8) := by decide +kernel
theorem test_bwTrail : ran [0x18000000#32] { bw8 with w0.bitCnt := 3 } first = some (0x10#8, 8) := by decide +kernel
theorem test_bwSkip : ran [0x19000000#32, 20#32] (bw 0x1000#32 16#32 base) (fun t => (t.w0.bitCnt, t.w0.ovf)) =
    some (20, true) := by decide +kernel
theorem test_bwGetbits : ran [0x1A000000#32] { bw8 with w0.bitCnt := 2 ^ 32 + 20 } (fun t => t.res) = some 20#32 := by
  decide +kernel
theorem test_bwGetdata : ran [0x1B000000#32] bw8 (fun t => t.res) = some 0x1000#32 := by decide +kernel
theorem test_bwGetwptr : ran [0x1C000000#32] { bw8 with w0.bitCnt := 20 } (fun t => t.res) = some 0x1002#32 := by
  decide +kernel
theorem test_nalMkhdr_hevc : ran [0x20006067#32] { base with cfgCodec := .hevc } (fun t => t.res) =
    some 0x00024E0F#32 := by decide +kernel
theorem test_nalMkhdr_avc : ran [0x200000C7#32] base (fun t => t.res) = some 0x00010067#32 := by decide +kernel
theorem test_nalStart : ran [0x21024001#32] (bw 0x1000#32 64#32 base) (fun t => readBytes t.mem 0x1000 7) =
    some [0x00#8, 0x00#8, 0x00#8, 0x01#8, 0x40#8, 0x01#8, 0xEE#8] := by decide +kernel
theorem test_nalStart_three :
    ran [0x21000067#32] { bw 0x1000#32 64#32 base with cfgScLen := .three } (fun t => readBytes t.mem 0x1000 5) =
      some [0x00#8, 0x00#8, 0x01#8, 0x67#8, 0xEE#8] := by decide +kernel
theorem test_nalEpcopy :
    ran [0x22000000#32, 0x3000#32, 8#32]
        (poke (bw 0x5000#32 256#32 base) 0x3000 [0x00#8, 0x00#8, 0x00#8, 0x00#8, 0x03#8, 0x00#8, 0x00#8, 0x02#8])
        (fun t => (readBytes t.mem 0x5000 11, t.res)) =
      some ([0x00#8, 0x00#8, 0x03#8, 0x00#8, 0x00#8, 0x03#8, 0x03#8, 0x00#8, 0x00#8, 0x03#8, 0x02#8], 11#32) := by
  decide +kernel
theorem test_nalEpcopy_edge :
    ran [0x22000000#32, 0x3000#32, 3#32] (poke (bw 0x5000#32 16#32 base) 0x3000 [0x00#8, 0x00#8, 0x02#8])
        (fun t => (readBytes t.mem 0x5000 3, t.res, t.w0.bitCnt)) =
      some ([0x00#8, 0x00#8, 0xEE#8], 4#32, 32) := by decide +kernel
theorem test_nalFiller :
    ran [0x23064C01#32, 10#32] (bw 0x6000#32 96#32 base) (fun t => (readBytes t.mem 0x6000 10, t.res)) =
      some ([0x00#8, 0x00#8, 0x00#8, 0x01#8, 0x4C#8, 0x01#8, 0xFF#8, 0xEE#8, 0xEE#8, 0x80#8], 10#32) := by decide +kernel
theorem test_nalFiller_edge :
    ran [0x23024C01#32, 10#32] (bw 0x6000#32 40#32 base)
        (fun t => (readBytes t.mem 0x6000 6, t.res, t.w0.bitCnt)) =
      some ([0x00#8, 0x00#8, 0x00#8, 0x01#8, 0x4C#8, 0xEE#8], 5#32, 56) := by decide +kernel

/-- A buffer of 256 bytes at 0x7000 with the section of V-SEC-1. -/
def sec : State :=
  { base with
    sbValid := true, sbBase := 0x7000#32, sbCap := 256#32,
    sections := [{ offset := 100#32, length := 20#32, flags := 0#32 }] }

theorem test_secAttach : ran [0x30000000#32, 0x8000#32, 64#32] sec (fun t => (t.sbBase, t.sbCap, t.sections)) =
    some (0x8000#32, 64#32, []) := by decide +kernel
theorem test_secAdd : ran [0x31000000#32, 105#32, 0#32, 1#32] sec (fun t => (t.res, t.sections.length)) =
    some (1#32, 2) := by decide +kernel
theorem test_secAdd_overlap : ran [0x31000000#32, 110#32, 20#32, 0#32] sec (fun t => (t.faultCause, t.sections.length)) =
    some (.sectionRange, 1) := by decide +kernel

/-- The first `n` words of a record, as little-endian bytes. -/
def recordBytes (ws : List Word) : List Byte :=
  ws.flatMap (fun w => [w.extractLsb' 0 8, w.extractLsb' 8 8, w.extractLsb' 16 8, w.extractLsb' 24 8])

/-- A state whose payload source answers for the record at an address, with the vectors' payload bytes. -/
def answering (a : Nat) (s : State) : State :=
  let ctx := payloadCtx s (readRecord s.mem a)
  { s with platform := some {
      params := params, memMap := [{ base := 0, size := 2 ^ 32 }],
      payloads := [
        { kind := .aud, layer := 0, ctx := ctx, bytes := [0x10#8] },
        { kind := .vps, layer := 0, ctx := ctx, bytes := [0x0C#8, 0x01#8, 0xFF#8, 0xFF#8, 0x80#8] },
        { kind := .sps, layer := 0, ctx := ctx, bytes := [0x01#8, 0x00#8, 0x00#8, 0x00#8, 0x80#8] },
        { kind := .pps, layer := 0, ctx := ctx, bytes := [0xC1#8, 0x60#8, 0x80#8] },
        { kind := .seiAps, layer := 0, ctx := ctx, bytes := [0x40#8] },
        { kind := .seiBp, layer := 0, ctx := ctx, bytes := [0x00#8, 0x00#8, 0x02#8] },
        { kind := .seiPt, layer := 0, ctx := ctx, bytes := [0x05#8, 0x00#8] }],
      udu := some {
        uuid := #v[0x00#8, 0x01#8, 0x02#8, 0x03#8, 0x04#8, 0x05#8, 0x06#8, 0x07#8, 0x08#8, 0x09#8, 0x0A#8, 0x0B#8, 0x0C#8,
          0x0D#8, 0x0E#8, 0x0F#8]
        before := [], codes := [(1#32, { first := 0x01#8, rest := [] })], after := [] } } }

/-- Program P4 before its SEC_PICTURE. -/
def hevcPicture : State :=
  answering 0x20000
    (poke { base with
        cfgCodec := .hevc, cfgAud := true, cfgSeiMask := 5#9, sbValid := true, sbBase := 0x10000#32, sbCap := 4096#32 }
      0x20000 (recordBytes [0x207#32, 0#32, 0#32, 0#32, 1#32, 0x1234#32, 1#32, 0x800#32, 100#32]))

/-- Program P5 before its SEC_PICTURE. -/
def avcPicture : State :=
  answering 0x31000
    (poke { base with cfgAud := true, cfgFiller := .fill, sbValid := true, sbBase := 0x30000#32, sbCap := 40#32 }
      0x31000 (recordBytes [0x103#32, 0#32, 50#32, 0#32, 1#32, 0#32, 1#32, 8#32, 10#32]))

/-- The sections as numbers: offset, length, flags. -/
def sectionNumbers (t : State) : List (Nat × Nat × Nat) :=
  t.sections.map (fun x => (x.offset.toNat, x.length.toNat, x.flags.toNat))

theorem test_secPicture_hevc : ran [0x32000000#32, 0x20000#32] hevcPicture sectionNumbers =
    some [(0, 7, 6), (7, 11, 6), (18, 12, 6), (30, 9, 6), (39, 10, 14), (49, 17, 14), (0x800, 100, 4), (0x864, 0, 5)] := by
  decide +kernel
/-- R263 with the vectors' SEI_UDU answer: 16 bytes of UUID, then SLICE_COUNT 1. -/
theorem test_uduItems :
    (uduItems { avcPicture with cfgSeiMask := 0x100#9 } (readRecord avcPicture.mem 0x31000)).map (fun x => x.rbsp) =
      [[0x05#8, 0x11#8, 0x00#8, 0x01#8, 0x02#8, 0x03#8, 0x04#8, 0x05#8, 0x06#8, 0x07#8, 0x08#8, 0x09#8, 0x0A#8, 0x0B#8, 0x0C#8,
        0x0D#8, 0x0E#8, 0x0F#8, 0x01#8, 0x80#8]] := by decide +kernel

theorem test_secPicture_avc :
    ran [0x32000000#32, 0x31000#32] avcPicture
        (fun t => (sectionNumbers t, t.status, t.cpbDelay, readBytes t.mem 0x30010 8)) =
      some ([(0, 6, 2), (8, 10, 0), (18, 22, 0), (40, 0, 1)], 1#32, 2#32,
        [0xEE#8, 0xEE#8, 0x00#8, 0x00#8, 0x00#8, 0x01#8, 0x0C#8, 0xFF#8]) := by decide +kernel

/-- The end of program P4's table: a prefix SEI of 17 bytes, a part and the sentinel. -/
def sei : State :=
  poke { base with
      cfgCodec := .hevc, sbValid := true, sbBase := 0x10000#32, sbCap := 4096#32, sbHdrCur := 0x42#32
      sections := [{ offset := 49#32, length := 17#32, flags := 0x0E#32 },
        { offset := 0x800#32, length := 100#32, flags := 4#32 }, { offset := 0x864#32, length := 0#32, flags := 5#32 }] }
    0x21000 [0xAA#8, 0xBB#8]

theorem test_secAddsei_prefix :
    ran [0x33000005#32, 0x21000#32, 2#32] sei
        (fun t => (sectionNumbers t, t.res, t.sbHdrCur, readBytes t.mem 0x10042 11)) =
      some ([(49, 17, 14), (0x42, 11, 10), (0x800, 100, 4), (0x864, 0, 5)], 1#32, 0x4D#32,
        [0x00#8, 0x00#8, 0x00#8, 0x01#8, 0x4E#8, 0x01#8, 0x05#8, 0x02#8, 0xAA#8, 0xBB#8, 0x80#8]) := by decide +kernel
theorem test_secAddsei_suffix :
    ran [0x33010004#32, 0x21000#32, 2#32] sei (fun t => (sectionNumbers t, t.res, readByte t.mem 0x10868)) =
      some ([(49, 17, 14), (0x800, 100, 4), (0x864, 11, 0x10), (0x864, 0, 5)], 2#32, 0x50#8) := by decide +kernel

/-- The context of V-ROI-2 and V-ROI-3, HEVC 128 x 64, with node A. -/
def roi (mode : RoiMode) : State :=
  { base with
    cfgCodec := .hevc
    roi := { valid := true, picW := 128#32, picH := 64#32, log2Lcu := 5#32, lcuW := 4#32, lcuH := 2#32, bg := 0#8,
             mode := mode, codec := .hevc }
    nodes := [{ x0 := 0#32, y0 := 0#32, w := 2#32, h := 2#32, code := 0x3C#8 }] }

/-- The node list of the vectors with A and B. -/
def roiAB (mode : RoiMode) : State :=
  { roi mode with nodes := (roi mode).nodes ++ [{ x0 := 1#32, y0 := 0#32, w := 2#32, h := 2#32, code := 0x38#8 }] }

theorem test_roiInit :
    ran [0x40000001#32, 100#32, 70#32, 0xE0#32] (roi .incoming)
        (fun t => (t.roi.lcuW, t.roi.lcuH, t.roi.bg, t.roi.mode, t.nodes)) =
      some (4#32, 3#32, 0x20#8, .quality, []) := by decide +kernel
theorem test_roiAdd :
    ran [0x41000000#32, 96#32, 0#32, 200#32, 64#32, 0x3E#32] (roi .quality)
        (fun t => (t.res, t.nodes.map (fun n => (n.x0.toNat, n.w.toNat, n.code)))) =
      some (1#32, [(3, 1, 0x3E#8), (0, 2, 0x3C#8)]) := by decide +kernel
theorem test_roiAdd_outside : ran [0x41000000#32, 128#32, 0#32, 8#32, 8#32, 0x3F#32] (roi .incoming)
    (fun t => (t.res, t.nodes.length)) = some (0#32, 1) := by decide +kernel
theorem test_roiClear : ran [0x42000000#32] (roi .incoming) (fun t => (t.nodes, t.roi.lcuW)) = some ([], 4#32) := by
  decide +kernel
theorem test_roiDestroy : ran [0x43000000#32] (roi .quality) (fun t => (t.nodes, t.roi)) =
    some ([], RoiContext.reset) := by decide +kernel
theorem test_roiFill : ran [0x44000101#32, 0x9000#32] (roiAB .quality) (fun t => readBytes t.mem 0x9000 9) =
    some [0x3A#8, 0x38#8, 0x38#8, 0x3C#8, 0x3A#8, 0x38#8, 0x38#8, 0x3C#8, 0xEE#8] := by decide +kernel
theorem test_roiFill_groups :
    ran [0x44000402#32, 0x9000#32]
        { base with
          roi := { valid := true, picW := 32#32, picH := 16#32, log2Lcu := 4#32, lcuW := 2#32, lcuH := 1#32, bg := 1#8,
                   mode := .incoming, codec := .avc }
          nodes := [{ x0 := 0#32, y0 := 0#32, w := 1#32, h := 1#32, code := 0x3E#8 }] }
        (fun t => readBytes t.mem 0x9000 8) =
      some [0x3E#8, 0x3E#8, 0xEE#8, 0xEE#8, 0x3F#8, 0x3F#8, 0xEE#8, 0xEE#8] := by decide +kernel
theorem test_qpFlat : ran [0x45000201#32, 0x9100#32, 0xFB#32] (roi .incoming) (fun t => readBytes t.mem 0x9100 4) =
    some [0x3B#8, 0xEE#8, 0x3B#8, 0xEE#8] := by decide +kernel
theorem test_qpLoad :
    ran [0x46000101#32, 0x9000#32, 0xA000#32, 8#32] (poke (roi .incoming) 0xA000 ((List.range 8).map (BitVec.ofNat 8)))
        (fun t => (t.res, readBytes t.mem 0x9000 8)) = some (0#32, (List.range 8).map (BitVec.ofNat 8)) := by decide +kernel
theorem test_qpLoad_short : ran [0x46000101#32, 0x9000#32, 0xA000#32, 3#32] (roi .incoming)
    (fun t => (t.res, readByte t.mem 0x9000)) = some (1#32, 0xEE#8) := by decide +kernel
theorem test_illegalHeader : ran [0x03000000#32, 0#32] { base with cmdSeq := 2#32 }
    (fun t => (t.faultCause, t.faultInfo, t.faultSeq, t.faultArg, t.halted, t.cmdSeq)) =
      some (.illegalCommand, 0x03000000#32, 2#32, 0#32, true, 2#32) := by decide +kernel

/-! ### The hypotheses of the statements are met -/

/-- A state with every unit in use: W[0] after 3 bits, W[1] overflowed, a bound buffer with three sections, the ROI context of
V-ROI-3 with two nodes, and BW_PUTBIT w0, 1 on the port. -/
def busy : State :=
  { poke (roiAB .quality) 0x1000 [0x40#8] with
    cmdSeq := 5#32
    w0 := { valid := true, base := 0x1000#32, maxBits := 64#32, bitCnt := 3, ovf := false }
    w1 := { valid := true, base := 0x1100#32, maxBits := 4#32, bitCnt := 9, ovf := true }
    sbValid := true, sbBase := 0x2000#32, sbCap := 256#32
    sections := [{ offset := 0#32, length := 7#32, flags := 2#32 }, { offset := 100#32, length := 20#32, flags := 0#32 },
      { offset := 120#32, length := 0#32, flags := 1#32 }]
    port := [0x12000001#32] }

theorem base_params : params.Ok := by decide

theorem busy_writers : WritersOk busy where
  left :=
    { unset := fun h => absurd h (by decide +kernel)
      admitted := fun _ => admitted_of_admitFail_none _ _ _ (by decide +kernel)
      inside := fun _ => by decide +kernel }
  right :=
    { unset := fun h => absurd h (by decide +kernel)
      admitted := fun _ => admitted_of_admitFail_none _ _ _ (by decide +kernel)
      inside := fun h => absurd h (by decide +kernel) }

theorem busy_buffer : StreamBufferOk busy where
  unbound h := absurd h (by decide +kernel)
  admitted _ := admitted_of_admitFail_none _ _ _ (by decide +kernel)

theorem busy_table : SectionTableOk busy where
  count := by decide +kernel
  inside := by decide +kernel
  disjoint := by unfold Section.Disjoint; decide +kernel
  flags := by decide +kernel

theorem busy_roi : RoiOk busy where
  unset h := absurd h (by decide +kernel)
  grid _ := by decide +kernel
  count := by decide +kernel
  nodes n h := by
    have h : n = busy.nodes[0]! ∨ n = busy.nodes[1]! := by simpa [busy, roiAB, roi, poke] using h
    rcases h with rfl | rfl <;> exact ⟨by decide +kernel, by decide +kernel, by decide +kernel⟩
  sorted _ := by decide +kernel

theorem busy_faults : FaultRegsOk busy where
  running _ := by decide +kernel
  stopped h := absurd h (by decide +kernel)

theorem busy_config : ConfigOk busy where
  params := base_params
  layers := by decide +kernel
  tid := by decide +kernel

theorem busy_reachable : Reachable busy where
  memory := by decide +kernel
  writers := busy_writers
  buffer := busy_buffer
  table := busy_table
  roi := busy_roi
  faults := busy_faults
  config := busy_config

theorem test_witness_DecodedWordsAreTheEncoding :
    decode [0x11010005#32, 0x13#32, 9#32] = .command (.bwPutbits .w1 5#6 0x13#32) [9#32] := by decide

theorem test_witness_WorkedEncodingsDecode :
    let s := { base with port := [0x11020005#32, 5#32] }
    s.halted = false ∧ s.port = 0x11020005#32 :: [5#32] ∧
      stepped s (fun t => (t.faultCause, t.faultInfo, t.port)) = some (.illegalCommand, 0x11020005#32, [5#32]) := by
  decide +kernel

theorem test_witness_IllegalHeaderRaisesIllegalCommand :
    ({ base with port := [0x03000000#32] } : State).halted = false ∧
    (∀ k ∈ [0x03, 0x0F, 0x1D, 0x1F, 0x24, 0x2F, 0x34, 0x3F, 0x47, 0xFF],
      let opc := (BitVec.ofNat 32 (k * 2 ^ 24)).toNat / 2 ^ 24
      (0x03 ≤ opc ∧ opc ≤ 0x0F) ∨ (0x1D ≤ opc ∧ opc ≤ 0x1F) ∨ (0x24 ≤ opc ∧ opc ≤ 0x2F) ∨ (0x34 ≤ opc ∧ opc ≤ 0x3F) ∨
        0x47 ≤ opc) ∧
    (headerOpc 0x00000001#32 = opcodeByte .nop ∧
      0x00000001#32 &&& opcodeMask .nop ≠ (opcodeByte .nop).setWidth 32 <<< 24) := by decide +kernel

theorem test_witness_IdleAndOwedBlockHolds :
    base.halted = false ∧ base.port = [] ∧ (0x02000011#32 : Word) &&& opcodeMask .regWr = (opcodeByte .regWr).setWidth 32 <<< 24 ∧
      ([] : List Word).length < argCount .regWr ∧ [1#32, 2#32, 3#32, 4#32].length < argCount .roiAdd := by decide +kernel

theorem test_witness_StepRunsDecodedCommand :
    busy.halted = false ∧ decode busy.port = .command (.bwPutbit .w0 true) [] := by decide +kernel

theorem test_witness_HaltedBlockDiscardsWords :
    ({ base with halted := true, port := [1#32, 2#32] } : State).halted = true ∧
      ({ base with halted := true, port := [1#32, 2#32] } : State).port = 1#32 :: [2#32] ∧
      ({ base with halted := true } : State).port = [] := by decide +kernel

theorem test_witness_FaultCausesPerCommand :
    base.halted = false ∧ ran [0x1A000000#32] base (fun t => (t.halted, t.faultCause)) = some (true, .notInitialised) := by
  decide +kernel

theorem test_witness_OperandRangeFaults :
    (32 < (33#6).toNat ∧ 2 ^ (4#6).toNat ≤ (16#32).toNat) ∧
    ((0#6).toNat = 0 ∧ (1#32).toInt ≠ 0) ∧ (0 < (4#6).toNat ∧ (0xFFFFFFF7#32).toInt < -2 ^ ((4#6).toNat - 1)) ∧
    (0 < (4#6).toNat ∧ 2 ^ ((4#6).toNat - 1) ≤ (8#32).toInt) ∧ 256 ≤ (0x100#16).toNat ∧ 64 ≤ (64#32).toNat ∧
    (0#8).toNat = 0 ∧ (1#8).toNat < (2#8).toNat := by decide +kernel

theorem test_witness_ReachableAfterReset :
    Reachable busy ∧ 0xFFFFFFFF < addressSpace ∧ readByte (hostWrite busy 0xFFFFFFFF 0x12#8).mem 0xFFFFFFFF = 0x12#8 ∧
      (deliver busy [0#32]).port = [0x12000001#32, 0#32] := ⟨busy_reachable, by decide +kernel⟩

/-- The five invariants together, and a step that moves the state. -/
theorem test_witness_StepKeeps :
    Reachable busy ∧ stepped busy (fun t => (t.w0.bitCnt, readByte t.mem 0x1000)) = some (4, 0x50#8) :=
  ⟨busy_reachable, by decide +kernel⟩

theorem test_witness_StepKeepsMemoryCanonical : busy.mem.wf = true ∧ stepped busy (fun t => t.cmdSeq) = some 6#32 := by
  decide +kernel
theorem test_witness_StepKeepsWritersOk : WritersOk busy ∧ stepped busy (fun t => t.w0.bitCnt) = some 4 :=
  ⟨busy_writers, by decide +kernel⟩
theorem test_witness_StepKeepsBufferAndConfigOk :
    StreamBufferOk busy ∧ ConfigOk busy ∧ ran [0x30000000#32, 0#32, 0#32] busy (fun t => t.sbCap) = some 0#32 :=
  ⟨busy_buffer, busy_config, by decide +kernel⟩
theorem test_witness_StepKeepsSectionTableOk :
    SectionTableOk busy ∧ ran [0x31000000#32, 120#32, 136#32, 0x3F#32] busy (fun t => t.sections.length) = some 4 :=
  ⟨busy_table, by decide +kernel⟩
theorem test_witness_StepKeepsRoiOk :
    RoiOk busy ∧ ran [0x41000000#32, 127#32, 63#32, 9#32, 9#32, 0x20#32] busy (fun t => t.nodes.length) = some 3 :=
  ⟨busy_roi, by decide +kernel⟩
theorem test_witness_StepKeepsFaultRegsOk :
    FaultRegsOk busy ∧ ran [0x02000000#32, 0#32] busy (fun t => (t.faultSeq, t.faultCause)) = some (5#32, .regAccess) :=
  ⟨busy_faults, by decide +kernel⟩

theorem test_witness_StepWritesOnlyItsRange :
    RoiOk busy ∧ (busy.halted = false ∧ decode busy.port = .command (.bwPutbit .w0 true) []) ∧
      stepped busy (fun t => readByte t.mem 0x1000) = some 0x50#8 ∧
      (RoiOk { busy with halted := true } ∧ stepped { busy with halted := true } (fun t => t.port) = some []) ∧
      ∀ i rest, decode ({ busy with port := [] } : State).port ≠ .command i rest :=
  ⟨busy_roi, by decide +kernel, by decide +kernel, ⟨⟨busy_roi.unset, busy_roi.grid, busy_roi.count, busy_roi.nodes,
    busy_roi.sorted⟩, by decide +kernel⟩, fun _ _ h => nomatch h⟩

theorem test_witness_StepChangesOnlyAdmittedBytes :
    Reachable busy ∧ readByte busy.mem 0x1000 = 0x40#8 ∧ stepped busy (fun t => readByte t.mem 0x1000) = some 0x50#8 :=
  ⟨busy_reachable, by decide +kernel, by decide +kernel⟩

theorem test_witness_OverflowStickyUntilBwInit :
    (busy.writer .w1).ovf = true ∧ stepped busy (fun t => t.w1.ovf) = some true ∧
      (∀ b m rest, decode busy.port ≠ .command (.bwInit .w1 b m) rest) ∧
      namedWriter (.bwPutbit .w1 true) = some .w1 ∧ ran [0x12010001#32] busy (fun t => t.w1.bitCnt) = some 10 := by
  refine ⟨by decide +kernel, by decide +kernel, fun b m rest h => ?_, rfl, by decide +kernel⟩
  have hd : decode busy.port = .command (.bwPutbit .w0 true) [] := by decide +kernel
  rw [hd] at h
  cases h

theorem test_witness_PutSkipSequences :
    let x : Stream := ({ base := 0x1000, maxBits := 10, bitCnt := 0, ovf := false }, { cells := [] })
    let ops : List StreamOp := [.put 8 0xAB, .skip 1, .put 2 3]
    x.2.wf = true ∧ x.1.bitCnt = 0 ∧ x.1.ovf = false ∧ x.1.maxBits < opsSize ops ∧
      x.1.base + capacityBytes x.1.maxBits ≤ 0x1002 ∧ x.1.maxBits ≤ 10 := by decide +kernel

/-- In a memory of 256 bytes, 0x100 is the lowest failing byte of every range that begins inside and passes it. -/
theorem small_failing (a n : Nat) (ha : a ≤ 0x100) (hn : 0x100 < a + n) : LowestFailing small.memMap a n 0x100 := by
  refine Or.inl ⟨ha, hn, by decide, by decide +kernel, fun c _ h2 => ?_⟩
  show memOk [{ base := 0, size := 0x100 }] c = true
  simp [memOk, regionContains, h2]

/-- Every address is admitted, but the range passes 2^32. -/
theorem base_failing : LowestFailing base.memMap 0xFFFFFFFF 2 0xFFFFFFFF := by
  refine Or.inr ⟨rfl, by decide, by decide, fun c _ h2 => ?_⟩
  show memOk [{ base := 0, size := 2 ^ 32 }] c = true
  simp [memOk, regionContains]
  exact h2

theorem small_admitted (a n : Nat) (h : a + n ≤ 0x100) : Admitted small.memMap a n := by
  intro b _ h2
  refine ⟨by simp only [addressSpace]; omega, ?_⟩
  show memOk [{ base := 0, size := 0x100 }] b = true
  simp [memOk, regionContains]
  omega

/-- A state over 256 bytes of memory with a writer, a buffer, a codec and a ROI grid of 4 x 2. -/
def smallBusy : State :=
  { bw 0x20#32 64#32 small with
    cfgCodec := .hevc, sbValid := true, sbBase := 0x40#32, sbCap := 16#32, roi := (roi .incoming).roi
    mem := { cells := [] } }

theorem test_witness_BusErrorNamesLowestByte :
    (smallBusy.writer .w0).valid = true ∧ smallBusy.sbValid = true ∧ smallBusy.cfgCodec ≠ .other ∧
      smallBusy.roi.valid = true ∧ LowestFailing smallBusy.memMap (0xFF#32).toNat (2#32).toNat 0x100 ∧
      LowestFailing smallBusy.memMap (0xF9#32).toNat (smallBusy.roi.lcuW.toNat * smallBusy.roi.lcuH.toNat * (1#8).toNat) 0x100 ∧
      smallBusy.roi.lcuW.toNat * smallBusy.roi.lcuH.toNat * (1#8).toNat ≤ (8#32).toNat ∧
      Admitted smallBusy.memMap (0xF8#32).toNat (smallBusy.roi.lcuW.toNat * smallBusy.roi.lcuH.toNat * (1#8).toNat) :=
  ⟨rfl, rfl, by decide, rfl, small_failing _ _ (by decide) (by decide), small_failing _ _ (by decide) (by decide), by decide,
    small_admitted _ _ (by decide)⟩

theorem busy_ready : WriterReady busy .w0 := ⟨by decide +kernel, by decide +kernel, busy_writers.1⟩

/-- W[0] at a byte boundary with room for exactly 7 bytes, the filler header of 6 bytes and its final 80. -/
def full : State := { busy with w0 := { busy.w0 with maxBits := 64#32, bitCnt := 8 } }

theorem full_ready : WriterReady full .w0 where
  memory := by decide +kernel
  valid := by decide +kernel
  writer :=
    { unset := fun h => absurd h (by decide +kernel)
      admitted := fun _ => admitted_of_admitFail_none _ _ _ (by decide +kernel)
      inside := fun _ => by decide +kernel }

theorem test_witness_StreamOperationsLand : StreamOk (full.stream .w0) ∧ AlignedRoom (full.stream .w0).1 7 :=
  ⟨⟨by decide +kernel, by decide +kernel⟩, by decide +kernel, by decide +kernel, by decide +kernel⟩

theorem test_witness_RegisterMapNumbers :
    (0 < 256 ∧ 1 < 256 ∧ 255 < 256) ∧
      (busy.sections[1]? = some { offset := 100#32, length := 20#32, flags := 0#32 } ∧ busy.sections.length ≤ 3 ∧
        readPort busy 0x404#16 = 100#32 ∧ readPort busy 0x405#16 = 20#32 ∧ readPort busy 0x40A#16 = 1#32 ∧
        readPort busy 0x40C#16 = 0#32 ∧ readPort busy 0x7FF#16 = 0#32) ∧
      (busy.nodes[1]? = some { x0 := 1#32, y0 := 0#32, w := 2#32, h := 2#32, code := 0x38#8 } ∧ busy.nodes.length ≤ 2 ∧
        readPort busy 0x808#16 = 1#32 ∧ readPort busy 0x80C#16 = 0x38#32 ∧ readPort busy 0x80F#16 = 0#32 ∧
        readPort busy 0xFFF#16 = 0#32) ∧
      (regOfNat (0x007#16).toNat).isSome = false ∧ (regOfNat (0x1000#16).toNat).isSome = false ∧
      readPort busy 0x031#16 = 0x2000#32 ∧ readPort busy 0x032#16 = 256#32 := by decide +kernel

theorem test_witness_NopAndRegRdComplete :
    (regOfNat (0x006#16).toNat).isSome = true ∧ (regOfNat (0xFFF#16).toNat).isSome = true ∧
      (regOfNat (0x007#16).toNat).isSome = false ∧ (regOfNat (0x1000#16).toNat).isSome = false := by decide +kernel

theorem test_witness_RegWrWrites :
    (3#32).toNat < 4 ∧ (2#32).toNat ≤ 2 ∧ ((3#32).toNat = 3 ∨ (3#32).toNat = 4) ∧ (1#32).toNat ≤ 1 ∧ (511#32).toNat < 512 ∧
      (1 ≤ (2#32).toNat ∧ (2#32).toNat ≤ base.params.maxLayers.toNat) ∧ 4 ≤ (4#32).toNat ∧ 512 ≤ (512#32).toNat ∧
      base.params.maxLayers.toNat < (3#32).toNat ∧ ((5#32).toNat ≠ 3 ∧ (5#32).toNat ≠ 4) ∧
      ((0x00F#16).toNat < 0x010 ∧ 0x016 < (0x017#16).toNat) := by decide +kernel

theorem test_witness_BwInitSetsUpWriter :
    Admitted small.memMap (0xF8#32).toNat (((64#32).toNat + 7) / 8) ∧
      LowestFailing small.memMap (0xF8#32).toNat (((65#32).toNat + 7) / 8) 0x100 ∧
      LowestFailing base.memMap (0xFFFFFFFF#32).toNat (((9#32).toNat + 7) / 8) 0xFFFFFFFF :=
  ⟨small_admitted _ _ (by decide), small_failing _ _ (by decide) (by decide), base_failing⟩

theorem test_witness_SinglePutCommandsLand :
    WriterReady busy .w0 ∧ ((32#6).toNat ≤ 32 ∧ (0xFFFFFFFF#32).toNat < 2 ^ (32#6).toNat) ∧
      ((0#6).toNat = 0 ∧ (0#32).toInt = 0 ∧ ((0 : Nat) : Int) = (0#32).toInt % 2 ^ (0#6).toNat) ∧
      (-2 ^ ((32#6).toNat - 1) ≤ (0x80000000#32).toInt ∧ (0x80000000#32).toInt ≤ 2 ^ ((32#6).toNat - 1) - 1 ∧
        ((2 ^ 31 : Nat) : Int) = (0x80000000#32).toInt % 2 ^ (32#6).toNat) ∧
      5 < 8 ∧ ((busy.writer .w0).bitCnt + 5) % 8 = 0 := ⟨busy_ready, by decide +kernel⟩

theorem test_witness_TwoPutCommandsLand :
    WriterReady busy .w0 ∧
      ((0xFFFFFFFE#32 : Word) ≠ 0xFFFFFFFF#32 ∧ 2 ^ 31 ≤ (0xFFFFFFFE#32).toNat + 1 ∧ (0xFFFFFFFE#32).toNat + 1 < 2 ^ (31 + 1)) ∧
      ((0x80000001#32 : Word) ≠ 0x80000000#32 ∧ (0x80000001#32).toInt ≤ 0 ∧
        ((4294967294 : Nat) : Int) = -2 * (0x80000001#32).toInt ∧ 2 ^ 31 ≤ 4294967294 + 1 ∧ 4294967294 + 1 < 2 ^ (31 + 1)) ∧
      (0 < (1#32).toInt ∧ ((1 : Nat) : Int) = 2 * (1#32).toInt - 1 ∧ 2 ^ 1 ≤ 1 + 1 ∧ 1 + 1 < 2 ^ (1 + 1)) ∧
      4 < 8 ∧ ((busy.writer .w0).bitCnt + 1 + 4) % 8 = 0 := ⟨busy_ready, by decide +kernel⟩

theorem test_witness_SkipAndQueriesAnswer : (busy.writer .w0).valid = true ∧ (base.writer .w0).valid = false := by
  decide +kernel

theorem test_witness_WriterCommandsNeedValid :
    namedWriter (.bwPutbits .w0 33#6 0#32) = some .w0 ∧ (Instr.bwPutbits .w0 33#6 0#32).wellFormed = false ∧
      namedWriter (.bwPutbits .w1 32#6 0#32) = some .w1 ∧ (Instr.bwPutbits .w1 32#6 0#32).wellFormed = true ∧
      (base.writer .w1).valid = false := by decide +kernel

theorem test_witness_MakeHeaderAnswers :
    ({ base with cfgCodec := .other } : State).cfgCodec = .other ∧
      (base.cfgCodec = .avc ∧ (31#6).toNat ≤ 31 ∧ (3#6).toNat ≤ 3 ∧ (0#3).toNat = 0) ∧
      (31 < (32#6).toNat ∧ 3 < (4#6).toNat ∧ (1#3).toNat ≠ 0) ∧
      (busy.cfgCodec = .hevc ∧ (6#3).toNat ≤ 6 ∧ (7#3).toNat = 7) := by decide +kernel

theorem test_witness_StartCodeAndHeaderEmitted :
    WriterReady busy .w0 ∧ (busy.cfgScLen = .four → [0x00#8, 0x00#8, 0x00#8, 0x01#8] = [0x00#8, 0x00#8, 0x00#8, 0x01#8]) ∧
      (busy.cfgScLen = .three → [0x00#8, 0x00#8, 0x00#8, 0x01#8] = [0x00#8, 0x00#8, 0x01#8]) ∧ (0xFF#16).toNat < 256 :=
  ⟨busy_ready, fun _ => rfl, fun h => absurd h (by decide +kernel), by decide⟩

/-- V-EP-4, V-EP-6, and a byte of FF after two zeros. -/
theorem test_emulationPrevent :
    emulationPrevent [0x00#8, 0x00#8, 0x04#8] = [0x00#8, 0x00#8, 0x04#8] ∧
      emulationPrevent [0x00#8, 0x00#8, 0x00#8, 0x00#8, 0x03#8, 0x00#8, 0x00#8, 0x02#8] =
        [0x00#8, 0x00#8, 0x03#8, 0x00#8, 0x00#8, 0x03#8, 0x03#8, 0x00#8, 0x00#8, 0x03#8, 0x02#8] ∧
      emulationPrevent [0x00#8, 0x00#8, 0xFF#8] = [0x00#8, 0x00#8, 0xFF#8] := by decide +kernel

/-- The tagged output for 00 00 03: the inserted byte is the third. -/
theorem test_witness_EmulationPreventionProperties :
    let tagged : List (Bool × Byte) := [(false, 0x00#8), (false, 0x00#8), (true, 0x03#8), (false, 0x03#8)]
    emulationPrevent [0x00#8, 0x00#8, 0x03#8] = tagged.map Prod.snd ∧ tagged[2]? = some (true, 0x03#8) ∧
      tagged[3]? = some (false, 0x03#8) ∧ 1 ≤ [0x00#8, 0x00#8, 0x03#8].length ∧ [0x00#8, 0x00#8].length < 3 := by
  decide +kernel

theorem test_witness_EpcopyEmits : WriterReady busy .w0 ∧ Admitted busy.memMap (0x1000#32).toNat (8#32).toNat :=
  ⟨busy_ready, admitted_of_admitFail_none _ _ _ (by decide +kernel)⟩

theorem test_witness_FillerRunsItsOperations :
    WriterReady busy .w0 ∧ (HdrLen.one = .one → (0xFF#16).toNat < 256) ∧ (HdrLen.two = .one → (0x4C01#16).toNat < 256) :=
  ⟨busy_ready, fun _ => by decide, fun h => nomatch h⟩

theorem test_witness_FillerBytesInMemory :
    WriterReady full .w0 ∧ (HdrLen.two = .one → (0x4C01#16).toNat < 256) ∧
      AlignedRoom (writerView (full.writer .w0)) ((startCode full.cfgScLen ++ nalHeaderBytes .two 0x4C01#16).length + 1) :=
  ⟨full_ready, fun h => (nomatch h), by decide +kernel, by decide +kernel, by decide +kernel⟩

theorem test_witness_SecAttachBinds :
    Admitted small.memMap (0xF0#32).toNat (16#32).toNat ∧ LowestFailing small.memMap (0xF0#32).toNat (17#32).toNat 0x100 :=
  ⟨small_admitted _ _ (by decide), small_failing _ _ (by decide) (by decide)⟩

theorem test_witness_CheckPlanDecides :
    busy.params.maxSections.toNat < busy.sections.length + (List.replicate 62 (Span.mk 0 0)).length ∧
      busy.sections.length + (List.replicate 61 (Span.mk 0 0)).length ≤ busy.params.maxSections.toNat ∧
      PlanFits busy.sbCap.toNat (tableSpans busy.sections) [{ off := 7, len := 93 }, { off := 256, len := 0 }] ∧
      ¬PlanFits busy.sbCap.toNat (tableSpans busy.sections) [{ off := 6, len := 1 }] :=
  ⟨by decide +kernel, by decide +kernel, (rangesOk_table_iff _ _ _).1 (by decide +kernel),
    fun h => absurd ((rangesOk_table_iff _ _ _).2 h) (by decide +kernel)⟩

/-- A full table of zero-length sections. -/
def fullTable : State := { busy with sections := List.replicate 64 { offset := 0#32, length := 0#32, flags := 0#32 } }

theorem test_witness_SecAddAppends :
    64 ≤ (64#32).toNat ∧ (63#32).toNat < 64 ∧ base.sbValid = false ∧
      (fullTable.sbValid = true ∧ fullTable.params.maxSections.toNat ≤ fullTable.sections.length) ∧
      (busy.sbValid = true ∧ busy.sections.length < busy.params.maxSections.toNat ∧
        busy.sbCap.toNat < (256#32).toNat + (1#32).toNat ∧
        (∃ x ∈ busy.sections, ¬Section.Disjoint { offset := 119#32, length := 1#32, flags := 63#32 } x) ∧
        (120#32).toNat + (136#32).toNat ≤ busy.sbCap.toNat ∧
        ∀ x ∈ busy.sections, Section.Disjoint { offset := 120#32, length := 136#32, flags := 63#32 } x) := by
  unfold Section.Disjoint
  decide +kernel

/-- A 28-byte record with FLAGS and NPARTS at an address of a small memory's last bytes. -/
def smallRecord (a : Nat) (flags parts : Word) : State :=
  { poke smallBusy a (recordBytes [flags, 0#32, 0#32, 0#32, 0#32, 0#32, parts]) with cfgCodec := .hevc }

/-- A record of one part in the last 28 bytes of the address space. -/
def lastRecord : State :=
  { poke busy 0xFFFFFFE4 (recordBytes [0#32, 0#32, 0#32, 0#32, 0#32, 0#32, 1#32]) with cfgCodec := .avc }

theorem test_witness_PictureChecksInOrder_end :
    lastRecord.sbValid = true ∧ lastRecord.cfgCodec ≠ .other ∧ Admitted lastRecord.memMap (0xFFFFFFE4#32).toNat 28 ∧
      (readU32 lastRecord.mem ((0xFFFFFFE4#32).toNat + 24)).toNat ≤ lastRecord.params.maxParts.toNat ∧
      (0xFFFFFFE4#32).toNat + 28 = addressSpace ∧ 0 < (readU32 lastRecord.mem ((0xFFFFFFE4#32).toNat + 24)).toNat ∧
      ran [0x32000000#32, 0xFFFFFFE4#32] lastRecord (fun t => (t.faultCause, t.faultArg)) = some (.busError, 0#32) :=
  ⟨by decide +kernel, by decide +kernel, admitted_of_admitFail_none _ _ _ (by decide +kernel), by decide +kernel,
    by decide +kernel, by decide +kernel, by decide +kernel⟩

theorem test_witness_PictureChecksInOrder :
    base.sbValid = false ∧ ({ busy with cfgCodec := .other } : State).cfgCodec = .other ∧
      (smallBusy.sbValid = true ∧ smallBusy.cfgCodec ≠ .other ∧ LowestFailing smallBusy.memMap (0xE5#32).toNat 28 0x100) ∧
      (Admitted (smallRecord 0xE4 0#32 17#32).memMap (0xE4#32).toNat 28 ∧
        (smallRecord 0xE4 0#32 17#32).params.maxParts.toNat <
          (readU32 (smallRecord 0xE4 0#32 17#32).mem ((0xE4#32).toNat + 24)).toNat) ∧
      ((readU32 (smallRecord 0xE4 0#32 1#32).mem ((0xE4#32).toNat + 24)).toNat ≤
          (smallRecord 0xE4 0#32 1#32).params.maxParts.toNat ∧
        LowestFailing (smallRecord 0xE4 0#32 1#32).memMap ((0xE4#32).toNat + 28)
          (8 * (readU32 (smallRecord 0xE4 0#32 1#32).mem ((0xE4#32).toNat + 24)).toNat) 0x100) ∧
      (Admitted (smallRecord 0xE4 0x2000#32 0#32).memMap ((0xE4#32).toNat + 28)
          (8 * (readU32 (smallRecord 0xE4 0x2000#32 0#32).mem ((0xE4#32).toNat + 24)).toNat) ∧
        2 ^ 13 ≤ (readU32 (smallRecord 0xE4 0x2000#32 0#32).mem (0xE4#32).toNat).toNat ∧
        (readU32 (smallRecord 0xE4 0x300#32 0#32).mem (0xE4#32).toNat).toNat / 2 ^ 8 % 4 = 3 ∧
        (readU32 (smallRecord 0xE4 0x1C00#32 0#32).mem (0xE4#32).toNat).toNat / 2 ^ 10 % 8 = 7) := by
  refine ⟨by decide +kernel, by decide +kernel, ⟨by decide +kernel, by decide +kernel,
    small_failing _ _ (by decide) (by decide)⟩, ⟨small_admitted _ _ (by decide), by decide +kernel⟩,
    ⟨by decide +kernel, small_failing _ _ (by decide) (by decide +kernel)⟩, small_admitted _ _ (by decide +kernel), by decide +kernel,
    by decide +kernel, by decide +kernel⟩

theorem avcPicture_ready : PictureReady avcPicture 0x31000 where
  bound := by decide +kernel
  codec := by decide +kernel
  header := admitted_of_admitFail_none _ _ _ (by decide +kernel)
  count := by decide +kernel
  parts := admitted_of_admitFail_none _ _ _ (by decide +kernel)
  reserved := by decide +kernel
  stype := by decide +kernel
  tid := by decide +kernel

theorem avcPicture_fits : PictureFits avcPicture (readRecord avcPicture.mem 0x31000) where
  room := by decide +kernel
  fits := (rangesOk_table_iff _ _ _).1 (by decide +kernel)

theorem hevcPicture_ready : PictureReady hevcPicture 0x20000 where
  bound := by decide +kernel
  codec := by decide +kernel
  header := admitted_of_admitFail_none _ _ _ (by decide +kernel)
  count := by decide +kernel
  parts := admitted_of_admitFail_none _ _ _ (by decide +kernel)
  reserved := by decide +kernel
  stype := by decide +kernel
  tid := by decide +kernel

/-- The AVC picture with a full table, and with a part already covered. -/
def avcFull : State := { avcPicture with sections := List.replicate 61 { offset := 0#32, length := 0#32, flags := 0#32 } }
def avcCovered : State := { avcPicture with sections := [{ offset := 8#32, length := 1#32, flags := 0#32 }] }

theorem test_witness_PictureCommits :
    (PictureReady avcPicture (0x31000#32).toNat ∧ PictureFits avcPicture (readRecord avcPicture.mem 0x31000) ∧
      (readRecord avcPicture.mem 0x31000).first = true) ∧
    (PictureReady hevcPicture (0x20000#32).toNat ∧ (readRecord hevcPicture.mem 0x20000).idr = true) ∧
    (PictureReady avcFull (0x31000#32).toNat ∧ avcFull.params.maxSections.toNat <
      avcFull.sections.length + (picturePlan avcFull (readRecord avcFull.mem 0x31000)).length) ∧
    (PictureReady avcCovered (0x31000#32).toNat ∧ avcCovered.sections.length +
        (picturePlan avcCovered (readRecord avcCovered.mem 0x31000)).length ≤ avcCovered.params.maxSections.toNat ∧
      ¬PlanFits avcCovered.sbCap.toNat (tableSpans avcCovered.sections)
        (plannedSpans (picturePlan avcCovered (readRecord avcCovered.mem 0x31000)))) :=
  have h := avcPicture_ready
  ⟨⟨h, avcPicture_fits, by decide +kernel⟩, ⟨hevcPicture_ready, by decide +kernel⟩,
    ⟨⟨h.bound, h.codec, h.header, h.count, h.parts, h.reserved, h.stype, h.tid⟩, by decide +kernel⟩,
    ⟨h.bound, h.codec, h.header, h.count, h.parts, h.reserved, h.stype, h.tid⟩, by decide +kernel,
    fun h => absurd ((rangesOk_table_iff _ _ _).2 h) (by decide +kernel)⟩

theorem test_witness_ConfigurationItemsChosen :
    ConfigOk busy ∧ (readRecord hevcPicture.mem 0x20000).first = true ∧ hevcPicture.cfgCodec = .hevc ∧
      (readRecord avcPicture.mem 0x31000).first = true ∧ avcPicture.cfgCodec = .avc ∧
      ({ readRecord avcPicture.mem 0x31000 with first := false } : PicRecord).first = false := ⟨busy_config, by decide +kernel⟩

theorem test_witness_ConfigurationInsideWindow :
    (readRecord hevcPicture.mem 0x20000).first = true ∧
      (configPlan hevcPicture (readRecord hevcPicture.mem 0x20000)).planned.length = 6 ∧
      (let c := configPlan { hevcPicture with cfgHdrReserve := 16#32 } (readRecord hevcPicture.mem 0x20000)
       c.planned.map (fun p => (p.span.off, p.span.len)) = [(0, 7), (7, 9)] ∧ c.dropped = true) := by decide +kernel

theorem test_witness_FillerSectionPlanned :
    (hevcPicture.cfgCodec ≠ .other ∧ ¬hevcPicture.cfgFiller ≠ .off) ∧
    (avcPicture.cfgCodec ≠ .other ∧ avcPicture.cfgFiller ≠ .off ∧
      0 < (readRecord avcPicture.mem 0x31000).fillerBytes.toNat ∧
      0 < min (avcPicture.sbCap.toNat - firstUnusedOver avcPicture (planBeforeFiller avcPicture (readRecord avcPicture.mem 0x31000)))
        50) ∧
    min (18 - firstUnusedOver { avcPicture with sbCap := 18#32 }
      (planBeforeFiller { avcPicture with sbCap := 18#32 } (readRecord avcPicture.mem 0x31000))) 50 = 0 := by decide +kernel

theorem test_witness_SentinelEndsThePlan :
    (readRecord avcPicture.mem 0x31000).last = true ∧
      ({ readRecord avcPicture.mem 0x31000 with last := false } : PicRecord).last = false ∧
      (readRecord avcPicture.mem 0x31000).parts.length = 1 := by decide +kernel

theorem avcPicture_buffer : StreamBufferOk avcPicture where
  unbound h := absurd h (by decide +kernel)
  admitted _ := admitted_of_admitFail_none _ _ _ (by decide +kernel)

theorem test_witness_PictureBytesLand :
    avcPicture.mem.wf = true ∧ StreamBufferOk avcPicture ∧ PictureReady avcPicture (0x31000#32).toNat ∧
      PictureFits avcPicture (readRecord avcPicture.mem (0x31000#32).toNat) ∧
      (picturePlan avcPicture (readRecord avcPicture.mem 0x31000)).map (fun p => (p.span.off, p.span.len)) =
        [(0, 6), (8, 10), (18, 22), (40, 0)] :=
  ⟨by decide +kernel, avcPicture_buffer, avcPicture_ready, avcPicture_fits, by decide +kernel⟩

theorem test_witness_SeiPlacement :
    (∃ x, sei.sections[0]? = some x ∧ x.flags.getLsbD 3 = true) ∧
      (∀ y ∈ busy.sections, y.flags.getLsbD 3 = false) ∧ (∃ x, busy.sections[0]? = some x ∧ x.flags.getLsbD 1 = true) ∧
      (∀ y ∈ sec.sections, y.flags.getLsbD 3 = false) ∧ (∀ y ∈ sec.sections, y.flags.getLsbD 1 = false) ∧
      (∃ others x, sei.sections = others ++ [x] ∧ x.length = 0#32 ∧ x.flags.getLsbD 0 = true) ∧
      ∃ others x, sec.sections = others ++ [x] ∧ (x.length ≠ 0#32 ∨ x.flags.getLsbD 0 = false) := by
  refine ⟨⟨_, rfl, by decide⟩, by decide +kernel, ⟨_, rfl, by decide⟩, by decide +kernel, by decide +kernel,
    ⟨sei.sections.take 2, sei.sections[2]!, by decide +kernel, by decide +kernel, by decide +kernel⟩,
    ⟨[], sec.sections[0]!, by decide +kernel, by decide +kernel⟩⟩

theorem sei_buffer : StreamBufferOk sei where
  unbound h := absurd h (by decide +kernel)
  admitted _ := admitted_of_admitFail_none _ _ _ (by decide +kernel)

theorem test_witness_SeiInserted :
    sei.mem.wf = true ∧ StreamBufferOk sei ∧ sei.sbValid = true ∧ sei.cfgCodec ≠ .other ∧ ¬(true = true ∧ sei.cfgCodec = .avc) ∧
      Admitted sei.memMap (0x21000#32).toNat (2#32).toNat ∧ sei.sections.length ≠ sei.params.maxSections.toNat ∧
      (∀ sfx : Bool, (addSeiPlace sei sfx).2 + 11 ≤
        if sfx then sei.sbCap.toNat else min (sei.sbHdrBase.toNat + sei.cfgHdrReserve.toNat) sei.sbCap.toNat) ∧
      ∀ sfx : Bool, ∀ x ∈ sei.sections, x.length = 0#32 ∨ (addSeiPlace sei sfx).2 + 11 ≤ x.offset.toNat ∨
        x.offset.toNat + x.length.toNat ≤ (addSeiPlace sei sfx).2 :=
  ⟨by decide +kernel, sei_buffer, by decide +kernel, by decide +kernel, by decide +kernel,
    admitted_of_admitFail_none _ _ _ (by decide +kernel), by decide +kernel, by decide +kernel, by decide +kernel⟩

theorem test_witness_SeiInsertionFails :
    base.sbValid = false ∧ ({ sei with cfgCodec := .other } : State).sbValid = true ∧
      (avcPicture.sbValid = true ∧ avcPicture.cfgCodec = .avc ∧ Admitted avcPicture.memMap (0x31000#32).toNat (2#32).toNat) ∧
      (min (sei.sbHdrBase.toNat + (0x4C#32).toNat) sei.sbCap.toNat < (addSeiPlace sei false).2 + 11) ∧
      fullTable.sections.length = fullTable.params.maxSections.toNat ∧
      ∃ x ∈ busy.sections, x.length ≠ 0#32 ∧ (addSeiPlace busy false).2 < x.offset.toNat + x.length.toNat ∧
        x.offset.toNat < (addSeiPlace busy false).2 + 94 := by
  refine ⟨by decide +kernel, by decide +kernel, ⟨by decide +kernel, by decide +kernel,
    admitted_of_admitFail_none _ _ _ (by decide +kernel)⟩, by decide +kernel, by decide +kernel, by decide +kernel⟩

theorem test_witness_RoiInitSetsGrid : (1#32 : Word) ≠ 0#32 ∧ (0xFFFFFFFF#32 : Word) ≠ 0#32 := by decide

/-- A list with as many nodes as MAX_ROI. -/
def roiFullList : State := { roi .incoming with nodes := List.replicate 32 (roi .incoming).nodes[0]! }

theorem test_witness_RoiAddInserts :
    base.roi.valid = false ∧ busy.roi.valid = true ∧
      ((127#32).toNat / 2 ^ busy.roi.log2Lcu.toNat < busy.roi.lcuW.toNat ∧
        (63#32).toNat / 2 ^ busy.roi.log2Lcu.toNat < busy.roi.lcuH.toNat) ∧
      ¬((128#32).toNat / 2 ^ busy.roi.log2Lcu.toNat < busy.roi.lcuW.toNat) ∧
      roiFullList.nodes.length = roiFullList.params.maxRoi.toNat ∧ busy.nodes.length ≠ busy.params.maxRoi.toNat ∧
      busy.roi.mode = .quality ∧ (roi .incoming).roi.mode = .incoming := by decide +kernel

theorem test_witness_RoiClearAndDestroy :
    busy.roi.valid = true ∧ base.roi.valid = false ∧ 1 ≤ (255#8).toNat ∧ (255#8).toNat ≤ (255#8).toNat := by decide +kernel

theorem busy_qpReady : QpReady busy 1#8 255#8 0x9000#32 :=
  ⟨by decide +kernel, busy_roi, by decide +kernel, by decide, admitted_of_admitFail_none _ _ _ (by decide +kernel)⟩

theorem test_witness_QpBufferCommandsFill :
    QpReady busy 1#8 255#8 0x9000#32 ∧ busy.roi.lcuW.toNat * busy.roi.lcuH.toNat * (1#8).toNat ≤ (8#32).toNat ∧
      Admitted busy.memMap (0x9000#32).toNat (busy.roi.lcuW.toNat * busy.roi.lcuH.toNat * (1#8).toNat) ∧
      (7#32).toNat < busy.roi.lcuW.toNat * busy.roi.lcuH.toNat * (1#8).toNat ∧ base.roi.valid = false :=
  ⟨busy_qpReady, by decide +kernel, admitted_of_admitFail_none _ _ _ (by decide +kernel), by decide +kernel, by decide +kernel⟩

/-- R210: a type of 255 takes two bytes, and so does a size of 300. -/
theorem test_seiMsg_long :
    seiMsg 255 [] = [0xFF#8, 0x00#8, 0x00#8] ∧
      (seiMsg 5 (List.replicate 300 0xAB#8)).take 4 = [0x05#8, 0xFF#8, 0x2D#8, 0xAB#8] := by decide +kernel

theorem test_witness_RoiFillComputesGrid : QpReady busy 1#8 255#8 0x9000#32 := busy_qpReady

theorem test_witness_RoiFillProperties :
    QpReady busy 1#8 255#8 0x9000#32 ∧ busy.params.Ok ∧
      (let a := busy.nodes[0]!
       let b := busy.nodes[1]!
       busy.nodes = [b, a].foldl (fun l n => insertNode busy.roi.mode n l) [] ∧ nodeCovers b 1 0 ∧ nodeCovers a 1 0) ∧
      ({ busy.nodes[0]! with code := busy.params.sentinel } : RoiNode).code = busy.params.sentinel :=
  ⟨busy_qpReady, base_params, by decide +kernel, by decide +kernel⟩

end Sys2Proof.Tests
end

section
/-! What ROI_INIT leaves (43_roi_qp.md R320, R321): the rounding of the grid, the stored quality code, and the command. -/

namespace Sys2Proof.Machine

/-! ### Rounding up to whole LCUs -/

theorem le_ceilShift_mul (v k : Nat) : v ≤ ceilShift v k * 2 ^ k := by
  have hdiv : ceilShift v k * 2 ^ k + (v + 2 ^ k - 1) % 2 ^ k = v + 2 ^ k - 1 := Nat.div_add_mod' _ _
  have hmod : (v + 2 ^ k - 1) % 2 ^ k < 2 ^ k := Nat.mod_lt _ k.two_pow_pos
  omega

theorem ceilShift_mul_lt (v k : Nat) : ceilShift v k * 2 ^ k < v + 2 ^ k := by
  have hdiv : ceilShift v k * 2 ^ k ≤ v + 2 ^ k - 1 := Nat.div_mul_le_self _ _
  have hpos : 0 < 2 ^ k := k.two_pow_pos
  omega

theorem ceilShift_le (v k : Nat) : ceilShift v k ≤ v := by
  have hpos : 0 < 2 ^ k := k.two_pow_pos
  have hle : v ≤ v * 2 ^ k := Nat.le_mul_of_pos_right v hpos
  have hlt : (v + 2 ^ k - 1) / 2 ^ k < v + 1 := by
    rw [Nat.div_lt_iff_lt_mul hpos, Nat.add_one_mul]
    omega
  exact Nat.le_of_lt_succ hlt

/-- A size in LCUs fits the word that holds it, because it is at most the size in pixels. -/
@[simp] theorem toNat_ofNat_ceilShift (v : Word) (k : Nat) :
    (BitVec.ofNat 32 (ceilShift v.toNat k)).toNat = ceilShift v.toNat k := by
  have hle := ceilShift_le v.toNat k
  rw [BitVec.toNat_ofNat, Nat.mod_eq_of_lt (by omega)]

@[simp] theorem toNat_ofNat_log2Lcu (c : Codec) : (BitVec.ofNat 32 (log2Lcu c)).toNat = log2Lcu c := by
  cases c <;> rfl

/-! ### The stored code of a quality argument -/

theorem toNat_qualityArg (q : Word) : (qualityArg q).toNat = q.toNat % 256 := BitVec.toNat_setWidth _ _

/-- R321: the low byte of the argument is stored as it is when it is the sentinel, and cut to six bits otherwise. -/
theorem encodeQuality_qualityArg (p : Params) (q : Word) :
    encodeQuality p (qualityArg q) = p.sentinel ∧ q.toNat % 256 = p.sentinel.toNat ∨
      (encodeQuality p (qualityArg q)).toNat = q.toNat % 64 ∧ q.toNat % 256 ≠ p.sentinel.toNat := by
  rw [← toNat_qualityArg]
  by_cases hs : qualityArg q = p.sentinel
  · exact Or.inl ⟨by rw [encodeQuality, if_pos hs, hs], congrArg _ hs⟩
  · refine Or.inr ⟨?_, fun h => hs (BitVec.eq_of_toNat_eq h)⟩
    calc (encodeQuality p (qualityArg q)).toNat
        = (qualityArg q).toNat &&& (2 ^ 6 - 1) := by rw [encodeQuality, if_neg hs, BitVec.toNat_and]; rfl
      _ = q.toNat % 256 % 64 := by rw [Nat.and_two_pow_sub_one_eq_mod, toNat_qualityArg]
      _ = q.toNat % 64 := Nat.mod_mod_of_dvd _ (by decide)

/-! ### The command -/

/-- ROI_INIT has no check but the picture size. -/
theorem exec_roiInit_completes (s : State) (mode : RoiMode) (picW picH q : Word) (h : pictureSizeOk picW picH = true) :
    ∃ t, exec (.roiInit mode picW picH q) s = .next t ∧ Completed (.roiInit mode picW picH q) s t :=
  ⟨_, if_pos h, h, rfl⟩

/-- Settles O55: the state is the one `Completed` names, and its grid and background are read off the two laws above. -/
theorem roiInitSetsGrid : Obligations.RoiInitSetsGrid := by
  intro s mode picW picH q hw hh
  obtain ⟨t, hexec, -, rfl⟩ := exec_roiInit_completes s mode picW picH q (decide_eq_true ⟨hw, hh⟩)
  refine ⟨_, hexec, rfl, rfl, rfl, rfl, rfl, rfl, ?_⟩
  simp only [toNat_ofNat_log2Lcu, toNat_ofNat_ceilShift]
  exact ⟨rfl, le_ceilShift_mul _ _, ceilShift_mul_lt _ _, le_ceilShift_mul _ _, ceilShift_mul_lt _ _,
    encodeQuality_qualityArg _ _⟩

end Sys2Proof.Machine
end

section
/-! How every command ends (10_state.md R42, 20_memory.md R86, 60_exceptions.md R400, R403): it completes with the control
registers kept, or it raises a cause of its own. From this, what a step leaves of the fault registers (10_state.md R41). -/

namespace Sys2Proof.Machine

/-! ### The fields that a command's effects never touch -/

/-- The fields that change only by completing, by fault entry, and by taking words from the port. -/
def State.control (s : State) : Word × Bool × FaultCause × Word × Word × Word × List Word × Option Platform :=
  (s.cmdSeq, s.halted, s.faultCause, s.faultInfo, s.faultSeq, s.faultArg, s.port, s.platform)

theorem control_eq_iff (s t : State) :
    t.control = s.control ↔ t.cmdSeq = s.cmdSeq ∧ t.halted = s.halted ∧ t.faultCause = s.faultCause ∧
      t.faultInfo = s.faultInfo ∧ t.faultSeq = s.faultSeq ∧ t.faultArg = s.faultArg ∧ t.port = s.port ∧
      t.platform = s.platform := by
  simp only [State.control, Prod.mk.injEq]

@[simp] theorem setWriter_control (s : State) (w : WriterId) (x : HostWriter) : (s.setWriter w x).control = s.control := by
  cases w <;> rfl

@[simp] theorem withStream_control (s : State) (w : WriterId) (x : Stream) : (s.withStream w x).control = s.control :=
  setWriter_control s w _

theorem writeReg_control {s u : State} {r : RegName} {v : Word} (h : writeReg s r v = some u) : u.control = s.control := by
  rw [(writeReg_cases h).1]
  rfl

/-! ### How a command ends -/

/-- The ways a command can end: it completes after effects that keep the control fields, or it raises a cause that a command
can raise. -/
inductive Ends (i : Instr) (s : State) : Result → Prop where
  | completed {u : State} (kept : u.control = s.control) : Ends i s (complete u)
  | raised {c : FaultCause} (named : c ≠ .none := by decide) (own : c ≠ .illegalCommand := by decide) :
    Ends i s (raise i c s)
  | busFault (b : Nat) : Ends i s (raiseBus i b s)

theorem Ends.answered {i : Instr} {s u : State} (r : Word) (kept : u.control = s.control) :
    Ends i s (completeWith r u) :=
  .completed kept

theorem Ends.ite {i : Instr} {s : State} {p : Prop} [Decidable p] {a b : Result} (ha : Ends i s a) (hb : Ends i s b) :
    Ends i s (if p then a else b) := by
  split
  · exact ha
  · exact hb

/-- The commands that check their operands and then run on W[w] (40_bitwriter.md R152). -/
theorem writerCommand_ends (i : Instr) (ok : Bool) (w : WriterId) (f : Stream → Stream) (s : State) :
    Ends i s (writerCommand i ok w f s) :=
  .ite (.ite (.completed (withStream_control _ _ _)) .raised) .raised

/-- CheckPlan raises one of its two causes (42_sections.md R251). -/
theorem checkPlan_ends {s : State} {plan : List Span} {c : FaultCause} (i : Instr) (h : checkPlan s plan = some c) :
    Ends i s (raise i c s) := by
  unfold checkPlan at h
  split at h
  · cases h; exact .raised
  · split at h
    · cases h
    · cases h; exact .raised

theorem execRegRd_ends (reg : BitVec 16) (s : State) : Ends (.regRd reg) s (execRegRd reg s) := by
  unfold execRegRd
  split
  · exact .raised
  · exact .answered _ rfl

theorem execRegWr_ends (reg : BitVec 16) (value : Word) (s : State) : Ends (.regWr reg value) s (execRegWr reg value s) := by
  unfold execRegWr
  split
  · exact .raised
  · refine .ite ?_ .raised
    split
    · exact .raised
    · exact .completed (writeReg_control ‹_›)

theorem execBwInit_ends (w : WriterId) (base maxBits : Word) (s : State) :
    Ends (.bwInit w base maxBits) s (execBwInit w base maxBits s) := by
  unfold execBwInit
  split
  · exact .busFault _
  · exact .completed (setWriter_control _ _ _)

theorem execNalMkhdr_ends (type rl : BitVec 6) (tid : BitVec 3) (s : State) :
    Ends (.nalMkhdr type rl tid) s (execNalMkhdr type rl tid s) := by
  unfold execNalMkhdr
  split
  · exact .raised
  · exact .ite (.answered _ rfl) .raised
  · exact .ite (.answered _ rfl) .raised

theorem execNalEpcopy_ends (w : WriterId) (src n : Word) (s : State) :
    Ends (.nalEpcopy w src n) s (execNalEpcopy w src n s) := by
  refine .ite ?_ .raised
  split
  · exact .busFault _
  · exact .answered _ (withStream_control _ _ _)

theorem execSecAttach_ends (base cap : Word) (s : State) : Ends (.secAttach base cap) s (execSecAttach base cap s) := by
  unfold execSecAttach
  split
  · exact .busFault _
  · exact .completed rfl

theorem execSecAdd_ends (offset length flags : Word) (s : State) :
    Ends (.secAdd offset length flags) s (execSecAdd offset length flags s) := by
  refine .ite (.ite ?_ .raised) .raised
  split
  · exact checkPlan_ends _ ‹_›
  · exact .answered _ rfl

theorem pictureFlow_ends (i : Instr) (r : PicRecord) (s : State) : Ends i s (pictureFlow i r s) := by
  unfold pictureFlow
  split
  · exact checkPlan_ends _ ‹_›
  · exact .answered _ rfl

theorem execSecPicture_ends (record : Word) (s : State) : Ends (.secPicture record) s (execSecPicture record s) := by
  refine .ite (.ite .raised ?_) .raised
  split
  · exact .busFault _
  · refine .ite .raised ?_
    split
    · exact .busFault _
    · exact .ite (pictureFlow_ends _ _ s) .raised

theorem execSecAddsei_ends (sfx : Bool) (ptype : BitVec 16) (src size : Word) (s : State) :
    Ends (.secAddsei sfx ptype src size) s (execSecAddsei sfx ptype src size s) := by
  refine .ite (.ite .raised ?_) .raised
  split
  · exact .busFault _
  · exact .ite (.answered _ rfl) (.ite (.answered _ rfl) (.answered _ rfl))

theorem execRoiFill_ends (qpn bpl : BitVec 8) (dst : Word) (s : State) :
    Ends (.roiFill qpn bpl dst) s (execRoiFill qpn bpl dst s) := by
  refine .ite (.ite ?_ .raised) .raised
  split
  · exact .busFault _
  · exact .answered _ rfl

theorem execQpFlat_ends (qpn bpl : BitVec 8) (dst value : Word) (s : State) :
    Ends (.qpFlat qpn bpl dst value) s (execQpFlat qpn bpl dst value s) := by
  refine .ite (.ite ?_ .raised) .raised
  split
  · exact .busFault _
  · exact .answered _ rfl

theorem execQpLoad_ends (qpn bpl : BitVec 8) (dst src srcLen : Word) (s : State) :
    Ends (.qpLoad qpn bpl dst src srcLen) s (execQpLoad qpn bpl dst src srcLen s) := by
  refine .ite (.ite (.ite (.answered _ rfl) ?_) .raised) .raised
  split
  · exact .busFault _
  · split
    · exact .busFault _
    · exact .answered _ rfl

/-- Every command in every state ends in one of the three ways. -/
theorem exec_ends (i : Instr) (s : State) : Ends i s (exec i s) := by
  cases i with
  | nop => exact .completed rfl
  | regRd reg => exact execRegRd_ends reg s
  | regWr reg value => exact execRegWr_ends reg value s
  | bwInit w base maxBits => exact execBwInit_ends w base maxBits s
  | bwPutbits | bwPutu | bwPuts | bwPutue | bwPutse | nalStart => exact writerCommand_ends _ _ _ _ s
  | bwPutbit | bwAlign | bwTrail | bwSkip => exact .ite (.completed (withStream_control _ _ _)) .raised
  | bwGetbits | bwGetdata | bwGetwptr => exact .ite (.answered _ rfl) .raised
  | nalMkhdr type rl tid => exact execNalMkhdr_ends type rl tid s
  | nalEpcopy w src n => exact execNalEpcopy_ends w src n s
  | nalFiller => exact .ite (.ite (.answered _ (withStream_control _ _ _)) .raised) .raised
  | secAttach base cap => exact execSecAttach_ends base cap s
  | secAdd offset length flags => exact execSecAdd_ends offset length flags s
  | secPicture record => exact execSecPicture_ends record s
  | secAddsei sfx ptype src size => exact execSecAddsei_ends sfx ptype src size s
  | roiInit => exact .ite (.completed rfl) .raised
  | roiAdd => exact .ite (.ite (.ite .raised (.answered _ rfl)) (.answered _ rfl)) .raised
  | roiClear | roiDestroy => exact .ite (.completed rfl) .raised
  | roiFill qpn bpl dst => exact execRoiFill_ends qpn bpl dst s
  | qpFlat qpn bpl dst value => exact execQpFlat_ends qpn bpl dst value s
  | qpLoad qpn bpl dst src srcLen => exact execQpLoad_ends qpn bpl dst src srcLen s

/-- Each way to end is a next state: one more command counted, or fault entry, where BUS_ERROR records an address. -/
theorem Ends.next {i : Instr} {s : State} {r : Result} (h : Ends i s r) :
    ∃ t, r = .next t ∧
      (t.control = ({ s with cmdSeq := s.cmdSeq + 1#32 } : State).control ∨
        ∃ c b, c ≠ .none ∧ c ≠ .illegalCommand ∧ t = faultEntry (headerWord i) c b s) := by
  cases h with
  | @completed u kept =>
    obtain ⟨hseq, hkept⟩ := (control_eq_iff s u).1 kept
    exact ⟨_, rfl, .inl ((control_eq_iff _ _).2 ⟨congrArg (· + 1#32) hseq, hkept⟩)⟩
  | @raised c named own => exact ⟨_, rfl, .inr ⟨c, 0, named, own, rfl⟩⟩
  | busFault b => exact ⟨_, rfl, .inr ⟨.busError, b, nofun, nofun, rfl⟩⟩

/-- Settles O8: by how every command ends. -/
theorem commandCompletesOrFaultsWhole : Obligations.CommandCompletesOrFaultsWhole := by
  intro i s
  obtain ⟨t, hexec, hcount | hfault⟩ := (exec_ends i s).next
  · exact ⟨t, hexec, .inl ((control_eq_iff _ _).1 hcount)⟩
  · exact ⟨t, hexec, .inr hfault⟩

/-! ### The fault registers -/

/-- Fault entry with a cause leaves the fault registers of a halted block (60_exceptions.md R403). -/
theorem faultRegsOk_faultEntry (hw : Word) (c : FaultCause) (b : Nat) (s : State) (hc : c ≠ .none) :
    FaultRegsOk (faultEntry hw c b s) where
  running h := nomatch h
  stopped _ := ⟨hc, rfl⟩

/-- A running block executes a command: it still runs with the fault registers as they were, or it has faulted. -/
theorem exec_keeps_faultRegsOk {i : Instr} {s t : State} (hs : FaultRegsOk s) (hrun : s.halted = false)
    (h : exec i s = .next t) : FaultRegsOk t := by
  obtain ⟨t', hnext, hcount | ⟨c, b, hc, -, rfl⟩⟩ := (exec_ends i s).next
  · obtain rfl : t' = t := by simpa [hnext] using h
    obtain ⟨-, hhalt, hcause, hinfo, hseq, harg, -⟩ := (control_eq_iff _ _).1 hcount
    have hrun' : t'.halted = false := hhalt.trans hrun
    refine ⟨fun _ => ?_, fun hstop => absurd hstop (by simp [hrun'])⟩
    rw [hcause, hinfo, hseq, harg]
    exact hs.running hrun
  · obtain rfl : faultEntry (headerWord i) c b s = t := by simpa [hnext] using h
    exact faultRegsOk_faultEntry (headerWord i) c b s hc

/-- Settles O18: by what a step can do. Discarding a word touches no fault register, and every other step starts running. -/
theorem stepKeepsFaultRegsOk : Obligations.StepKeepsFaultRegsOk := by
  intro s t hs h
  rcases step_cases h with ⟨-, rfl⟩ | ⟨-, -, rfl | ⟨hw, rest, rfl⟩⟩ | ⟨hrun, i, rest, -, hexec⟩
  · exact ⟨hs.running, hs.stopped⟩
  · exact hs
  · exact faultRegsOk_faultEntry hw .illegalCommand 0 _ nofun
  · have htaken : FaultRegsOk { s with port := rest } := ⟨hs.running, hs.stopped⟩
    exact exec_keeps_faultRegsOk htaken hrun hexec

end Sys2Proof.Machine
end

section
/-! What a completed command leaves of the state, by the writer it names: the ROI context and its nodes (10_state.md R52, R53,
43_roi_qp.md R320 to R326) and the writer contexts (10_state.md R44, R56). -/

namespace Sys2Proof.Machine

/-- A command that names a writer ran operations on it, or only answered. -/
theorem Completed.ranOn_or_answered {i : Instr} {w : WriterId} {s t : State} (h : Completed i s t)
    (hn : namedWriter i = some w) : RanOn w s t ∨ Answered s t := by
  cases i with
  | bwPutbits | bwPutbit | bwPutu | bwPuts | bwPutue | bwPutse | bwAlign | bwTrail | nalStart | nalEpcopy | nalFiller =>
    cases hn
    exact .inl h
  | bwSkip w' n =>
    cases hn
    obtain ⟨hv, rfl⟩ := h
    exact .inl ⟨hv, [.skip n.toNat], s.res, by cases w <;> rfl⟩
  | bwGetbits | bwGetdata | bwGetwptr => exact .inr h
  | nop | regRd | regWr | bwInit | nalMkhdr | secAttach | secAdd | secPicture | secAddsei | roiInit | roiAdd | roiClear
  | roiDestroy | roiFill | qpFlat | qpLoad => cases hn

/-! ### The ROI context -/

/-- The fields that `RoiOk` speaks of. -/
def State.roiFields (s : State) : RoiContext × List RoiNode × Option Platform := (s.roi, s.nodes, s.platform)

theorem RoiOk.of_roiFields {s t : State} (hs : RoiOk s) (h : t.roiFields = s.roiFields) : RoiOk t := by
  simp only [State.roiFields, Prod.mk.injEq] at h
  obtain ⟨hroi, hnodes, hplatform⟩ := h
  have hparams : t.params = s.params := by rw [State.params, State.params, hplatform]
  constructor
  · rw [hroi, hnodes]; exact hs.unset
  · rw [hroi]; exact hs.grid
  · rw [hnodes, hparams]; exact hs.count
  · rw [hnodes, hparams, hroi]; exact hs.nodes
  · rw [hroi, hnodes]; exact hs.sorted

theorem RanOn.roiFields {w : WriterId} {s t : State} (h : RanOn w s t) : t.roiFields = s.roiFields := by
  obtain ⟨-, ops, r, rfl⟩ := h
  cases w <;> rfl

theorem Answered.roiFields {s t : State} (h : Answered s t) : t.roiFields = s.roiFields := by
  obtain ⟨r, rfl⟩ := h
  rfl

/-- With no node, only the context is left to check. -/
theorem roiOk_of_nodes_nil {s : State} (hn : s.nodes = []) (unset : s.roi.valid = false → s.roi = RoiContext.reset)
    (grid : s.roi.valid = true → s.roi.picW ≠ 0#32 ∧ s.roi.picH ≠ 0#32 ∧
      s.roi.log2Lcu = BitVec.ofNat 32 (log2Lcu s.roi.codec) ∧
      s.roi.lcuW.toNat = ceilShift s.roi.picW.toNat (log2Lcu s.roi.codec) ∧
      s.roi.lcuH.toNat = ceilShift s.roi.picH.toNat (log2Lcu s.roi.codec)) : RoiOk s where
  unset h := ⟨unset h, hn⟩
  grid := grid
  count := by rw [hn]; exact Nat.zero_le _
  nodes := by rw [hn]; exact nofun
  sorted _ := by rw [hn]; exact .nil

/-! ### A new node -/

/-- A number of LCUs that a grid word bounds fits a word. -/
theorem toNat_ofNat_of_le (n : Nat) (b : Word) (h : n ≤ b.toNat) : (BitVec.ofNat 32 n).toNat = n := by
  rw [BitVec.toNat_ofNat, Nat.mod_eq_of_lt (by omega)]

theorem encodeQuality_stored (p : Params) (q : Byte) :
    encodeQuality p q = p.sentinel ∨ encodeQuality p q &&& 0xC0#8 = 0#8 := by
  unfold encodeQuality
  split
  · exact .inl ‹_›
  · exact .inr (by rw [BitVec.and_assoc]; exact BitVec.and_zero)

/-- One axis of a clipped rectangle that begins inside the grid (R322). -/
theorem axis_inside (start size : Nat) (grid : Word) (h : start < grid.toNat) :
    (BitVec.ofNat 32 start).toNat < grid.toNat ∧
      (BitVec.ofNat 32 start).toNat + (BitVec.ofNat 32 (min size (grid.toNat - start))).toNat ≤ grid.toNat := by
  rw [toNat_ofNat_of_le start grid (by omega), toNat_ofNat_of_le (min size _) grid (by omega)]
  omega

/-- R322, R323: the node of a rectangle whose top-left lies in the grid. -/
theorem nodeOk_roiNodeOf (p : Params) (c : RoiContext) (q : Byte) (x y w h : Word) (hin : roiInside c x y = true) :
    NodeOk p c (roiNodeOf c (encodeQuality p q) x y w h) := by
  simp only [roiInside, Bool.and_eq_true, decide_eq_true_eq] at hin
  exact ⟨axis_inside _ _ _ hin.1, axis_inside _ _ _ hin.2, encodeQuality_stored p q⟩

/-! ### Its place in the list -/

/-- The order of the list in quality mode: DQP does not rise (R324). -/
abbrev QualityOrder : RoiNode → RoiNode → Prop := (fun n => dqp n.code) ⁻¹'o (· ≥ ·)

theorem insertByQuality_eq (n : RoiNode) (l : List RoiNode) : insertByQuality n l = l.orderedInsert QualityOrder n := by
  induction l with
  | nil => rfl
  | cons x t ih =>
    rw [insertByQuality, List.orderedInsert_cons, ih]
    have hfirst : QualityOrder n x ↔ ¬dqp n.code < dqp x.code := not_lt.symm
    by_cases hlt : dqp n.code < dqp x.code
    · rw [if_pos hlt, if_neg (fun h => hfirst.1 h hlt)]
    · rw [if_neg hlt, if_pos (hfirst.2 hlt)]

/-- R324: whatever the mode, the list gains the node and nothing else. -/
theorem insertNode_perm (mode : RoiMode) (n : RoiNode) (l : List RoiNode) : (insertNode mode n l).Perm (n :: l) := by
  cases mode with
  | incoming => exact List.perm_append_singleton n l
  | quality =>
    rw [insertNode, insertByQuality_eq]
    exact List.perm_orderedInsert _ n l

theorem insertNode_quality_sorted (n : RoiNode) (l : List RoiNode) (h : l.Pairwise QualityOrder) :
    (insertNode .quality n l).Pairwise QualityOrder := by
  rw [insertNode, insertByQuality_eq]
  exact h.orderedInsert n l

/-- R322 to R324: adding a node that lies inside the grid, with room in the list. -/
theorem RoiOk.insert {s t : State} (hs : RoiOk s) (n : RoiNode) (hv : s.roi.valid = true)
    (hroom : s.nodes.length < s.params.maxRoi.toNat) (hn : NodeOk s.params s.roi n) (hroi : t.roi = s.roi)
    (hparams : t.params = s.params) (hnodes : t.nodes = insertNode s.roi.mode n s.nodes) : RoiOk t := by
  have hperm := insertNode_perm s.roi.mode n s.nodes
  constructor
  · intro hinv
    rw [hroi, hv] at hinv
    cases hinv
  · rw [hroi]; exact hs.grid
  · rw [hnodes, hparams, hperm.length_eq]; exact hroom
  · intro m hm
    rw [hparams, hroi]
    rw [hnodes, hperm.mem_iff, List.mem_cons] at hm
    rcases hm with rfl | hold
    · exact hn
    · exact hs.nodes m hold
  · intro hq
    rw [hroi] at hq
    rw [hnodes, hq]
    exact insertNode_quality_sorted n s.nodes (hs.sorted hq)

/-! ### Every command and every step -/

theorem Completed.keeps_roiOk {i : Instr} {s t : State} (hs : RoiOk s) (h : Completed i s t) : RoiOk t := by
  cases i with
  | bwPutbits | bwPutbit | bwPutu | bwPuts | bwPutue | bwPutse | bwAlign | bwTrail | bwSkip | bwGetbits | bwGetdata
  | bwGetwptr | nalStart | nalEpcopy | nalFiller =>
    rcases h.ranOn_or_answered rfl with hran | hans
    · exact hs.of_roiFields hran.roiFields
    · exact hs.of_roiFields hans.roiFields
  | nop => cases h; exact hs.of_roiFields rfl
  | regRd | nalMkhdr => exact hs.of_roiFields (Answered.roiFields h)
  | regWr reg value =>
    obtain ⟨r, u, -, hu, rfl⟩ := h
    rw [(writeReg_cases hu).1]
    exact hs.of_roiFields rfl
  | bwInit w base maxBits =>
    obtain ⟨-, rfl⟩ := h
    cases w <;> exact hs.of_roiFields rfl
  | secAttach => obtain ⟨-, rfl⟩ := h; exact hs.of_roiFields rfl
  | secAdd => obtain ⟨-, -, -, rfl⟩ := h; exact hs.of_roiFields rfl
  | secPicture => obtain ⟨-, -, -, r, plan, -, -, -, rfl⟩ := h; exact hs.of_roiFields rfl
  | secAddsei =>
    obtain ⟨-, -, hans | ⟨nb, -, -, rfl⟩⟩ := h
    · exact hs.of_roiFields hans.roiFields
    · exact hs.of_roiFields rfl
  | roiInit mode picW picH q =>
    obtain ⟨hsize, rfl⟩ := h
    obtain ⟨hw, hh⟩ := of_decide_eq_true hsize
    exact roiOk_of_nodes_nil rfl nofun
      (fun _ => ⟨hw, hh, rfl, toNat_ofNat_ceilShift _ _, toNat_ofNat_ceilShift _ _⟩)
  | roiAdd x y w hh q =>
    obtain ⟨hv, hans | ⟨hin, hroom, rfl⟩⟩ := h
    · exact hs.of_roiFields hans.roiFields
    · exact hs.insert _ hv (lt_of_le_of_ne hs.count hroom) (nodeOk_roiNodeOf _ _ _ x y w hh hin) rfl rfl rfl
  | roiClear =>
    obtain ⟨hv, rfl⟩ := h
    exact roiOk_of_nodes_nil rfl (fun hinv => (hs.unset hinv).1) hs.grid
  | roiDestroy =>
    obtain ⟨-, rfl⟩ := h
    exact roiOk_of_nodes_nil rfl (fun _ => rfl) nofun
  | roiFill | qpFlat => obtain ⟨-, -, -, rfl⟩ := h; exact hs.of_roiFields rfl
  | qpLoad =>
    obtain ⟨-, -, hans | ⟨-, rfl⟩⟩ := h
    · exact hs.of_roiFields hans.roiFields
    · exact hs.of_roiFields rfl

/-- Settles O17: fault entry and discarded words touch no ROI field, and a completed command keeps `RoiOk`. -/
theorem stepKeepsRoiOk : Obligations.StepKeepsRoiOk := by
  intro s t hs h
  rcases step_cases h with ⟨-, rfl⟩ | ⟨-, -, rfl | ⟨hw, rest, rfl⟩⟩ | ⟨-, i, rest, -, hexec⟩
  · exact hs.of_roiFields rfl
  · exact hs
  · exact hs.of_roiFields rfl
  · have htaken : RoiOk { s with port := rest } := hs.of_roiFields rfl
    rcases exec_cases hexec with ⟨c, b, rfl⟩ | hdone
    · exact htaken.of_roiFields rfl
    · exact hdone.keeps_roiOk htaken

/-! ### An overflowed writer -/

/-- Running operations on one writer leaves the other as it is. -/
theorem RanOn.writer_kept {w w' : WriterId} {s t : State} (h : RanOn w' s t) (hne : w ≠ w') : t.writer w = s.writer w := by
  obtain ⟨-, ops, r, rfl⟩ := h
  exact withStream_writer_other s w' w _ hne

/-- Operations on an overflowed writer keep OVF, count on, and write nothing (R153, R162). -/
theorem RanOn.overflowed {w : WriterId} {s t : State} (h : RanOn w s t) (ho : (s.writer w).ovf = true) :
    (t.writer w).ovf = true ∧ (s.writer w).bitCnt ≤ (t.writer w).bitCnt ∧ t.mem = s.mem := by
  obtain ⟨-, ops, r, rfl⟩ := h
  obtain ⟨hovf, hmem⟩ := runOps_overflowed ops (s.stream w) ho
  have hcnt : (s.stream w).1.bitCnt ≤ (runOps ops (s.stream w)).1.bitCnt := by
    rw [runOps_bitCnt]
    exact Nat.le_add_right _ _
  cases w <;> exact ⟨hovf, hcnt, hmem⟩

/-- Every command but BW_INIT on a writer leaves that writer as it is, or runs operations on it (10_state.md R44). -/
theorem Completed.writer_cases {i : Instr} {s t : State} (h : Completed i s t) (w : WriterId) :
    (∃ base maxBits, i = .bwInit w base maxBits) ∨ t.writer w = s.writer w ∨ RanOn w s t := by
  cases i with
  | bwPutbits w' | bwPutbit w' | bwPutu w' | bwPuts w' | bwPutue w' | bwPutse w' | bwAlign w' | bwTrail w' | bwSkip w'
  | bwGetbits w' | bwGetdata w' | bwGetwptr w' | nalStart w' | nalEpcopy w' | nalFiller w' =>
    rcases h.ranOn_or_answered rfl with hran | ⟨r, rfl⟩
    · by_cases hw : w = w'
      · exact .inr (.inr (hw ▸ hran))
      · exact .inr (.inl (hran.writer_kept hw))
    · exact .inr (.inl rfl)
  | bwInit w' base maxBits =>
    by_cases hw : w = w'
    · exact .inl ⟨base, maxBits, by rw [hw]⟩
    · obtain ⟨-, rfl⟩ := h
      exact .inr (.inl (writer_setWriter_other s w' w _ hw))
  | nop => cases h; exact .inr (.inl rfl)
  | regRd | nalMkhdr => obtain ⟨r, rfl⟩ := h; exact .inr (.inl rfl)
  | regWr reg value =>
    obtain ⟨r, u, -, hu, rfl⟩ := h
    rw [(writeReg_cases hu).1]
    exact .inr (.inl rfl)
  | secAttach | roiInit | roiClear | roiDestroy => obtain ⟨-, rfl⟩ := h; exact .inr (.inl rfl)
  | secAdd | roiFill | qpFlat => obtain ⟨-, -, -, rfl⟩ := h; exact .inr (.inl rfl)
  | secPicture => obtain ⟨-, -, -, r, plan, -, -, -, rfl⟩ := h; exact .inr (.inl rfl)
  | secAddsei => obtain ⟨-, -, ⟨r, rfl⟩ | ⟨nb, -, -, rfl⟩⟩ := h <;> exact .inr (.inl rfl)
  | roiAdd => obtain ⟨-, ⟨r, rfl⟩ | ⟨-, -, rfl⟩⟩ := h <;> exact .inr (.inl rfl)
  | qpLoad => obtain ⟨-, -, ⟨r, rfl⟩ | ⟨-, rfl⟩⟩ := h <;> exact .inr (.inl rfl)

/-- A command that is not BW_INIT on an overflowed writer. -/
theorem exec_keeps_overflow {i : Instr} {w : WriterId} {s t : State} (ho : (s.writer w).ovf = true)
    (hi : ∀ base maxBits, i ≠ .bwInit w base maxBits) (h : exec i s = .next t) :
    (t.writer w).ovf = true ∧ (s.writer w).bitCnt ≤ (t.writer w).bitCnt := by
  rcases exec_cases h with ⟨c, b, rfl⟩ | hdone
  · exact ⟨ho, le_rfl⟩
  · rcases hdone.writer_cases w with ⟨base, maxBits, hinit⟩ | hkept | hran
    · exact absurd hinit (hi base maxBits)
    · rw [hkept]; exact ⟨ho, le_rfl⟩
    · obtain ⟨hovf, hcnt, -⟩ := hran.overflowed ho
      exact ⟨hovf, hcnt⟩

/-- A command that names an overflowed writer writes nothing. -/
theorem exec_named_overflow_mem {i : Instr} {w : WriterId} {s t : State} (ho : (s.writer w).ovf = true)
    (hn : namedWriter i = some w) (h : exec i s = .next t) : t.mem = s.mem := by
  rcases exec_cases h with ⟨c, b, rfl⟩ | hdone
  · rfl
  · rcases hdone.ranOn_or_answered hn with hran | ⟨r, rfl⟩
    · obtain ⟨-, -, hmem⟩ := hran.overflowed ho
      exact hmem
    · rfl

/-- Settles O21: a step without a command writes no writer, and a command on an overflowed writer only counts. -/
theorem overflowStickyUntilBwInit : Obligations.OverflowStickyUntilBwInit := by
  intro s t w ho
  refine ⟨fun h hno => ?_, fun i hn h => exec_named_overflow_mem ho hn h⟩
  rcases step_cases h with ⟨-, rfl⟩ | ⟨-, -, rfl | ⟨hw, rest, rfl⟩⟩ | ⟨-, i, rest, hd, hexec⟩
  · exact ⟨ho, le_rfl⟩
  · exact ⟨ho, le_rfl⟩
  · exact ⟨ho, le_rfl⟩
  · have hi : ∀ base maxBits, i ≠ .bwInit w base maxBits := fun base maxBits e => hno base maxBits rest (e ▸ hd)
    exact exec_keeps_overflow (s := { s with port := rest }) ho hi hexec

end Sys2Proof.Machine
end

section
/-! FirstUnused (10_state.md R49): the greatest end of a list of ranges. -/

namespace Sys2Proof.Machine

theorem end_le_firstUnused {l : List Span} {p : Span} (hp : p ∈ l) : p.off + p.len ≤ firstUnused l := by
  induction l with
  | nil => cases hp
  | cons q t ih =>
    rw [firstUnused]
    rcases List.mem_cons.1 hp with rfl | ht
    · exact le_max_left _ _
    · exact (ih ht).trans (le_max_right _ _)

theorem firstUnused_reached (l : List Span) : firstUnused l = 0 ∨ ∃ p ∈ l, firstUnused l = p.off + p.len := by
  induction l with
  | nil => exact .inl rfl
  | cons q t ih =>
    rw [firstUnused]
    rcases le_total (firstUnused t) (q.off + q.len) with hle | hle
    · exact .inr ⟨q, List.mem_cons_self, max_eq_left hle⟩
    · rw [max_eq_right hle]
      rcases ih with h0 | ⟨p, hp, he⟩
      · exact .inl h0
      · exact .inr ⟨p, List.mem_cons_of_mem _ hp, he⟩

/-- FirstUnused is the only number that bounds every end and is 0 or an end. -/
theorem firstUnused_eq_iff (l : List Span) (m : Nat) :
    firstUnused l = m ↔ (∀ p ∈ l, p.off + p.len ≤ m) ∧ (m = 0 ∨ ∃ p ∈ l, m = p.off + p.len) := by
  constructor
  · rintro rfl
    exact ⟨fun p hp => end_le_firstUnused hp, firstUnused_reached l⟩
  · rintro ⟨hbound, hreached⟩
    apply le_antisymm
    · rcases firstUnused_reached l with h0 | ⟨p, hp, he⟩
      · omega
      · exact he ▸ hbound p hp
    · rcases hreached with h0 | ⟨p, hp, he⟩
      · omega
      · exact he ▸ end_le_firstUnused hp

theorem forall_mem_spans {s : State} {l : List Planned} {P : Span → Prop} :
    (∀ p ∈ tableSpans s.sections ++ plannedSpans l, P p) ↔
      (∀ x ∈ s.sections, P (sectionSpan x)) ∧ ∀ p ∈ l, P p.span := by
  simp only [tableSpans, plannedSpans, List.forall_mem_append, List.forall_mem_map]

theorem exists_mem_spans {s : State} {l : List Planned} {P : Span → Prop} :
    (∃ p ∈ tableSpans s.sections ++ plannedSpans l, P p) ↔
      (∃ x ∈ s.sections, P (sectionSpan x)) ∨ ∃ p ∈ l, P p.span := by
  simp only [tableSpans, plannedSpans, List.mem_append, or_and_right, exists_or, List.mem_map, exists_exists_and_eq_and]

/-- Settles O54: the ranges are those of the table and those of the plan. -/
theorem firstUnusedIsMax : Obligations.FirstUnusedIsMax := by
  intro s l m
  rw [firstUnusedOver, firstUnused_eq_iff, forall_mem_spans, exists_mem_spans, and_assoc]
  rfl

end Sys2Proof.Machine
end

section
/-! The register map (10_state.md R55): which numbers name a register, which of those REG_WR may write, and what each reads
as. -/

namespace Sys2Proof.Machine

/-! ### The numbers -/

/-- The rows of the map that have a number of their own. -/
theorem regTable_numbers : regTable.map Prod.fst =
    List.range' 0x000 7 ++ List.range' 0x010 7 ++ List.range' 0x020 5 ++ List.range' 0x028 5 ++ List.range' 0x030 6 ++
      List.range' 0x040 3 ++ List.range' 0x050 10 ++ List.range' 0x060 7 := rfl

/-- The rows REG_WR may write. -/
theorem regTable_writable_numbers :
    (regTable.filter (fun e => regWritable e.2)).map Prod.fst = 0x002 :: List.range' 0x010 7 := rfl

theorem regOfNat_sect {n : Nat} (h : 0x400 ≤ n ∧ n < 0x800) :
    regOfNat n = some (.sect ((n - 0x400) / 4) ((n - 0x400) % 4)) := if_pos h

theorem regOfNat_node {n : Nat} (h : 0x800 ≤ n ∧ n < 0x1000) :
    regOfNat n = some (.node ((n - 0x800) / 8) ((n - 0x800) % 8)) := by
  rw [regOfNat, if_neg (by omega), if_pos h]

theorem regOfNat_table {n : Nat} (h : n < 0x400 ∨ 0x1000 ≤ n) :
    regOfNat n = (regTable.find? (fun e => e.1 = n)).map Prod.snd := by
  rw [regOfNat, if_neg (by omega), if_neg (by omega)]

theorem regTable_find_isSome_iff (n : Nat) :
    (regTable.find? (fun e => e.1 = n)).isSome = true ↔ n ∈ regTable.map Prod.fst := by
  simp only [List.find?_isSome, decide_eq_true_eq, List.mem_map]

theorem regOfNat_isSome_iff (n : Nat) : (regOfNat n).isSome = true ↔
    n ≤ 0x006 ∨ (0x010 ≤ n ∧ n ≤ 0x016) ∨ (0x020 ≤ n ∧ n ≤ 0x024) ∨ (0x028 ≤ n ∧ n ≤ 0x02C) ∨ (0x030 ≤ n ∧ n ≤ 0x035) ∨
      (0x040 ≤ n ∧ n ≤ 0x042) ∨ (0x050 ≤ n ∧ n ≤ 0x059) ∨ (0x060 ≤ n ∧ n ≤ 0x066) ∨ (0x400 ≤ n ∧ n ≤ 0xFFF) := by
  by_cases hs : 0x400 ≤ n ∧ n < 0x800
  · simp only [regOfNat_sect hs, Option.isSome_some, true_iff]
    omega
  · by_cases hn : 0x800 ≤ n ∧ n < 0x1000
    · simp only [regOfNat_node hn, Option.isSome_some, true_iff]
      omega
    · rw [regOfNat_table (by omega), Option.isSome_map, regTable_find_isSome_iff, regTable_numbers]
      simp only [List.mem_append, List.mem_range'_1]
      omega

theorem regOfNat_writable {n : Nat} (h : n ∈ 0x002 :: List.range' 0x010 7) : (regOfNat n).any regWritable = true := by
  have hall : ∀ k ∈ 0x002 :: List.range' 0x010 7, (regOfNat k).any regWritable = true := by decide
  exact hall n h

theorem regOfNat_writable_iff (n : Nat) :
    (regOfNat n).any regWritable = true ↔ n = 0x002 ∨ (0x010 ≤ n ∧ n ≤ 0x016) := by
  have hmem : n ∈ 0x002 :: List.range' 0x010 7 ↔ n = 0x002 ∨ (0x010 ≤ n ∧ n ≤ 0x016) := by
    rw [List.mem_cons, List.mem_range'_1]
    omega
  rw [← hmem]
  refine ⟨fun h => ?_, regOfNat_writable⟩
  obtain ⟨r, hr, hw⟩ := Option.any_eq_true _ _ |>.1 h
  by_cases hs : 0x400 ≤ n ∧ n < 0x800
  · rw [regOfNat_sect hs] at hr
    cases hr
    cases hw
  · by_cases hn : 0x800 ≤ n ∧ n < 0x1000
    · rw [regOfNat_node hn] at hr
      cases hr
      cases hw
    · rw [regOfNat_table (by omega), Option.map_eq_some_iff] at hr
      obtain ⟨e, he, rfl⟩ := hr
      rw [← regTable_writable_numbers, List.mem_map]
      exact ⟨e, List.mem_filter.2 ⟨List.mem_of_find?_eq_some he, hw⟩, by simpa using List.find?_some he⟩

/-! ### What a number reads as -/

theorem readPort_undefined (s : State) {n : BitVec 16} (h : (regOfNat n.toNat).isSome = false) : readPort s n = 0#32 := by
  rw [Option.isSome_eq_false_iff, Option.isNone_iff_eq_none] at h
  rw [readPort, h]

theorem readPort_of_regOfNat (s : State) {n : BitVec 16} {r : RegName} (h : regOfNat n.toNat = some r) :
    readPort s n = readReg s r := by
  rw [readPort, h]

/-- R47: entry i stands at 0x400 + 4i. -/
theorem readPort_sect (s : State) {i k : Nat} (hi : i < 256) (hk : k < 4) :
    readPort s (BitVec.ofNat 16 (0x400 + 4 * i + k)) = sectionReg s.sections i k := by
  have hn : (BitVec.ofNat 16 (0x400 + 4 * i + k)).toNat = 0x400 + 4 * i + k := by
    rw [BitVec.toNat_ofNat]
    omega
  have hreg : regOfNat (0x400 + 4 * i + k) = some (.sect i k) := by
    rw [regOfNat_sect (by omega), show (0x400 + 4 * i + k - 0x400) / 4 = i by omega,
      show (0x400 + 4 * i + k - 0x400) % 4 = k by omega]
  exact readPort_of_regOfNat s (hn ▸ hreg)

/-- R53: node i stands at 0x800 + 8i. -/
theorem readPort_node (s : State) {i k : Nat} (hi : i < 256) (hk : k < 8) :
    readPort s (BitVec.ofNat 16 (0x800 + 8 * i + k)) = nodeReg s.nodes i k := by
  have hn : (BitVec.ofNat 16 (0x800 + 8 * i + k)).toNat = 0x800 + 8 * i + k := by
    rw [BitVec.toNat_ofNat]
    omega
  have hreg : regOfNat (0x800 + 8 * i + k) = some (.node i k) := by
    rw [regOfNat_node (by omega), show (0x800 + 8 * i + k - 0x800) / 8 = i by omega,
      show (0x800 + 8 * i + k - 0x800) % 8 = k by omega]
  exact readPort_of_regOfNat s (hn ▸ hreg)

theorem sectionReg_entry {t : List Section} {i : Nat} {x : Section} (h : t[i]? = some x) :
    sectionReg t i 0 = x.offset ∧ sectionReg t i 1 = x.length ∧ sectionReg t i 2 = x.flags ∧ sectionReg t i 3 = 0#32 := by
  simp only [sectionReg, h, and_self]

theorem sectionReg_past {t : List Section} {i : Nat} (k : Nat) (h : t.length ≤ i) : sectionReg t i k = 0#32 := by
  rw [sectionReg, List.getElem?_eq_none h]

theorem nodeReg_entry {l : List RoiNode} {i : Nat} {x : RoiNode} (h : l[i]? = some x) :
    nodeReg l i 0 = x.x0 ∧ nodeReg l i 1 = x.y0 ∧ nodeReg l i 2 = x.w ∧ nodeReg l i 3 = x.h ∧
      nodeReg l i 4 = x.code.setWidth 32 := by
  simp only [nodeReg, h, and_self]

theorem nodeReg_past {l : List RoiNode} {i : Nat} (k : Nat) (h : l.length ≤ i) : nodeReg l i k = 0#32 := by
  rw [nodeReg, List.getElem?_eq_none h]

/-- R53: a node's registers 5 to 7 are unused. -/
theorem nodeReg_unused (l : List RoiNode) (i : Nat) {k : Nat} (h : 5 ≤ k) : nodeReg l i k = 0#32 := by
  obtain ⟨j, rfl⟩ := Nat.exists_eq_add_of_le' h
  unfold nodeReg
  split <;> rfl

theorem getLsbD_ite_zero (b : Bool) (v : Word) (k : Nat) : (if b then v else 0#32).getLsbD k = (b && v.getLsbD k) := by
  cases b
  · exact BitVec.getLsbD_zero
  · rfl

/-- R40: bit k of STATUS. -/
theorem getLsbD_status (s : State) (k : Nat) : s.status.getLsbD k =
    ((s.fillerClipped && decide (0 = k)) || (s.cfgDropped && decide (1 = k)) || (s.halted && decide (31 = k))) := by
  have h0 : statusFillerClipped = BitVec.twoPow 32 0 := rfl
  have h1 : statusCfgDropped = BitVec.twoPow 32 1 := rfl
  have h31 : statusHalted = BitVec.twoPow 32 31 := rfl
  simp [State.status, getLsbD_ite_zero, h0, h1, h31, BitVec.getLsbD_twoPow]

theorem status_bits (s : State) : s.status.getLsbD 0 = s.fillerClipped ∧ s.status.getLsbD 1 = s.cfgDropped ∧
    s.status.getLsbD 31 = s.halted ∧ ∀ k, 2 ≤ k → k ≤ 30 → s.status.getLsbD k = false := by
  simp only [getLsbD_status]
  refine ⟨by simp, by simp, by simp, fun k hlo hhi => ?_⟩
  simp [show 0 ≠ k by omega, show 1 ≠ k by omega, show 31 ≠ k by omega]

/-- Settles O26: the numbers by the table's rows; each register of its own is read by its row, an entry of the section table
or of the node list by its place. -/
theorem registerMapNumbers : Obligations.RegisterMapNumbers := by
  refine ⟨fun n => ⟨regOfNat_isSome_iff n.toNat, regOfNat_writable_iff n.toNat⟩, fun s => ?_⟩
  refine ⟨⟨rfl, rfl⟩, status_bits s, ⟨rfl, rfl, rfl, rfl⟩, ⟨rfl, rfl, rfl, rfl, rfl, rfl, rfl⟩,
    ⟨⟨rfl, rfl, rfl, rfl, rfl⟩, rfl, rfl, rfl, rfl, rfl⟩, ⟨rfl, rfl, rfl, rfl, rfl, rfl⟩, ⟨rfl, rfl, rfl⟩,
    ⟨rfl, rfl, rfl, rfl, rfl, rfl, rfl, rfl, rfl, rfl⟩, ⟨rfl, rfl, rfl, rfl, rfl, rfl, rfl⟩,
    fun i hi => ⟨fun x hx => ?_, fun hpast k hk => ?_⟩, fun i hi => ⟨fun x hx => ?_, fun hpast k hk => ?_⟩,
    fun n h => readPort_undefined s h⟩
  · obtain ⟨h0, h1, h2, h3⟩ := sectionReg_entry hx
    have hreg := fun k (hk : k < 4) => readPort_sect s hi hk
    exact ⟨(hreg 0 (by decide)).trans h0, (hreg 1 (by decide)).trans h1, (hreg 2 (by decide)).trans h2,
      (hreg 3 (by decide)).trans h3⟩
  · exact (readPort_sect s hi hk).trans (sectionReg_past k hpast)
  · obtain ⟨h0, h1, h2, h3, h4⟩ := nodeReg_entry hx
    have hreg := fun k (hk : k < 8) => readPort_node s hi hk
    exact ⟨(hreg 0 (by decide)).trans h0, (hreg 1 (by decide)).trans h1, (hreg 2 (by decide)).trans h2,
      (hreg 3 (by decide)).trans h3, (hreg 4 (by decide)).trans h4,
      fun k hlo hk => (hreg k hk).trans (nodeReg_unused s.nodes i hlo)⟩
  · exact (readPort_node s hi hk).trans (nodeReg_past k hpast)

end Sys2Proof.Machine
end

section
/-! Range admission decided (20_memory.md R84): what `admitFail` answers is that no byte fails, or the one byte that BusError
records. From this, the commands whose operands give a range. -/

namespace Sys2Proof.Machine

/-! ### What admission answers -/

/-- The lowest byte of a range that is not admitted, if there is one. -/
theorem firstBad_cases (rs : List Region) (a e : Nat) :
    (∃ b, firstBad rs a e = some b ∧ a ≤ b ∧ b < e ∧ memOk rs b = false ∧ ∀ c, a ≤ c → c < b → memOk rs c = true) ∨
      (firstBad rs a e = none ∧ ∀ c, a ≤ c → c < e → memOk rs c = true) := by
  obtain ⟨hle, hbad, hok⟩ := firstUncovered_spec rs a
  by_cases hlt : firstUncovered rs a < e
  · exact .inl ⟨_, if_pos hlt, hle, hlt, hbad, hok⟩
  · exact .inr ⟨if_neg hlt, fun c hac hce => hok c hac (by omega)⟩

/-- R84: the byte recorded is the lowest failing one. -/
theorem lowestFailing_of_admitFail_some {rs : List Region} {a n b : Nat} (h : admitFail rs a n = some b) :
    LowestFailing rs a n b := by
  unfold admitFail at h
  split at h
  · cases h
  · rename_i hn
    rcases firstBad_cases rs a (min (a + n) addressSpace) with ⟨c, hc, hac, hlt, hbad, hok⟩ | ⟨hnone, hok⟩
    · rw [hc] at h
      cases h
      exact .inl ⟨hac, by omega, by omega, hbad, hok⟩
    · rw [hnone] at h
      simp only at h
      split at h
      · rename_i hwrap
        cases h
        exact .inr ⟨rfl, by omega, hwrap, fun c hac hlt => hok c hac (by omega)⟩
      · cases h

/-- A range with a failing byte is not admitted. -/
theorem LowestFailing.not_admitted {rs : List Region} {a n b : Nat} (h : LowestFailing rs a n b) : ¬Admitted rs a n := by
  intro hadm
  rcases h with ⟨hab, hbn, -, hbad, -⟩ | ⟨-, hn, hwrap, -⟩
  · have hok := (hadm b hab hbn).2
    rw [hbad] at hok
    cases hok
  · have := hadm.le_space hn
    omega

/-- A range has at most one lowest failing byte. -/
theorem LowestFailing.unique {rs : List Region} {a n b c : Nat} (hb : LowestFailing rs a n b)
    (hc : LowestFailing rs a n c) : b = c := by
  have excluded : ∀ x, memOk rs x = false → ¬memOk rs x = true := fun x h h' => by rw [h] at h'; cases h'
  rcases hb with ⟨hab, -, hbs, hbbad, hbok⟩ | ⟨rfl, -, -, hbok⟩ <;>
    rcases hc with ⟨hac, -, hcs, hcbad, hcok⟩ | ⟨rfl, -, -, hcok⟩
  · rcases lt_trichotomy b c with hlt | heq | hgt
    · exact absurd (hcok b hab hlt) (excluded b hbbad)
    · exact heq
    · exact absurd (hbok c hac hgt) (excluded c hcbad)
  · exact absurd (hcok b hab hbs) (excluded b hbbad)
  · exact absurd (hbok c hac hcs) (excluded c hcbad)
  · rfl

theorem admitFail_eq_none_iff (rs : List Region) (a n : Nat) : admitFail rs a n = none ↔ Admitted rs a n := by
  refine ⟨admitted_of_admitFail_none rs a n, fun hadm => ?_⟩
  cases h : admitFail rs a n with
  | none => rfl
  | some b => exact absurd hadm (lowestFailing_of_admitFail_some h).not_admitted

theorem admitFail_eq_some_iff (rs : List Region) (a n b : Nat) : admitFail rs a n = some b ↔ LowestFailing rs a n b := by
  refine ⟨lowestFailing_of_admitFail_some, fun hlow => ?_⟩
  cases h : admitFail rs a n with
  | none => exact absurd (admitted_of_admitFail_none rs a n h) hlow.not_admitted
  | some c => rw [(lowestFailing_of_admitFail_some h).unique hlow]

/-- Settles O23: by what admission answers. -/
theorem rangeAdmission : Obligations.RangeAdmission :=
  fun rs a n => ⟨admitFail_eq_none_iff rs a n, admitFail_eq_some_iff rs a n⟩

/-! ### The commands that raise BusError for a range of their operands -/

theorem exec_nalEpcopy_busError {s : State} {w : WriterId} {src n : Word} {b : Nat} (hv : (s.writer w).valid = true)
    (hb : LowestFailing s.memMap src.toNat n.toNat b) :
    exec (.nalEpcopy w src n) s = raiseBus (.nalEpcopy w src n) b s := by
  rw [exec, execNalEpcopy, if_pos hv, (admitFail_eq_some_iff _ _ _ _).2 hb]

theorem exec_secAddsei_busError {s : State} {sfx : Bool} {pt : BitVec 16} {src n : Word} {b : Nat} (hv : s.sbValid = true)
    (hc : s.cfgCodec ≠ .other) (hb : LowestFailing s.memMap src.toNat n.toNat b) :
    exec (.secAddsei sfx pt src n) s = raiseBus (.secAddsei sfx pt src n) b s := by
  rw [exec, execSecAddsei, if_pos hv, if_neg hc, (admitFail_eq_some_iff _ _ _ _).2 hb]

section
variable {s : State} {qpn bpl : BitVec 8} {dst : Word} {b : Nat}

theorem exec_roiFill_busError (hl : qpLayoutOk qpn bpl = true) (hv : s.roi.valid = true)
    (hb : LowestFailing s.memMap dst.toNat (qpRangeLen (qpLayout s.roi qpn bpl dst)) b) :
    exec (.roiFill qpn bpl dst) s = raiseBus (.roiFill qpn bpl dst) b s := by
  rw [exec, execRoiFill, if_pos hl, if_pos hv, (admitFail_eq_some_iff _ _ _ _).2 hb]

theorem exec_qpFlat_busError (v : Word) (hl : qpLayoutOk qpn bpl = true) (hv : s.roi.valid = true)
    (hb : LowestFailing s.memMap dst.toNat (qpRangeLen (qpLayout s.roi qpn bpl dst)) b) :
    exec (.qpFlat qpn bpl dst v) s = raiseBus (.qpFlat qpn bpl dst v) b s := by
  rw [exec, execQpFlat, if_pos hl, if_pos hv, (admitFail_eq_some_iff _ _ _ _).2 hb]

/-- R333: QP_LOAD admits its table first, then its buffer. -/
theorem exec_qpLoad_busError {src n : Word} (hl : qpLayoutOk qpn bpl = true) (hv : s.roi.valid = true)
    (hn : qpTableLen (qpLayout s.roi qpn bpl dst) ≤ n.toNat)
    (hb : LowestFailing s.memMap src.toNat (qpTableLen (qpLayout s.roi qpn bpl dst)) b ∨
      (Admitted s.memMap src.toNat (qpTableLen (qpLayout s.roi qpn bpl dst)) ∧
        LowestFailing s.memMap dst.toNat (qpRangeLen (qpLayout s.roi qpn bpl dst)) b)) :
    exec (.qpLoad qpn bpl dst src n) s = raiseBus (.qpLoad qpn bpl dst src n) b s := by
  rw [exec, execQpLoad, if_pos hl, if_pos hv]
  simp only [if_neg (Nat.not_lt.2 hn)]
  rcases hb with htable | ⟨htable, hbuffer⟩
  · rw [(admitFail_eq_some_iff _ _ _ _).2 htable]
  · rw [(admitFail_eq_none_iff _ _ _).2 htable]
    simp only [(admitFail_eq_some_iff _ _ _ _).2 hbuffer]

end

/-- Settles O24: each command, once its earlier checks pass. -/
theorem busErrorNamesLowestByte : Obligations.BusErrorNamesLowestByte := by
  refine fun s b => ⟨fun w src n => exec_nalEpcopy_busError, fun sfx pt src n => exec_secAddsei_busError,
    fun qpn bpl dst h1 h2 hv => ?_⟩
  have hl : qpLayoutOk qpn bpl = true := decide_eq_true ⟨h1, h2⟩
  exact ⟨fun hb => ⟨exec_roiFill_busError hl hv hb, fun v => exec_qpFlat_busError v hl hv hb⟩,
    fun src n hn => ⟨fun htable => exec_qpLoad_busError hl hv hn (.inl htable),
      fun htable hbuffer => exec_qpLoad_busError hl hv hn (.inr ⟨htable, hbuffer⟩)⟩⟩

end Sys2Proof.Machine
end

section
/-! What a command can do to memory, said once (20_memory.md R94), and from it what a step does: memory keeps its canonical
form, and a byte changes only in the command's own range, which is admitted. -/

namespace Sys2Proof.Machine

/-! ### The commit of a picture -/

/-- A planned section whose bytes, where the plan fixes them, are as many as its length says. -/
def Planned.Sized (p : Planned) : Prop := ∀ bs, p.content = .bytes bs → bs.length = p.span.len

theorem placeConfig_sized (sc : ScLen) (tmpCap limit cur : Nat) (items : List ConfigItem) :
    ∀ p ∈ (placeConfig sc tmpCap limit cur items).planned, p.Sized := by
  induction items generalizing cur with
  | nil => exact nofun
  | cons x rest ih =>
    rw [placeConfig]
    split
    · rintro p (_ | ⟨_, hp⟩)
      · rintro bs ⟨⟩
        rfl
      · exact ih _ p hp
    · exact ih cur

theorem partsPlan_sized (r : PicRecord) : ∀ p ∈ partsPlan r, p.Sized := by
  intro p hp
  obtain ⟨x, -, rfl⟩ := List.mem_map.1 hp
  exact nofun

theorem fillerPlan_sized (s : State) (r : PicRecord) (l : List Planned) : ∀ p ∈ fillerPlan s r l, p.Sized := by
  intro p hp
  unfold fillerPlan at hp
  split at hp
  · split at hp
    · rw [List.mem_singleton.1 hp]
      exact nofun
    · cases hp
  · cases hp

theorem sentinelPlan_sized (s : State) (r : PicRecord) (l : List Planned) : ∀ p ∈ sentinelPlan s r l, p.Sized := by
  intro p hp
  unfold sentinelPlan at hp
  split at hp
  · rw [List.mem_singleton.1 hp]
    exact nofun
  · cases hp

theorem picturePlan_sized (s : State) (r : PicRecord) : ∀ p ∈ picturePlan s r, p.Sized := by
  simp only [picturePlan, planWithFiller, planBeforeFiller, List.forall_mem_append]
  exact ⟨⟨⟨placeConfig_sized _ _ _ _ _, partsPlan_sized r⟩, fillerPlan_sized s r _⟩, sentinelPlan_sized s r _⟩

/-- A plan that passes CheckPlan ends inside the buffer (42_sections.md R251). -/
theorem inside_of_checkPlan_none {s : State} {plan : List Span} (h : checkPlan s plan = none) :
    ∀ p ∈ plan, p.off + p.len ≤ s.sbCap.toNat := by
  unfold checkPlan at h
  split at h
  · cases h
  · split at h
    · exact ((rangesOk_table_iff _ _ _).1 ‹_›).inside
    · cases h

theorem wf_commitBytes (s : State) (m : Memory) (p : Planned) (h : m.wf = true) : (commitBytes s m p).wf = true := by
  unfold commitBytes
  split
  · exact h
  · exact wf_writeBytes _ _ _ h
  · rw [fillerRun_stream]
    exact wf_runOps _ _ h

theorem wf_commitPlan (s : State) (plan : List Planned) (m : Memory) (h : m.wf = true) :
    (plan.foldl (commitBytes s) m).wf = true := by
  induction plan generalizing m with
  | nil => exact h
  | cons p rest ih => exact ih _ (wf_commitBytes s m p h)

/-- The bytes of a planned section inside the buffer land in the buffer; a filler's writer ends where the buffer does
(42_sections.md R266). -/
theorem commitBytes_sameOutside (s : State) (m : Memory) {p : Planned} (hsize : p.Sized)
    (hin : p.span.off + p.span.len ≤ s.sbCap.toNat) : SameOutside m (commitBytes s m p) s.sbBase.toNat s.sbCap.toNat := by
  intro a ha
  unfold commitBytes
  split
  · rfl
  · rename_i bs hbs
    have := hsize bs hbs
    exact readByte_writeBytes_outside _ _ _ _ (by omega)
  · rw [fillerRun_stream]
    refine readByte_runOps_outside _ _ _ ?_
    simp only [fillerWriter, capacityBytes]
    omega

/-! ### Ranges of memory that keep -/

theorem SameOutside.refl (m : Memory) (a n : Nat) : SameOutside m m a n := fun _ _ => rfl

theorem SameOutside.trans {m m' m'' : Memory} {a n : Nat} (h : SameOutside m m' a n) (h' : SameOutside m' m'' a n) :
    SameOutside m m'' a n := fun b hb => (h' b hb).trans (h b hb)

/-- Steps that each keep memory outside a range keep it together. -/
theorem SameOutside.foldl {β : Type} {f : Memory → β → Memory} {a n : Nat} (l : List β) (m : Memory)
    (h : ∀ m, ∀ x ∈ l, SameOutside m (f m x) a n) : SameOutside m (l.foldl f m) a n := by
  induction l generalizing m with
  | nil => exact .refl m a n
  | cons x t ih =>
    exact (h m x List.mem_cons_self).trans (ih _ fun m y hy => h m y (List.mem_cons_of_mem _ hy))

theorem commitPlan_sameOutside (s : State) {plan : List Planned} (hsize : ∀ p ∈ plan, p.Sized)
    (hchecked : checkPlan s (plannedSpans plan) = none) :
    SameOutside s.mem (plan.foldl (commitBytes s) s.mem) s.sbBase.toNat s.sbCap.toNat := by
  have hin : ∀ p ∈ plan, p.span.off + p.span.len ≤ s.sbCap.toNat :=
    fun p hp => inside_of_checkPlan_none hchecked p.span (List.mem_map_of_mem hp)
  exact .foldl plan s.mem fun m p hp => commitBytes_sameOutside s m (hsize p hp) (hin p hp)

/-! ### The QP buffer -/

section
variable {q : QpLayout} (hb : q.qpn ≤ q.bpl)
include hb

/-- Writing at most a group at a cell of the grid stays in the buffer's range (43_roi_qp.md R327). -/
theorem writeGroup_sameOutside (m : Memory) {x y : Nat} {bs : List Byte} (hx : x < q.lcuW) (hy : y < q.lcuH)
    (hlen : bs.length ≤ q.qpn) : SameOutside m (writeBytes m (groupAddr q x y) bs) q.dst (qpRangeLen q) := by
  intro a ha
  have hend := group_inside q x y hx hy
  have hstart : q.dst ≤ groupAddr q x y := Nat.le_add_right _ _
  exact readByte_writeBytes_outside _ _ _ _ (by omega)

theorem rewriteCells_sameOutside (f : Byte → Byte) (m : Memory) {cells : List (Nat × Nat)}
    (hcells : ∀ c ∈ cells, c.1 < q.lcuW ∧ c.2 < q.lcuH) :
    SameOutside m (cells.foldl (rewriteCell q f) m) q.dst (qpRangeLen q) := by
  refine .foldl cells m fun m c hc => ?_
  obtain ⟨hx, hy⟩ := hcells c hc
  exact writeGroup_sameOutside hb m hx hy (List.length_replicate ..).le

theorem fillGrid_sameOutside (v : Byte) (m : Memory) :
    SameOutside m (fillCells q v (gridCells q) m) q.dst (qpRangeLen q) := by
  rw [fillCells_eq]
  exact rewriteCells_sameOutside hb _ m fun c hc => (mem_gridCells q c).1 hc

theorem loadGrid_sameOutside (table : List Byte) (m : Memory) :
    SameOutside m (loadCells q table (gridCells q) m) q.dst (qpRangeLen q) := by
  refine .foldl (gridCells q) m fun m c hc => ?_
  obtain ⟨hx, hy⟩ := (mem_gridCells q c).1 hc
  exact writeGroup_sameOutside hb m hx hy (List.length_take_le _ _)

/-- Drawing and smoothing a node inside the grid stays in the buffer's range (43_roi_qp.md R329, R331). -/
theorem applyNode_sameOutside (p : Params) (codec : Codec) (m : Memory) {n : RoiNode}
    (hx : n.x0.toNat + n.w.toNat ≤ q.lcuW) (hy : n.y0.toNat + n.h.toNat ≤ q.lcuH) :
    SameOutside m (applyNode p codec q m n) q.dst (qpRangeLen q) := by
  have hdraw : SameOutside m (drawNode q n m) q.dst (qpRangeLen q) := by
    rw [drawNode, fillCells_eq]
    refine rewriteCells_sameOutside hb _ m fun c hc => ?_
    rw [mem_rectCells] at hc
    omega
  refine hdraw.trans ?_
  rw [applyNode, smoothNode]
  split
  · exact .refl _ _ _
  · rename_i hsize
    simp only [not_or] at hsize
    obtain ⟨-, hw, hh⟩ := hsize
    rw [smoothCell_eq]
    refine rewriteCells_sameOutside hb _ _ fun c hc => ?_
    have hhalo := (mem_haloCells q n c hx hy (BitVec.toNat_pos_of_ne_zero hw)
      (BitVec.toNat_pos_of_ne_zero hh)).1 hc
    exact ⟨hhalo.1, hhalo.2.1⟩

end

theorem roiFill_sameOutside {s : State} (hs : RoiOk s) {q : QpLayout} (hb : q.qpn ≤ q.bpl)
    (hw : q.lcuW = s.roi.lcuW.toNat) (hh : q.lcuH = s.roi.lcuH.toNat) :
    SameOutside s.mem (roiFillMemory s q) q.dst (qpRangeLen q) := by
  refine (fillGrid_sameOutside hb _ _).trans (.foldl s.nodes _ fun m n hn => ?_)
  have hnode := hs.nodes n hn
  exact applyNode_sameOutside hb _ _ m (hw ▸ hnode.column.2) (hh ▸ hnode.row.2)

/-- What ROI_FILL, QP_FLAT and QP_LOAD make of memory (43_roi_qp.md R328, R332, R333). -/
inductive QpMemory (s : State) (q : QpLayout) : Memory → Prop where
  | filled : QpMemory s q (roiFillMemory s q)
  | flat (v : Byte) : QpMemory s q (fillCells q v (gridCells q) s.mem)
  | loaded (table : List Byte) : QpMemory s q (loadCells q table (gridCells q) s.mem)

theorem QpMemory.wf {s : State} {q : QpLayout} {m : Memory} (h : QpMemory s q m) (hw : s.mem.wf = true) : m.wf = true := by
  cases h with
  | filled => exact wf_roiFillMemory s q hw
  | flat v => exact wf_rewriteCells q (fun _ => v) _ _ hw
  | loaded table => exact wf_loadCells q _ _ _ hw

theorem QpMemory.sameOutside {s : State} {qpn bpl : BitVec 8} {dst : Word} {m : Memory} (hs : RoiOk s)
    (hl : qpLayoutOk qpn bpl = true) (h : QpMemory s (qpLayout s.roi qpn bpl dst) m) :
    SameOutside s.mem m dst.toNat (qpRangeLen (qpLayout s.roi qpn bpl dst)) := by
  obtain ⟨-, hb⟩ := of_decide_eq_true hl
  cases h with
  | filled => exact roiFill_sameOutside hs hb rfl rfl
  | flat v => exact fillGrid_sameOutside hb v s.mem
  | loaded table => exact loadGrid_sameOutside hb table s.mem

/-! ### Every command -/

/-- The ways a command can leave memory, each with the checks that the command has passed and with its range (R94). -/
inductive MemoryStep (i : Instr) (s : State) : Memory → Prop where
  | kept : MemoryStep i s s.mem
  | stream (w : WriterId) (ops : List StreamOp) (valid : (s.writer w).valid = true)
      (range : writeRange s i = ((s.writer w).base.toNat, capacityBytes (s.writer w).maxBits.toNat)) :
      MemoryStep i s (runOps ops (s.stream w)).2
  | picture (r : PicRecord) (bound : s.sbValid = true) (checked : checkPlan s (plannedSpans (picturePlan s r)) = none)
      (range : writeRange s i = (s.sbBase.toNat, s.sbCap.toNat)) :
      MemoryStep i s ((picturePlan s r).foldl (commitBytes s) s.mem)
  | sei (off : Nat) (unit : List Byte) (bound : s.sbValid = true) (fits : off + unit.length ≤ s.sbCap.toNat)
      (range : writeRange s i = (s.sbBase.toNat, s.sbCap.toNat)) :
      MemoryStep i s (writeBytes s.mem (s.sbBase.toNat + off) unit)
  | qp {m : Memory} (qpn bpl : BitVec 8) (dst : Word) (layout : qpLayoutOk qpn bpl = true)
      (admitted : admitFail s.memMap dst.toNat (qpRangeLen (qpLayout s.roi qpn bpl dst)) = none)
      (range : writeRange s i = (dst.toNat, qpRangeLen (qpLayout s.roi qpn bpl dst)))
      (written : QpMemory s (qpLayout s.roi qpn bpl dst) m) : MemoryStep i s m

theorem RanOn.memoryStep {i : Instr} {w : WriterId} {s t : State} (h : RanOn w s t)
    (range : writeRange s i = ((s.writer w).base.toNat, capacityBytes (s.writer w).maxBits.toNat)) :
    MemoryStep i s t.mem := by
  obtain ⟨hv, ops, r, rfl⟩ := h
  exact .stream w ops hv range

theorem Answered.memoryStep {i : Instr} {s t : State} (h : Answered s t) : MemoryStep i s t.mem := by
  obtain ⟨r, rfl⟩ := h
  exact .kept

/-- A placed SEI message ends inside the buffer (42_sections.md R277). -/
theorem addSei_inside {s : State} {sfx : Bool} {len : Nat} (h : addSeiFits s sfx len = true) :
    (addSeiPlace s sfx).2 + len ≤ s.sbCap.toNat := by
  simp only [addSeiFits, Bool.and_eq_true, decide_eq_true_eq] at h
  obtain ⟨⟨hend, -⟩, -⟩ := h
  have hlimit : addSeiLimit s sfx ≤ s.sbCap.toNat := by
    cases sfx
    · exact min_le_right _ _
    · exact le_rfl
  exact hend.trans hlimit

theorem Completed.memoryStep {i : Instr} {s t : State} (h : Completed i s t) : MemoryStep i s t.mem := by
  cases i with
  | bwPutbits | bwPutbit | bwPutu | bwPuts | bwPutue | bwPutse | bwAlign | bwTrail | nalStart | nalEpcopy | nalFiller =>
    exact RanOn.memoryStep h rfl
  | regRd | bwGetbits | bwGetdata | bwGetwptr | nalMkhdr => exact Answered.memoryStep h
  | nop => cases h; exact .kept
  | regWr reg value =>
    obtain ⟨r, u, -, hu, rfl⟩ := h
    rw [(writeReg_cases hu).1]
    exact .kept
  | bwInit w base maxBits =>
    obtain ⟨-, rfl⟩ := h
    cases w <;> exact .kept
  | bwSkip | secAttach | roiInit | roiClear | roiDestroy => obtain ⟨-, rfl⟩ := h; exact .kept
  | secAdd => obtain ⟨-, -, -, rfl⟩ := h; exact .kept
  | secPicture =>
    obtain ⟨hv, -, -, r, plan, -, rfl, hchecked, rfl⟩ := h
    exact .picture r hv hchecked rfl
  | secAddsei =>
    obtain ⟨hv, -, hans | ⟨nb, -, hfits, rfl⟩⟩ := h
    · exact hans.memoryStep
    · exact .sei _ nb hv (addSei_inside hfits) rfl
  | roiAdd =>
    obtain ⟨-, hans | ⟨-, -, rfl⟩⟩ := h
    · exact hans.memoryStep
    · exact .kept
  | roiFill => obtain ⟨hl, -, ha, rfl⟩ := h; exact .qp _ _ _ hl ha rfl .filled
  | qpFlat => obtain ⟨hl, -, ha, rfl⟩ := h; exact .qp _ _ _ hl ha rfl (.flat _)
  | qpLoad =>
    obtain ⟨hl, -, hans | ⟨ha, rfl⟩⟩ := h
    · exact hans.memoryStep
    · exact .qp _ _ _ hl ha rfl (.loaded _)

theorem exec_memoryStep {i : Instr} {s t : State} (h : exec i s = .next t) : MemoryStep i s t.mem := by
  rcases exec_cases h with ⟨c, b, rfl⟩ | hdone
  · exact .kept
  · exact hdone.memoryStep

theorem MemoryStep.wf {i : Instr} {s : State} {m : Memory} (h : MemoryStep i s m) (hw : s.mem.wf = true) : m.wf = true := by
  cases h with
  | kept => exact hw
  | stream => exact wf_runOps _ _ hw
  | picture => exact wf_commitPlan _ _ _ hw
  | sei => exact wf_writeBytes _ _ _ hw
  | qp _ _ _ _ _ _ written => exact written.wf hw

/-- R94: memory keeps outside the command's range. -/
theorem MemoryStep.sameOutside {i : Instr} {s : State} {m : Memory} (h : MemoryStep i s m) (hs : RoiOk s) :
    SameOutside s.mem m (writeRange s i).1 (writeRange s i).2 := by
  cases h with
  | kept => exact .refl _ _ _
  | stream w ops _ range =>
    rw [range]
    exact fun a ha => readByte_runOps_outside ops (s.stream w) a ha
  | picture r _ checked range =>
    rw [range]
    exact commitPlan_sameOutside s (picturePlan_sized s r) checked
  | sei off unit _ fits range =>
    rw [range]
    exact fun a ha => readByte_writeBytes_outside _ _ _ _ (by omega)
  | qp qpn bpl dst layout _ range written =>
    rw [range]
    exact written.sameOutside hs layout

/-- R84, R151, R250: the range of a command that changed memory is admitted. -/
theorem MemoryStep.kept_or_admitted {i : Instr} {s : State} {m : Memory} (h : MemoryStep i s m) (hwr : WritersOk s)
    (hsb : StreamBufferOk s) : m = s.mem ∨ Admitted s.memMap (writeRange s i).1 (writeRange s i).2 := by
  cases h with
  | kept => exact .inl rfl
  | stream w _ valid range =>
    rw [range]
    obtain ⟨h0, h1⟩ := hwr
    cases w
    · exact .inr (h0.admitted valid)
    · exact .inr (h1.admitted valid)
  | picture _ bound _ range => rw [range]; exact .inr (hsb.admitted bound)
  | sei _ _ bound _ range => rw [range]; exact .inr (hsb.admitted bound)
  | qp _ _ _ _ admitted range _ => rw [range]; exact .inr (admitted_of_admitFail_none _ _ _ admitted)

/-! ### Every step -/

/-- A step that executes no command keeps memory; another runs its command on the state whose words have been taken. -/
theorem step_memory_cases {s t : State} (h : step s = .next t) :
    ((s.halted = true ∨ ∀ i rest, decode s.port ≠ .command i rest) ∧ t.mem = s.mem) ∨
      (s.halted = false ∧ ∃ i rest, decode s.port = .command i rest ∧ MemoryStep i { s with port := rest } t.mem) := by
  rcases step_cases h with ⟨hhalt, rfl⟩ | ⟨-, hno, rfl | ⟨hw, rest, rfl⟩⟩ | ⟨hrun, i, rest, hd, hexec⟩
  · exact .inl ⟨.inl hhalt, rfl⟩
  · exact .inl ⟨.inr hno, rfl⟩
  · exact .inl ⟨.inr hno, rfl⟩
  · exact .inr ⟨hrun, i, rest, hd, exec_memoryStep hexec⟩

/-- The words on the port are no part of a command's range. -/
@[simp] theorem writeRange_port (s : State) (rest : List Word) (i : Instr) :
    writeRange { s with port := rest } i = writeRange s i := rfl

/-- Settles O13: each way a command can leave memory is made of writes that keep the form. -/
theorem stepKeepsMemoryCanonical : Obligations.StepKeepsMemoryCanonical := by
  intro s t hw h
  rcases step_memory_cases h with ⟨-, hkept⟩ | ⟨-, i, rest, -, hstep⟩
  · rw [hkept]; exact hw
  · exact hstep.wf hw

/-- Settles O19: by the ways a command can leave memory, on the state whose words have been taken. -/
theorem stepWritesOnlyItsRange : Obligations.StepWritesOnlyItsRange := by
  intro s t hs h
  rcases step_memory_cases h with ⟨hidle, hkept⟩ | ⟨hrun, i, rest, hd, hstep⟩
  · refine ⟨fun i rest hrun hd => ?_, fun _ => hkept⟩
    rcases hidle with hhalt | hno
    · rw [hrun] at hhalt; cases hhalt
    · exact absurd hd (hno i rest)
  · refine ⟨fun i' rest' _ hd' => ?_, fun hidle => ?_⟩
    · obtain ⟨rfl, rfl⟩ : i = i' ∧ rest = rest' := by simpa [hd] using hd'
      exact hstep.sameOutside (hs.of_roiFields rfl)
    · rcases hidle with hhalt | hno
      · rw [hrun] at hhalt; cases hhalt
      · exact absurd hd (hno i rest)

/-- Settles O20: a changed byte lies in the range of a command that changed memory, and that range is admitted. -/
theorem stepChangesOnlyAdmittedBytes : Obligations.StepChangesOnlyAdmittedBytes := by
  intro s t a hs h hne
  rcases step_memory_cases h with ⟨-, hkept⟩ | ⟨-, i, rest, -, hstep⟩
  · exact absurd (by rw [hkept]) hne
  · have hsame := hstep.sameOutside (hs.roi.of_roiFields rfl)
    rcases hstep.kept_or_admitted hs.writers ⟨hs.buffer.unbound, hs.buffer.admitted⟩ with hkept | hadm
    · exact absurd (by rw [hkept]) hne
    · have hin : (writeRange s i).1 ≤ a ∧ a < (writeRange s i).1 + (writeRange s i).2 := by
        by_contra hout
        exact hne (hsame a (by simp only [writeRange_port]; omega))
      exact hadm a hin.1 hin.2

end Sys2Proof.Machine
end

section
/-! What the front of the command port makes a running block do (20_memory.md R85, R91, 30_encoding.md R114 to R117). -/

namespace Sys2Proof.Machine

theorem headerOpc_opcodeMask (op : Opcode) : headerOpc (opcodeMask op) = BitVec.allOnes 8 := by cases op <;> rfl

/-- R110, R111: the mask covers the whole OPC field, so a header that matches a row has the row's OPC. -/
theorem headerOpc_of_matches {op : Opcode} {h : Word}
    (hm : h &&& opcodeMask op = (opcodeByte op).setWidth 32 <<< 24) : headerOpc h = opcodeByte op := by
  calc headerOpc h
      = headerOpc h &&& headerOpc (opcodeMask op) := by rw [headerOpc_opcodeMask, BitVec.and_allOnes]
    _ = headerOpc (h &&& opcodeMask op) := BitVec.extractLsb'_and.symm
    _ = headerOpc ((opcodeByte op).setWidth 32 <<< 24) := by rw [hm]
    _ = opcodeByte op := by cases op <;> rfl

/-- R113: no two rows have the same OPC. -/
theorem opcodeOf_of_headerOpc {op : Opcode} {h : Word} (ho : headerOpc h = opcodeByte op) : opcodeOf h = some op := by
  rw [opcodeOf, ho]
  cases op <;> rfl

/-- R117: a command is built only from all the argument words of its row. -/
theorem argCount_le_length_of_buildInstr {op : Opcode} {h : Word} {args : List Word} {x : Instr × List Word}
    (hx : buildInstr op h args = some x) : argCount op ≤ args.length := by
  unfold buildInstr at hx
  -- In every row the pattern on `args` shows the words; the last one answers `none`.
  split at hx <;> cases hx <;> simp [argCount]

/-- R116: a legal header with too few argument words behind it is owed the others. -/
theorem decode_owed {op : Opcode} {h : Word} {args : List Word}
    (hm : h &&& opcodeMask op = (opcodeByte op).setWidth 32 <<< 24) (hargs : args.length < argCount op) :
    decode (h :: args) = .owed op := by
  have hbuild : buildInstr op h args = none := by
    cases hx : buildInstr op h args with
    | none => rfl
    | some x => exact absurd (argCount_le_length_of_buildInstr hx) (by omega)
  have hmatches : headerMatches op h = true := decide_eq_true hm
  simp only [decode, opcodeOf_of_headerOpc (headerOpc_of_matches hm), hmatches, hbuild, if_true]

section
variable {s : State} (hrun : s.halted = false)
include hrun

theorem step_noHeader (hd : decode s.port = .noHeader) : step s = .next s := by
  simp only [step, blockStep, hrun, hd, Bool.false_eq_true, if_false]

theorem step_owed {op : Opcode} (hd : decode s.port = .owed op) : step s = .next s := by
  simp only [step, blockStep, hrun, hd, Bool.false_eq_true, if_false]

theorem step_command {i : Instr} {rest : List Word} (hd : decode s.port = .command i rest) :
    step s = exec i { s with port := rest } := by
  simp only [step, blockStep, hrun, hd, Bool.false_eq_true, if_false]

end

/-- Settles O5: an empty port has no header, and a legal header with words missing is owed them. -/
theorem idleAndOwedBlockHolds : Obligations.IdleAndOwedBlockHolds := by
  refine fun s hrun => ⟨fun hp => step_noHeader hrun (by rw [hp]; rfl), fun h args op hp hm hargs => ?_⟩
  exact step_owed hrun (hp ▸ decode_owed hm hargs)

/-- Settles O6: by what a running block does with a whole command. -/
theorem stepRunsDecodedCommand : Obligations.StepRunsDecodedCommand :=
  fun _ _ _ hrun hd => step_command hrun hd

end Sys2Proof.Machine
end

section
/-! Operations on a stream over canonical memory (40_bitwriter.md R153, R162): what a sequence leaves, and whole bytes emitted
at a byte boundary (20_memory.md R81). -/

namespace Sys2Proof.Machine

theorem runOps_lands (ops : List StreamOp) (x : Stream) (h : StreamOk x) : OpsLand ops x (runOps ops x) := by
  induction ops generalizing x with
  | nil => rfl
  | cons o rest ih => exact ⟨o.run x, run_lands o x h, ih _ (streamOk_run o x h)⟩

/-- A byte put at a byte boundary with room only moves BITCNT on. -/
theorem putBits_byte_writer {n v : Nat} {x : Stream} (hr : AlignedRoom x.1 (n + 1)) :
    (putBits 8 v x).1 = { x.1 with bitCnt := x.1.bitCnt + 8 } := by
  have hroom := hr.room
  rw [putBits_fits 8 v x hr.clear (by omega)]

theorem AlignedRoom.next {wr : BitWriter} {n : Nat} (h : AlignedRoom wr (n + 1)) :
    AlignedRoom { wr with bitCnt := wr.bitCnt + 8 } n := by
  obtain ⟨hclear, haligned, hroom⟩ := h
  exact ⟨hclear, by simp only; omega, by simp only; omega⟩

theorem nextByte_add_byte (wr : BitWriter) : nextByte { wr with bitCnt := wr.bitCnt + 8 } = nextByte wr + 1 := by
  simp only [nextByte]
  omega

/-- Whole bytes emitted at a byte boundary with room for them: each lands in order and nothing else changes. -/
theorem emitBytes_aligned (bs : List Byte) (x : Stream) (h : StreamOk x) (hr : AlignedRoom x.1 bs.length) :
    readBytes (runOps (emitOps bs) x).2 (nextByte x.1) bs.length = bs ∧
      SameOutside x.2 (runOps (emitOps bs) x).2 (nextByte x.1) bs.length ∧
      (runOps (emitOps bs) x).1 = { x.1 with bitCnt := x.1.bitCnt + 8 * bs.length } := by
  induction bs generalizing x with
  | nil => exact ⟨rfl, fun _ _ => rfl, rfl⟩
  | cons b t ih =>
    have hroom := hr.room
    have hwriter := putBits_byte_writer (v := b.toNat) hr
    have hfirst : AlignedRoom x.1 1 := ⟨hr.clear, hr.aligned, by simp only [List.length_cons] at hroom; omega⟩
    obtain ⟨hbyte, hothers⟩ := emit8_aligned b x h hfirst
    obtain ⟨hread, hsame, hcount⟩ := ih (putBits 8 b.toNat x) (streamOk_run (.put 8 b.toNat) x h) (hwriter ▸ hr.next)
    rw [hwriter, nextByte_add_byte] at hread hsame
    have hrun : runOps (emitOps (b :: t)) x = runOps (emitOps t) (putBits 8 b.toNat x) := rfl
    rw [hrun]
    refine ⟨?_, fun a ha => ?_, ?_⟩
    · rw [List.length_cons, readBytes, hread, hsame _ (.inl (Nat.lt_succ_self _)), hbyte]
    · rw [List.length_cons] at ha
      rw [hsame a (by omega), hothers a (by omega)]
    · rw [hcount, hwriter, List.length_cons, Nat.add_assoc, Nat.mul_add_one, Nat.add_comm 8]

/-- Settles O25: by induction over the operations, and over the bytes. -/
theorem streamOperationsLand : Obligations.StreamOperationsLand :=
  fun x h => ⟨fun ops => runOps_lands ops x h, fun bs hr => emitBytes_aligned bs x h hr⟩

end Sys2Proof.Machine
end

section
/-! The picture-status record (30_encoding.md R119): little-endian words (20_memory.md R82), their bits, and the parts. -/

namespace Sys2Proof.Machine

/-- The number that the bytes of a u32 field stand for (R82). -/
def littleEndian (m : Memory) (a : Nat) : Nat :=
  (readByte m a).toNat + 2 ^ 8 * (readByte m (a + 1)).toNat + 2 ^ 16 * (readByte m (a + 2)).toNat +
    2 ^ 24 * (readByte m (a + 3)).toNat

theorem toNat_append_byte {n : Nat} (x : BitVec n) (y : Byte) : (x ++ y).toNat = 2 ^ 8 * x.toNat + y.toNat := by
  rw [BitVec.toNat_append, ← Nat.shiftLeft_add_eq_or_of_lt y.isLt, Nat.shiftLeft_eq, Nat.mul_comm]

@[simp] theorem toNat_readU32 (m : Memory) (a : Nat) : (readU32 m a).toNat = littleEndian m a := by
  rw [readU32, littleEndian, toNat_append_byte, toNat_append_byte, toNat_append_byte]
  omega

theorem toNat_extractLsb' (f : Word) (lo n : Nat) : (f.extractLsb' lo n).toNat = f.toNat / 2 ^ lo % 2 ^ n := by
  rw [BitVec.extractLsb'_toNat, Nat.shiftRight_eq_div_pow]

theorem sliceTypeOf_eq_b_iff (v : BitVec 2) : sliceTypeOf v = .b ↔ v.toNat = 0 := by
  revert v; decide

theorem sliceTypeOf_eq_p_iff (v : BitVec 2) : sliceTypeOf v = .p ↔ v.toNat = 1 := by
  revert v; decide

theorem length_readParts (m : Memory) (a n : Nat) : (readParts m a n).length = n := by
  induction n generalizing a with
  | zero => rfl
  | succ n ih => rw [readParts, List.length_cons, ih]

theorem getElem?_readParts {m : Memory} {a n i : Nat} {p : StreamPart} (h : (readParts m a n)[i]? = some p) :
    p = { off := readU32 m (a + 8 * i), size := readU32 m (a + 8 * i + 4) } := by
  induction n generalizing a i with
  | zero => cases h
  | succ n ih =>
    cases i with
    | zero => exact (Option.some.inj h).symm
    | succ i => rw [ih h, show a + 8 + 8 * i = a + 8 * (i + 1) by omega]

/-- Settles O44: every field is a u32 field or bits of the first. -/
theorem pictureRecordDecodes : Obligations.PictureRecordDecodes := by
  intro m a
  have hbit : ∀ k, (readU32 m a).getLsbD k = (littleEndian m a).testBit k := fun k => by
    rw [← toNat_readU32]; rfl
  refine ⟨hbit 0, hbit 1, hbit 2, hbit 3, hbit 4, hbit 5, hbit 6, hbit 7, ?_, ?_, ?_, toNat_readU32 m _, toNat_readU32 m _,
    toNat_readU32 m _, toNat_readU32 m _, toNat_readU32 m _, ?_, fun i p hp => ?_⟩
  · exact (sliceTypeOf_eq_b_iff _).trans (by rw [toNat_extractLsb', toNat_readU32]; rfl)
  · exact (sliceTypeOf_eq_p_iff _).trans (by rw [toNat_extractLsb', toNat_readU32]; rfl)
  · exact (toNat_extractLsb' _ _ _).trans (by rw [toNat_readU32]; rfl)
  · exact (length_readParts _ _ _).trans (toNat_readU32 m _)
  · obtain rfl := getElem?_readParts hp
    have hoff : a + 28 + 8 * i = a + (28 + 8 * i) := Nat.add_assoc _ _ _
    have hsize : a + (28 + 8 * i) + 4 = a + (32 + 8 * i) := by omega
    rw [hoff, hsize]
    exact ⟨toNat_readU32 m _, toNat_readU32 m _⟩

end Sys2Proof.Machine
end

section
/-! The configuration items of a first slice (42_sections.md R256 to R263): their header bytes (41_nal.md R201, R202), SEI
messages (R210), selected kinds (10_state.md R37) and order. -/

namespace Sys2Proof.Machine

/-! ### Header bytes -/

theorem codecHeader_avc {s : State} (h : s.cfgCodec = .avc) (ta : BitVec 5) (ra : BitVec 2) (th lr : BitVec 6)
    (tid : BitVec 3) : codecHeader s ta ra th lr tid = avcHdrBytes ta ra := by
  rw [codecHeader, h]

theorem codecHeader_hevc {s : State} (h : s.cfgCodec = .hevc) (ta : BitVec 5) (ra : BitVec 2) (th lr : BitVec 6)
    (tid : BitVec 3) : codecHeader s ta ra th lr tid = hevcHdrBytes th lr tid := by
  rw [codecHeader, h]

/-- R202 on the base layer: the type, and the temporal id plus 1. -/
theorem hevcHdrBytes_baseLayer (t : BitVec 6) (tid : BitVec 3) :
    hevcHdrBytes t 0#6 tid = [BitVec.ofNat 8 (2 * t.toNat), BitVec.ofNat 8 (tid.toNat + 1)] := by
  have hfirst : ∀ t : BitVec 6, (hevcHdr t 0#6 0#3).1 = BitVec.ofNat 8 (2 * t.toNat) := by decide
  have hsecond : ∀ tid : BitVec 3, (hevcHdr 0#6 0#6 tid).2 = BitVec.ofNat 8 (tid.toNat + 1) := by decide
  exact congrArg₂ (fun a b => [a, b]) (hfirst t) (hsecond tid)

/-- R202 for a layer and temporal id 0: the layer id crosses the two bytes. -/
theorem hevcHdrBytes_layer (t : BitVec 6) {l : Nat} (hl : l < 64) :
    hevcHdrBytes t (BitVec.ofNat 6 l) 0#3 =
      [BitVec.ofNat 8 (2 * t.toNat + l / 32), BitVec.ofNat 8 (l % 32 * 8 + 1)] := by
  have hfirst : (hevcHdr t (BitVec.ofNat 6 l) 0#3).1 = BitVec.ofNat 8 (2 * t.toNat + l / 32) := by
    have hcarry : l / 32 < 2 ^ 1 := by omega
    have hsum : 2 * t.toNat + l / 32 = t.toNat <<< 1 ||| l / 32 := by
      rw [← Nat.shiftLeft_add_eq_or_of_lt hcarry, Nat.shiftLeft_eq, Nat.mul_comm, Nat.pow_one]
    have htype : t.toNat % 256 = t.toNat := by omega
    have hlayer : l % 64 % 256 / 32 = l / 32 % 256 := by omega
    apply BitVec.eq_of_toNat_eq
    rw [hsum]
    simp [hevcHdr, Nat.shiftRight_eq_div_pow, htype, hlayer]
  have hsecond : ∀ l < 64, (hevcHdr 0#6 (BitVec.ofNat 6 l) 0#3).2 = BitVec.ofNat 8 (l % 32 * 8 + 1) := by decide
  exact congrArg₂ (fun a b => [a, b]) hfirst (hsecond l hl)

/-! ### SEI messages -/

/-- R210: the type and the length, each as ff bytes and a last byte, then the payload. -/
theorem seiMsg_eq (t : Nat) (p : List Byte) : seiMsg t p =
    List.replicate (t / 255) 0xFF#8 ++ [BitVec.ofNat 8 (t % 255)] ++
      List.replicate (p.length / 255) 0xFF#8 ++ [BitVec.ofNat 8 (p.length % 255)] ++ p := by
  simp only [seiMsg, ffCode, List.append_assoc]

/-- Whether a picture is an I picture or a recovery point (R259, R260). -/
abbrev OnIntra (r : PicRecord) : Prop := r.stype = .i ∨ 0 < r.recoveryCount.toNat

theorem isRecovery_iff (r : PicRecord) : isRecovery r = true ↔ 0 < r.recoveryCount.toNat := decide_eq_true_iff

/-- A kind with its payloadType, where CFG_SEI_MASK requests it and it applies (R260). -/
def requestedSei (s : State) (n : Nat) (applies : Prop) [Decidable applies] (kind : PayloadKind) (type : Nat) :
    List (PayloadKind × Nat) :=
  if s.cfgSeiMask.getLsbD n = true ∧ applies then [(kind, type)] else []

theorem any_requestedSei (s : State) (n : Nat) (applies : Prop) [Decidable applies] (kind : PayloadKind) (type : Nat)
    (f : PayloadKind × Nat → Bool) : (requestedSei s n applies kind type).any f = true ↔
      (s.cfgSeiMask.getLsbD n = true ∧ applies) ∧ f (kind, type) = true := by
  unfold requestedSei
  split <;> simp_all

theorem map_filter_cons {α β : Type} (p : α → Bool) (f : α → β) (x : α) (l : List α) :
    ((x :: l).filter p).map f = (if p x = true then [f x] else []) ++ (l.filter p).map f := by
  rw [List.filter_cons]
  split <;> rfl

theorem selectedSei_eq (s : State) (r : PicRecord) : selectedSei s r =
    requestedSei s 0 (OnIntra r) .seiBp 0 ++ requestedSei s 1 (OnIntra r) .seiRp 6 ++ requestedSei s 2 True .seiPt 1 ++
      requestedSei s 3 True .seiMdcv 137 ++ requestedSei s 4 True .seiCll 144 ++ requestedSei s 5 True .seiAtc 147 ++
      requestedSei s 6 True .seiSt2094x10 4 ++ requestedSei s 7 True .seiSt2094x40 4 := by
  simp only [selectedSei, bundledSei, map_filter_cons, List.filter_nil, List.map_nil, List.append_nil, List.append_assoc,
    requestedSei, OnIntra, Bool.and_eq_true, Bool.or_eq_true, decide_eq_true_eq, isRecovery_iff, Bool.not_true,
    Bool.not_false, Bool.false_eq_true, false_or, true_or]

/-- R261: whether BP or PT is selected. -/
theorem selectedSei_timing_iff (s : State) (r : PicRecord) :
    (selectedSei s r).any (fun e => decide (e.1 = .seiBp ∨ e.1 = .seiPt)) = true ↔
      (s.cfgSeiMask.getLsbD 0 = true ∧ OnIntra r) ∨ s.cfgSeiMask.getLsbD 2 = true := by
  simp only [selectedSei_eq, List.any_append, Bool.or_eq_true, any_requestedSei, decide_eq_true_eq, reduceCtorEq, or_self,
    or_false, or_true, and_false, and_true]

/-! ### The items -/

section
variable (s : State) (r : PicRecord)

theorem audItems_eq : audItems s r =
    if s.cfgAud = true ∨ r.audForce = true then
      [{ hb := codecHeader s 9#5 0#2 35#6 0#6 r.tid, flags := 0x02#32, rbsp := s.payload .aud 0 (payloadCtx s r) }]
    else [] := by
  simp only [audItems, Bool.or_eq_true, secConfig]

theorem vpsItems_eq : vpsItems s r =
    if s.cfgCodec = .hevc ∧ (r.idr = true ∨ 0 < r.recoveryCount.toNat ∨ r.vpsForce = true) then
      [{ hb := [0x40#8, 0x01#8], flags := 0x02#32, rbsp := s.payload .vps 0 (payloadCtx s r) }]
    else [] := by
  simp only [vpsItems, Bool.or_eq_true, isRecovery_iff, or_assoc, hevcHdrBytes_baseLayer]
  rfl

theorem spsItems_eq : spsItems s r =
    if r.idr = true ∨ 0 < r.recoveryCount.toNat then
      (List.range s.cfgNumLayers.toNat).map (fun l =>
        { hb := codecHeader s 7#5 3#2 33#6 (BitVec.ofNat 6 l) 0#3, flags := 0x02#32,
          rbsp := s.payload .sps l (payloadCtx s r) })
    else [] := by
  simp only [spsItems, Bool.or_eq_true, isRecovery_iff, secConfig]

theorem ppsItems_eq : ppsItems s r =
    if OnIntra r ∨ r.ppsChanged = true then
      (List.range s.cfgNumLayers.toNat).map (fun l =>
        { hb := codecHeader s 8#5 3#2 34#6 (BitVec.ofNat 6 l) 0#3, flags := 0x02#32,
          rbsp := s.payload .pps l (payloadCtx s r) })
    else [] := by
  simp only [ppsItems, Bool.or_eq_true, isRecovery_iff, decide_eq_true_eq, secConfig]

theorem apsItems_eq : apsItems s r =
    if s.cfgCodec = .hevc ∧ ((s.cfgSeiMask.getLsbD 0 = true ∧ OnIntra r) ∨ s.cfgSeiMask.getLsbD 2 = true) then
      [{ hb := seiHeader s r, flags := 0x0A#32,
         rbsp := seiMsg 129 (s.payload .seiAps 0 (payloadCtx s r)) ++ [0x80#8] }]
    else [] := by
  simp only [apsItems, selectedSei_timing_iff]
  rfl

theorem bundleItems_eq : bundleItems s r =
    if selectedSei s r ≠ [] then
      [{ hb := seiHeader s r, flags := 0x0A#32,
         rbsp := (selectedSei s r).flatMap (fun e => seiMsg e.2 (s.payload e.1 0 (payloadCtx s r))) ++ [0x80#8] }]
    else [] := by
  simp only [bundleItems, List.isEmpty_iff, ne_eq, ite_not]
  rfl

theorem uduItems_eq : uduItems s r =
    if s.cfgSeiMask.getLsbD 8 = true then
      [{ hb := seiHeader s r, flags := 0x0A#32,
         rbsp := seiMsg 5 (s.payload .seiUdu 0 (payloadCtx s r)) ++ [0x80#8] }]
    else [] := rfl

end

/-- R93: every SEI_UDU answer has one form. -/
theorem seiUdu_form (s : State) : ∃ (uuid : List Byte) (code : Word → List Byte), uuid.length = 16 ∧ (∀ n, code n ≠ []) ∧
    ∀ layer ctx, ∃ before after,
      s.payload .seiUdu layer ctx = uuid ++ before ++ code ctx.record.sliceCount ++ after :=
  ⟨s.uduUuid.toList, fun n => (s.sliceCountCode n).bytes, Vector.length_toList, fun _ => sliceCountCode_bytes_ne_nil _,
    fun _ ctx => ⟨s.uduBefore ctx, s.uduAfter ctx, rfl⟩⟩

/-- R38: a layer fits the six bits of its layer id. -/
theorem layer_lt {s : State} (hc : ConfigOk s) {l : Nat} (hl : l ∈ List.range s.cfgNumLayers.toNat) : l < 64 := by
  obtain ⟨-, -, -, hmax, -⟩ := hc.params
  have hnum := hc.layers.2
  rw [List.mem_range] at hl
  omega

/-- R258, R259: the HEVC parameter sets, one for each layer. -/
theorem layerItems_hevc {s : State} (hc : ConfigOk s) (t : BitVec 6) (flags : Word) (rbsp : Nat → List Byte) :
    (List.range s.cfgNumLayers.toNat).map (fun l =>
        ConfigItem.mk (hevcHdrBytes t (BitVec.ofNat 6 l) 0#3) flags (rbsp l)) =
      (List.range s.cfgNumLayers.toNat).map (fun l =>
        ConfigItem.mk [BitVec.ofNat 8 (2 * t.toNat + l / 32), BitVec.ofNat 8 (l % 32 * 8 + 1)] flags (rbsp l)) :=
  List.map_congr_left fun _ hl => by rw [hevcHdrBytes_layer t (layer_lt hc hl)]

theorem configItems_eq_of_first (s : State) {r : PicRecord} (hf : r.first = true) : configItems s r =
    audItems s r ++ vpsItems s r ++ spsItems s r ++ ppsItems s r ++ apsItems s r ++ bundleItems s r ++ uduItems s r :=
  if_pos hf

/-- Settles O46: each kind of item by its own law, with the header bytes of the codec. -/
theorem configurationItemsChosen : Obligations.ConfigurationItemsChosen := by
  intro s r hc ask msg layers rp onI tid1 pick sel bundle
  have hmsg : seiMsg = msg := funext₂ seiMsg_eq
  have hsel : selectedSei s r = sel := selectedSei_eq s r
  refine ⟨seiUdu_form s, ?_, ?_, ?_⟩
  · intro hf
    rw [configItems, hf]
    rfl
  · intro hf hcodec
    rw [configItems_eq_of_first s hf, audItems_eq, vpsItems_eq, spsItems_eq, ppsItems_eq, apsItems_eq, bundleItems_eq,
      uduItems_eq]
    simp only [seiHeader, codecHeader_hevc hcodec, hcodec, true_and, hmsg, hsel, layerItems_hevc hc,
      hevcHdrBytes_baseLayer]
    rfl
  · intro hf hcodec
    rw [configItems_eq_of_first s hf, audItems_eq, vpsItems_eq, spsItems_eq, ppsItems_eq, apsItems_eq, bundleItems_eq,
      uduItems_eq]
    simp only [seiHeader, codecHeader_avc hcodec, hcodec, hmsg, hsel, reduceCtorEq, false_and, if_false, List.append_nil]
    rfl

end Sys2Proof.Machine
end

section
/-! The command words (30_encoding.md R110 to R117): a header is a command's exactly when it has the row's fixed bits and
carries the command's fields, so words decode to a command exactly when they are its encoding; an illegal header faults. -/

namespace Sys2Proof.Machine

/-! ### A bit vector cut in two -/

section
variable {m n : Nat} {x : BitVec (m + n)}

theorem eq_append_iff {a : BitVec m} {b : BitVec n} :
    x = a ++ b ↔ x.extractLsb' n m = a ∧ x.extractLsb' 0 n = b := by
  constructor
  · rintro rfl
    exact ⟨BitVec.extractLsb'_append_eq_left, BitVec.extractLsb'_append_eq_right⟩
  · rintro ⟨rfl, rfl⟩
    rw [BitVec.extractLsb'_append_extractLsb'_eq_extractLsb' (Nat.zero_add n).symm, BitVec.extractLsb'_eq_self]

theorem and_append_eq_zero_iff {a : BitVec m} {b : BitVec n} :
    x &&& (a ++ b) = 0#(m + n) ↔ x.extractLsb' n m &&& a = 0#m ∧ x.extractLsb' 0 n &&& b = 0#n := by
  rw [← BitVec.zero_append_zero, eq_append_iff, BitVec.extractLsb'_and, BitVec.extractLsb'_and,
    BitVec.extractLsb'_append_eq_left, BitVec.extractLsb'_append_eq_right]

end

theorem extractLsb'_extractLsb' {k i n j m : Nat} (x : BitVec k) (h : i + n ≤ m) :
    (x.extractLsb' j m).extractLsb' i n = x.extractLsb' (j + i) n := by
  apply BitVec.eq_of_getLsbD_eq
  intro l hl
  have hlt : i + l < m := by omega
  simp only [BitVec.getLsbD_extractLsb', hl, hlt, decide_true, Bool.true_and, Nat.add_assoc]

/-! ### The two parts of a header (R110, R114): OPC and the bits below it -/

/-- The bits of a header below OPC. -/
abbrev fieldBits (h : Word) : BitVec 24 := h.extractLsb' 0 24

/-- The reserved bits of a row's header: what its mask fixes besides OPC (R111). -/
def reservedMask (op : Opcode) : BitVec 24 := fieldBits (opcodeMask op)

theorem headerMatches_iff {op : Opcode} {h : Word} :
    headerMatches op h = true ↔ headerOpc h = opcodeByte op ∧ fieldBits h &&& reservedMask op = 0#24 := by
  have hfixed : (opcodeByte op).setWidth 32 <<< 24 = opcodeByte op ++ 0#24 := by cases op <;> rfl
  rw [headerMatches, decide_eq_true_iff, hfixed, eq_append_iff (m := 8) (n := 24), BitVec.extractLsb'_and,
    BitVec.extractLsb'_and, ← headerOpc, ← headerOpc, headerOpc_opcodeMask, BitVec.and_allOnes, reservedMask]

theorem eq_headerWord_iff_parts {h : Word} {i : Instr} :
    h = headerWord i ↔ headerOpc h = opcodeByte (instrOpcode i) ∧ fieldBits h = headerFields i :=
  eq_append_iff (m := 8) (n := 24)

/-! ### One-bit fields (R112, R320) -/

theorem getLsbD_eq_iff {h : Word} {k : Nat} {b : Bool} : h.getLsbD k = b ↔ h.extractLsb' k 1 = BitVec.ofBool b := by
  rw [BitVec.getLsbD_eq_extractLsb']
  generalize h.extractLsb' k 1 = v
  revert v b
  decide

theorem fieldW_eq_iff {h : Word} {w : WriterId} : fieldW h = w ↔ h.extractLsb' 16 1 = bitW w := by
  have hbit : bitW w = BitVec.ofBool (w = .w1) := by cases w <;> rfl
  rw [hbit, ← getLsbD_eq_iff, fieldW]
  cases h.getLsbD 16 <;> cases w <;> decide

theorem fieldHL_eq_iff {h : Word} {hl : HdrLen} : fieldHL h = hl ↔ h.extractLsb' 17 1 = bitHL hl := by
  have hbit : bitHL hl = BitVec.ofBool (hl = .two) := by cases hl <;> rfl
  rw [hbit, ← getLsbD_eq_iff, fieldHL]
  cases h.getLsbD 17 <;> cases hl <;> decide

theorem fieldMode_eq_iff {h : Word} {mode : RoiMode} : fieldMode h = mode ↔ h.extractLsb' 0 1 = bitMode mode := by
  have hbit : bitMode mode = BitVec.ofBool (mode = .quality) := by cases mode <;> rfl
  rw [hbit, ← getLsbD_eq_iff, fieldMode]
  cases h.getLsbD 0 <;> cases mode <;> decide

/-! ### The fields of a command -/

/-- A header's fields are a command's, by the formats of R111. -/
def HeaderCarries (h : Word) : Instr → Prop
  | .regRd reg | .regWr reg _ => fieldLow16 h = reg
  | .bwInit w _ _ | .bwPutue w _ | .bwPutse w _ | .bwTrail w | .bwSkip w _ | .bwGetbits w | .bwGetdata w | .bwGetwptr w
  | .nalEpcopy w _ _ => fieldW h = w
  | .bwPutbits w n _ | .bwPutu w n _ | .bwPuts w n _ => h.extractLsb' 0 6 = n ∧ fieldW h = w
  | .bwPutbit w b | .bwAlign w b => h.getLsbD 0 = b ∧ fieldW h = w
  | .nalMkhdr type rl tid => h.extractLsb' 0 6 = type ∧ h.extractLsb' 6 6 = rl ∧ h.extractLsb' 12 3 = tid
  | .nalStart w hl hdr => fieldLow16 h = hdr ∧ fieldW h = w ∧ fieldHL h = hl
  | .nalFiller w hl hdr df _ => fieldLow16 h = hdr ∧ fieldW h = w ∧ fieldHL h = hl ∧ h.getLsbD 18 = df
  | .secAddsei sfx ptype _ _ => fieldLow16 h = ptype ∧ h.getLsbD 16 = sfx
  | .roiInit mode _ _ _ => fieldMode h = mode
  | .roiFill qpn bpl _ | .qpFlat qpn bpl _ _ | .qpLoad qpn bpl _ _ _ => h.extractLsb' 0 8 = qpn ∧ h.extractLsb' 8 8 = bpl
  | .nop | .secAttach _ _ | .secAdd _ _ _ | .secPicture _ | .roiAdd _ _ _ _ _ | .roiClear | .roiDestroy => True

/-- R112, R113: a row builds a command of its own opcode, from the header's fields and its argument words in order. -/
theorem eq_of_buildInstr {op : Opcode} {h : Word} {args rest : List Word} {i : Instr}
    (hx : buildInstr op h args = some (i, rest)) : instrOpcode i = op ∧ HeaderCarries h i ∧ args = argWords i ++ rest := by
  unfold buildInstr at hx
  -- In every row the pattern on `args` shows the words, and the answer the fields; the last one answers `none`.
  split at hx <;> cases hx <;> simp [instrOpcode, HeaderCarries, argWords]

/-- R117: the row of a command builds it from a header that carries its fields and from its argument words. -/
theorem buildInstr_of_carries {h : Word} {i : Instr} (rest : List Word) (hfields : HeaderCarries h i) :
    buildInstr (instrOpcode i) h (argWords i ++ rest) = some (i, rest) := by
  cases i
  all_goals
    simp only [HeaderCarries] at hfields
    simp only [instrOpcode, argWords, List.cons_append, List.nil_append, buildInstr, hfields]

/-! ### The header formats (R111): reserved bits and the fields between them -/

/-- The n bits of a header from bit j on are v exactly when those in the mask are 0 and P holds. A format is built up from
such slices: the mask grows by its reserved bits, and P by what it says of its fields. -/
def SliceReads (h : Word) (j : Nat) {n : Nat} (v mask : BitVec n) (P : Prop) : Prop :=
  h.extractLsb' j n = v ↔ h.extractLsb' j n &&& mask = 0#n ∧ P

section
variable {h : Word} {j p q : Nat} {v mask : BitVec p} {P X : Prop}

theorem SliceReads.allReserved (q : Nat) : SliceReads h j 0#q (BitVec.allOnes q) True := by
  rw [SliceReads, BitVec.and_allOnes, and_true]

theorem SliceReads.field {x : BitVec q} (hx : X ↔ h.extractLsb' j q = x) : SliceReads h j x 0#q X := by
  rw [SliceReads, BitVec.and_zero, hx, eq_self, true_and]

theorem SliceReads.append {x mask' : BitVec q} (hv : SliceReads h (j + q) v mask P)
    (hx : SliceReads h j x mask' X) : SliceReads h j (v ++ x) (mask ++ mask') (X ∧ P) := by
  have hhigh : (h.extractLsb' j (p + q)).extractLsb' q p = h.extractLsb' (j + q) p := extractLsb'_extractLsb' h (by omega)
  have hlow : (h.extractLsb' j (p + q)).extractLsb' 0 q = h.extractLsb' j q := extractLsb'_extractLsb' h (by omega)
  unfold SliceReads at *
  rw [eq_append_iff, and_append_eq_zero_iff, hhigh, hlow, hv, hx]
  tauto

/-- The highest field of a format, below p reserved bits. -/
theorem SliceReads.topField (p q : Nat) {x : BitVec q} (hx : X ↔ h.extractLsb' j q = x) :
    SliceReads h j (0#p ++ x) (BitVec.allOnes p ++ 0#q) X := by
  simpa only [and_true] using (allReserved p).append (field hx)

theorem SliceReads.thenField (q : Nat) {x : BitVec q} (hv : SliceReads h (j + q) v mask P)
    (hx : X ↔ h.extractLsb' j q = x) : SliceReads h j (v ++ x) (mask ++ 0#q) (X ∧ P) :=
  hv.append (field hx)

theorem SliceReads.thenReserved (q : Nat) (hv : SliceReads h (j + q) v mask P) :
    SliceReads h j (v ++ 0#q) (mask ++ BitVec.allOnes q) P := by
  simpa only [true_and] using hv.append (allReserved q)

end

/-- R111: the fields of every row, from the highest down. -/
theorem headerFields_reads (h : Word) (i : Instr) :
    SliceReads h 0 (headerFields i) (reservedMask (instrOpcode i)) (HeaderCarries h i) := by
  cases i
  all_goals simp only [instrOpcode, headerFields, HeaderCarries]
  case nop | secAttach | secAdd | secPicture | roiAdd | roiClear | roiDestroy => exact .allReserved 24
  case regRd | regWr => exact .topField 8 16 .rfl
  case bwInit | bwPutue | bwPutse | bwTrail | bwSkip | bwGetbits | bwGetdata | bwGetwptr | nalEpcopy =>
    exact (SliceReads.topField 7 1 fieldW_eq_iff).thenReserved 16
  case bwPutbits | bwPutu | bwPuts => exact ((SliceReads.topField 7 1 fieldW_eq_iff).thenReserved 10).thenField 6 .rfl
  case bwPutbit | bwAlign =>
    exact ((SliceReads.topField 7 1 fieldW_eq_iff).thenReserved 15).thenField 1 getLsbD_eq_iff
  case nalMkhdr => exact ((SliceReads.topField 9 3 .rfl).thenField 6 .rfl).thenField 6 .rfl
  case nalStart => exact ((SliceReads.topField 6 1 fieldHL_eq_iff).thenField 1 fieldW_eq_iff).thenField 16 .rfl
  case nalFiller =>
    exact (((SliceReads.topField 5 1 getLsbD_eq_iff).thenField 1 fieldHL_eq_iff).thenField 1 fieldW_eq_iff).thenField 16 .rfl
  case secAddsei => exact (SliceReads.topField 7 1 getLsbD_eq_iff).thenField 16 .rfl
  case roiInit => exact .topField 23 1 fieldMode_eq_iff
  case roiFill | qpFlat | qpLoad => exact (SliceReads.topField 8 8 .rfl).thenField 8 .rfl

/-- R111, R114: a header is a command's when the row's fixed bits have their values and it carries the command's fields. -/
theorem eq_headerWord_iff {h : Word} {i : Instr} :
    h = headerWord i ↔ headerMatches (instrOpcode i) h = true ∧ HeaderCarries h i := by
  rw [eq_headerWord_iff_parts, headerMatches_iff, and_assoc]
  exact and_congr_right' (headerFields_reads h i)

/-! ### The decoder and the encoder -/

theorem decode_cons_eq_command_iff {h : Word} {args rest : List Word} {i : Instr} :
    decode (h :: args) = .command i rest ↔
      ∃ op, opcodeOf h = some op ∧ headerMatches op h = true ∧ buildInstr op h args = some (i, rest) := by
  simp only [decode]
  split
  case h_1 hop => simp [hop]
  case h_2 op hop =>
    by_cases hm : headerMatches op h = true
    · cases hb : buildInstr op h args <;> simp [hop, hm, hb, Prod.ext_iff]
    · simp [hop, hm]

/-- R110 to R117: the words that decode to a command are its encoding and those that follow. -/
theorem decode_eq_command_iff {ws rest : List Word} {i : Instr} :
    decode ws = .command i rest ↔ ws = encode i ++ rest := by
  cases ws with
  | nil => exact iff_of_false nofun nofun
  | cons h args =>
    have hcons : h :: args = encode i ++ rest ↔ h = headerWord i ∧ args = argWords i ++ rest := List.cons_eq_cons
    rw [decode_cons_eq_command_iff, hcons, eq_headerWord_iff]
    constructor
    · rintro ⟨op, -, hm, hbuild⟩
      obtain ⟨rfl, hfields, hargs⟩ := eq_of_buildInstr hbuild
      exact ⟨⟨hm, hfields⟩, hargs⟩
    · rintro ⟨⟨hm, hfields⟩, rfl⟩
      obtain ⟨hopc, -⟩ := headerMatches_iff.mp hm
      exact ⟨_, opcodeOf_of_headerOpc hopc, hm, buildInstr_of_carries rest hfields⟩

/-- Settles O1: the encoding is among the words that decode to the command. -/
theorem decodeEncodeRoundTrip : Obligations.DecodeEncodeRoundTrip :=
  fun _ _ => decode_eq_command_iff.mpr rfl

/-- Settles O2: it is the only one. -/
theorem decodedWordsAreTheEncoding : Obligations.DecodedWordsAreTheEncoding :=
  fun _ _ _ => decode_eq_command_iff.mp

/-! ### Illegal headers (R115) -/

/-- The gaps of the opcode map. -/
abbrev OpcodeGap (k : Nat) : Prop :=
  (0x03 ≤ k ∧ k ≤ 0x0F) ∨ (0x1D ≤ k ∧ k ≤ 0x1F) ∨ (0x24 ≤ k ∧ k ≤ 0x2F) ∨ (0x34 ≤ k ∧ k ≤ 0x3F) ∨ 0x47 ≤ k

theorem not_opcodeGap_opcodeByte (op : Opcode) : ¬ OpcodeGap (opcodeByte op).toNat := by cases op <;> decide

theorem toNat_headerOpc (h : Word) : (headerOpc h).toNat = h.toNat / 2 ^ 24 := by
  have hlt : h.toNat / 2 ^ 24 < 2 ^ 8 := by omega
  rw [headerOpc, toNat_extractLsb', Nat.mod_eq_of_lt hlt]

section
variable {h : Word}

theorem decode_of_opcodeGap (args : List Word) (hgap : OpcodeGap (h.toNat / 2 ^ 24)) :
    decode (h :: args) = .illegalOpcode h args := by
  have hnone : opcodeOf h = none := by
    rw [opcodeOf, List.find?_eq_none]
    rintro op - hop
    rw [← toNat_headerOpc, ← of_decide_eq_true hop] at hgap
    exact not_opcodeGap_opcodeByte op hgap
  simp only [decode, hnone]

theorem decode_of_reservedBit {op : Opcode} (args : List Word) (ho : headerOpc h = opcodeByte op)
    (hbits : h &&& opcodeMask op ≠ (opcodeByte op).setWidth 32 <<< 24) : decode (h :: args) = .reservedBitSet h args := by
  have hmatches : headerMatches op h = false := decide_eq_false hbits
  simp only [decode, opcodeOf_of_headerOpc ho, hmatches, Bool.false_eq_true, if_false]

theorem step_illegalHeader {s : State} {rest : List Word} (hrun : s.halted = false)
    (hd : decode s.port = .illegalOpcode h rest ∨ decode s.port = .reservedBitSet h rest) :
    step s = .next (faultEntry h .illegalCommand 0 { s with port := rest }) := by
  rcases hd with hd | hd <;> simp only [step, blockStep, hrun, hd, Bool.false_eq_true, if_false]

end

/-- Settles O4: a header in a gap decodes to no row, and one with a reserved bit set does not match its row. -/
theorem illegalHeaderRaisesIllegalCommand : Obligations.IllegalHeaderRaisesIllegalCommand := by
  intro s h rest hrun hport hillegal
  have hcases : OpcodeGap (h.toNat / 2 ^ 24) ∨
      ∃ op, headerOpc h = opcodeByte op ∧ h &&& opcodeMask op ≠ (opcodeByte op).setWidth 32 <<< 24 := by
    simpa only [OpcodeGap, or_assoc] using hillegal
  refine step_illegalHeader hrun ?_
  rw [hport]
  rcases hcases with hgap | ⟨op, ho, hbits⟩
  · exact .inl (decode_of_opcodeGap rest hgap)
  · exact .inr (decode_of_reservedBit rest ho hbits)

/-- Settles O3: the worked words are encodings, and bit 17 of the last header is a reserved bit of F_WN. -/
theorem workedEncodingsDecode : Obligations.WorkedEncodingsDecode := by
  refine ⟨decode_eq_command_iff.mpr rfl, decode_eq_command_iff.mpr rfl, decode_eq_command_iff.mpr rfl,
    decode_eq_command_iff.mpr rfl, fun s rest hrun hport => ?_⟩
  have hbits : 0x11020005#32 &&& opcodeMask .bwPutbits ≠ (opcodeByte .bwPutbits).setWidth 32 <<< 24 := by decide
  exact step_illegalHeader hrun (.inr (hport ▸ decode_of_reservedBit rest rfl hbits))

end Sys2Proof.Machine
end

section
/-! What every step leaves of the writer contexts (10_state.md R44, 40_bitwriter.md R151, R153): each stays unset, or over an
admitted range with BITCNT within MAXBITS while OVF is clear. -/

namespace Sys2Proof.Machine

theorem writersOk_iff (s : State) : WritersOk s ↔ ∀ w, WriterOk s.memMap (s.writer w) :=
  ⟨fun ⟨h0, h1⟩ w => match w with | .w0 => h0 | .w1 => h1, fun h => ⟨h .w0, h .w1⟩⟩

/-- R151: what BW_INIT sets up over an admitted capacity range. -/
theorem writerOk_fresh {rs : List Region} {base maxBits : Word}
    (h : admitFail rs base.toNat (capacityBytes maxBits.toNat) = none) :
    WriterOk rs { valid := true, base := base, maxBits := maxBits, bitCnt := 0, ovf := false } :=
  ⟨nofun, fun _ => admitted_of_admitFail_none _ _ _ h, fun _ => Nat.zero_le _⟩

/-- MEM_OK is fixed by the launch (00_scope.md R7): no command changes it. -/
theorem exec_memMap {i : Instr} {s t : State} (h : exec i s = .next t) : t.memMap = s.memMap := by
  obtain ⟨t', hnext, hcount | ⟨c, b, -, -, rfl⟩⟩ := (exec_ends i s).next
  · obtain rfl : t' = t := by simpa [hnext] using h
    obtain ⟨-, -, -, -, -, -, -, hplatform⟩ := (control_eq_iff _ _).1 hcount
    rw [State.memMap, State.memMap, hplatform]
  · obtain rfl : faultEntry (headerWord i) c b s = t := by simpa [hnext] using h
    rfl

/-- BITCNT and OVF of a valid writer may take any values that keep BITCNT within MAXBITS while OVF is clear. -/
theorem WriterOk.recount {rs : List Region} {x : HostWriter} {cnt : Nat} {ovf : Bool} (h : WriterOk rs x)
    (hv : x.valid = true) (hin : ovf = false → cnt ≤ x.maxBits.toNat) :
    WriterOk rs { x with bitCnt := cnt, ovf := ovf } where
  unset hinv := absurd hinv (by simp [hv])
  admitted _ := h.admitted hv
  inside := hin

/-- R153: OVF clear after the operations means that all of them fitted. -/
theorem RanOn.writerOk {rs : List Region} {w : WriterId} {s t : State} (h : RanOn w s t)
    (hs : WriterOk rs (s.writer w)) : WriterOk rs (t.writer w) := by
  obtain ⟨hv, ops, r, rfl⟩ := h
  have hinside : (runOps ops (s.stream w)).1.ovf = false →
      (runOps ops (s.stream w)).1.bitCnt ≤ (s.writer w).maxBits.toNat := fun hclear => by
    rw [runOps_bitCnt]
    exact runOps_clear ops (s.stream w) hs.inside hclear
  cases w <;> exact hs.recount hv hinside

/-- Each writer is set up anew, left as it is, or has run operations. -/
theorem Completed.writerOk {i : Instr} {s t : State} (h : Completed i s t) (w : WriterId)
    (hs : WriterOk s.memMap (s.writer w)) : WriterOk s.memMap (t.writer w) := by
  rcases h.writer_cases w with ⟨base, maxBits, rfl⟩ | hkept | hran
  · obtain ⟨hadmitted, rfl⟩ := h
    cases w <;> exact writerOk_fresh hadmitted
  · rw [hkept]; exact hs
  · exact hran.writerOk hs

theorem exec_keeps_writersOk {i : Instr} {s t : State} (hs : WritersOk s) (h : exec i s = .next t) : WritersOk t := by
  rw [writersOk_iff] at hs ⊢
  rw [exec_memMap h]
  rcases exec_cases h with ⟨c, b, rfl⟩ | hdone
  · exact hs
  · exact fun w => hdone.writerOk w (hs w)

/-- Settles O14: fault entry and discarded words touch no writer, and a command keeps both. -/
theorem stepKeepsWritersOk : Obligations.StepKeepsWritersOk := by
  intro s t hs h
  rcases step_cases h with ⟨-, rfl⟩ | ⟨-, -, rfl | ⟨hw, rest, rfl⟩⟩ | ⟨-, i, rest, -, hexec⟩
  · exact hs
  · exact hs
  · exact hs
  · exact exec_keeps_writersOk (s := { s with port := rest }) hs hexec

end Sys2Proof.Machine
end

section
/-! The stream bits at and beyond the capacity (40_bitwriter.md R153, R166): no put reaches them, in any sequence. -/

namespace Sys2Proof.Machine

/-- A put that fits writes stream bits below MAXBITS only; the last byte's padding bits keep. -/
theorem readStreamBit_putBits_beyond (n v : Nat) {x : Stream} {k : Nat} (hw : x.2.wf = true) (hk : x.1.maxBits ≤ k) :
    readStreamBit (putBits n v x).2 x.1.base k = readStreamBit x.2 x.1.base k := by
  by_cases hr : x.1.ovf = true ∨ x.1.maxBits < x.1.bitCnt + n
  · rw [putBits_rejected n v x hr]
  · obtain ⟨hclear, hfits⟩ := not_or.1 hr
    rw [putBits_fits n v x (Bool.eq_false_iff.2 hclear) (by omega)]
    exact getLsbD_writeStreamBits_other n x.2 x.1.base x.1.bitCnt v _ _ hw (by omega) (fun i hi => by omega)

theorem readStreamBit_run_beyond (o : StreamOp) {x : Stream} {k : Nat} (hw : x.2.wf = true) (hk : x.1.maxBits ≤ k) :
    readStreamBit (o.run x).2 x.1.base k = readStreamBit x.2 x.1.base k := by
  cases o with
  | put n v => exact readStreamBit_putBits_beyond n v hw hk
  | skip n => rfl

theorem readStreamBit_runOps_beyond (ops : List StreamOp) {x : Stream} {k : Nat} (hw : x.2.wf = true)
    (hk : x.1.maxBits ≤ k) : readStreamBit (runOps ops x).2 x.1.base k = readStreamBit x.2 x.1.base k := by
  induction ops generalizing x with
  | nil => rfl
  | cons o t ih =>
    have hrest := ih (x := o.run x) (wf_run o x hw) (by rw [run_maxBits]; exact hk)
    rw [run_base] at hrest
    rw [runOps_cons, hrest, readStreamBit_run_beyond o hw hk]

/-- Settles O22: OVF clear at the end would mean that everything fitted, and no operation reaches past the capacity. -/
theorem putSkipSequences : Obligations.PutSkipSequences := by
  intro ops x hw hcnt hovf
  have hbits : (runOps ops x).1.bitCnt = opsSize ops := by rw [runOps_bitCnt, hcnt, Nat.zero_add]
  refine ⟨fun hover => ?_, fun a ha => readByte_runOps_outside ops x a (.inr ha),
    fun k hk => readStreamBit_runOps_beyond ops hw hk, hbits⟩
  by_contra hclear
  have hfits := runOps_clear ops x (fun _ => by omega) (Bool.eq_false_iff.2 hclear)
  omega

end Sys2Proof.Machine
end

section
/-! The bit-writer commands on a valid and on an invalid writer (40_bitwriter.md R151 to R165): their two checks, and the puts
or the skip that each is. -/

namespace Sys2Proof.Machine

/-! ### The common shape of a command on W[w] (R152) -/

section
variable {i : Instr} {ok : Bool} {w : WriterId} {s : State}

theorem writerCommand_operandRange (f : Stream → Stream) (hok : ok = false) :
    writerCommand i ok w f s = raise i .operandRange s := by
  rw [writerCommand, hok, if_neg Bool.false_ne_true]

theorem writerCommand_notInitialised (f : Stream → Stream) (hok : ok = true) (hv : (s.writer w).valid = false) :
    writerCommand i ok w f s = raise i .notInitialised s := by
  rw [writerCommand, if_pos hok, hv, if_neg Bool.false_ne_true]

theorem writerCommand_completes (f : Stream → Stream) (hok : ok = true) (hv : (s.writer w).valid = true) :
    writerCommand i ok w f s = .next { s.withStream w (f (s.stream w)) with cmdSeq := s.cmdSeq + 1#32 } := by
  rw [writerCommand, if_pos hok, if_pos hv, complete, withStream_cmdSeq]

theorem writerQuery_notInitialised (f : HostWriter → Word) (hv : (s.writer w).valid = false) :
    writerQuery i w f s = raise i .notInitialised s := by
  rw [writerQuery, hv, if_neg Bool.false_ne_true]

theorem writerQuery_answers (f : HostWriter → Word) (hv : (s.writer w).valid = true) :
    writerQuery i w f s = .next { s with res := f (s.writer w), cmdSeq := s.cmdSeq + 1#32 } := by
  rw [writerQuery, if_pos hv, completeWith, complete]

end

/-- R152: the operand check comes first, in every state. -/
theorem exec_named_operandRange {i : Instr} {w : WriterId} (s : State) (hn : namedWriter i = some w)
    (hwf : i.wellFormed = false) : exec i s = raise i .operandRange s := by
  cases i with
  | bwPutbits | bwPutu | bwPuts | bwPutue | bwPutse | nalStart => exact writerCommand_operandRange _ hwf
  | nalFiller w' hl hdr =>
    have hhdr : nalHeaderOk hl hdr = false := hwf
    rw [exec, execNalFiller, hhdr, if_neg Bool.false_ne_true]
  | bwPutbit | bwAlign | bwTrail | bwSkip | bwGetbits | bwGetdata | bwGetwptr | nalEpcopy => cases hwf
  | nop | regRd | regWr | bwInit | nalMkhdr | secAttach | secAdd | secPicture | secAddsei | roiInit | roiAdd | roiClear
  | roiDestroy | roiFill | qpFlat | qpLoad => cases hn

/-- R152: VALID is checked next. -/
theorem exec_named_notInitialised {i : Instr} {w : WriterId} {s : State} (hn : namedWriter i = some w)
    (hwf : i.wellFormed = true) (hv : (s.writer w).valid = false) : exec i s = raise i .notInitialised s := by
  cases i with
  | bwPutbits | bwPutbit | bwPutu | bwPuts | bwPutue | bwPutse | bwAlign | bwTrail | bwSkip | nalStart =>
    cases hn
    exact writerCommand_notInitialised _ hwf hv
  | bwGetbits | bwGetdata | bwGetwptr =>
    cases hn
    simp only [exec, execBwGetbits, execBwGetdata, execBwGetwptr, writerQuery_notInitialised _ hv]
  | nalEpcopy =>
    cases hn
    rw [exec, execNalEpcopy, hv, if_neg Bool.false_ne_true]
  | nalFiller w' hl hdr =>
    cases hn
    have hhdr : nalHeaderOk hl hdr = true := hwf
    rw [exec, execNalFiller, if_pos hhdr, hv, if_neg Bool.false_ne_true]
  | nop | regRd | regWr | bwInit | nalMkhdr | secAttach | secAdd | secPicture | secAddsei | roiInit | roiAdd | roiClear
  | roiDestroy | roiFill | qpFlat | qpLoad => cases hn

/-- Settles O33: by the two checks. -/
theorem writerCommandsNeedValid : Obligations.WriterCommandsNeedValid :=
  fun _ _ s hn => ⟨exec_named_operandRange s hn, exec_named_notInitialised hn⟩

/-! ### BW_INIT (R151) -/

/-- Settles O29: by what admission answers for the capacity range. -/
theorem bwInitSetsUpWriter : Obligations.BwInitSetsUpWriter := by
  refine fun s w base maxBits => ⟨fun hadmitted => ?_, fun b hfailing => ?_⟩
  · rw [exec, execBwInit, capacityBytes, (admitFail_eq_none_iff _ _ _).2 hadmitted]
    simp only [complete, setWriter_cmdSeq]
  · rw [exec, execBwInit, capacityBytes, (admitFail_eq_some_iff _ _ _ _).2 hfailing]

/-! ### BW_SKIP and the queries (R162 to R165) -/

/-- A skip writes back the memory it found. -/
theorem withStream_skipBits (s : State) (w : WriterId) (n : Nat) : s.withStream w (skipBits n (s.stream w)) =
    s.setWriter w { s.writer w with
      bitCnt := (s.writer w).bitCnt + n
      ovf := (s.writer w).ovf || decide ((s.writer w).maxBits.toNat < (s.writer w).bitCnt + n) } := by
  cases w <;> rfl

theorem exec_bwSkip {s : State} {w : WriterId} (hv : (s.writer w).valid = true) (n : Word) :
    exec (.bwSkip w n) s = .next { s.setWriter w { s.writer w with
      bitCnt := (s.writer w).bitCnt + n.toNat
      ovf := (s.writer w).ovf || decide ((s.writer w).maxBits.toNat < (s.writer w).bitCnt + n.toNat) } with
        cmdSeq := s.cmdSeq + 1#32 } := by
  rw [exec, execBwSkip, writerCommand_completes _ rfl hv, withStream_skipBits]

/-- Settles O32: by the common shapes of a command and of a query. -/
theorem skipAndQueriesAnswer : Obligations.SkipAndQueriesAnswer := by
  refine fun s w => ⟨fun hv => ⟨exec_bwSkip hv, ?_, ?_, ?_⟩, fun hv => ⟨fun n => exec_named_notInitialised rfl rfl hv,
    exec_named_notInitialised rfl rfl hv, exec_named_notInitialised rfl rfl hv, exec_named_notInitialised rfl rfl hv⟩⟩
  · exact ⟨_, BitVec.toNat_ofNat _ _, by rw [exec, execBwGetbits, writerQuery_answers _ hv]⟩
  · rw [exec, execBwGetdata, writerQuery_answers _ hv]
  · exact ⟨_, BitVec.toNat_ofNat _ _, by rw [exec, execBwGetwptr, writerQuery_answers _ hv]⟩

/-! ### Operations on a writer that is ready -/

/-- An operation's stream is read back, because it keeps BASE and MAXBITS. -/
theorem stream_withStream {s : State} {w : WriterId} {x : Stream} (hbase : x.1.base = (s.writer w).base.toNat)
    (hmax : x.1.maxBits = (s.writer w).maxBits.toNat) : (s.withStream w x).stream w = x := by
  rw [State.stream, withStream_writer_same, withStream_mem, writerView, ← hbase, ← hmax]

/-- R84, R151: the capacity of a writer that a run can reach ends in the address space. -/
theorem WriterReady.streamOk {s : State} {w : WriterId} (h : WriterReady s w) : StreamOk (s.stream w) where
  memory := h.memory
  space := by
    show (s.writer w).base.toNat + capacityBytes (s.writer w).maxBits.toNat ≤ addressSpace
    rcases Nat.eq_zero_or_pos (capacityBytes (s.writer w).maxBits.toNat) with hempty | hbytes
    · rw [hempty]; exact (s.writer w).base.isLt.le
    · exact (h.writer.admitted h.valid).le_space hbytes

/-- The state after operations on a ready writer, with an answer in RES. -/
theorem WriterReady.runs {s : State} {w : WriterId} (h : WriterReady s w) (ops : List StreamOp) (res : Word) :
    WriterRuns ops w res s
      { s.withStream w (runOps ops (s.stream w)) with res := res, cmdSeq := s.cmdSeq + 1#32 } where
  frame := by cases w <;> rfl
  lands := by
    have hstream : (s.withStream w (runOps ops (s.stream w))).stream w = runOps ops (s.stream w) :=
      stream_withStream (runOps_base _ _) (runOps_maxBits _ _)
    have hlands := runOps_lands ops (s.stream w) h.streamOk
    rw [← hstream] at hlands
    cases w <;> exact hlands

/-- A writer command whose effect is a sequence of operations completes as that sequence. -/
theorem WriterReady.writerCommand_runs {s : State} {w : WriterId} (h : WriterReady s w) {i : Instr} {ok : Bool}
    {f : Stream → Stream} (ops : List StreamOp) (hf : f (s.stream w) = runOps ops (s.stream w)) (hok : ok = true) :
    ∃ t, writerCommand i ok w f s = .next t ∧ WriterRuns ops w s.res s t := by
  refine ⟨_, writerCommand_completes f hok h.valid, ?_⟩
  rw [hf, ← withStream_res s w (runOps ops (s.stream w))]
  exact h.runs ops _

/-! ### The operands, as the rules state them -/

theorem putUnsignedOk_iff (n : BitVec 6) (v : Word) : putUnsignedOk n v = true ↔ n.toNat ≤ 32 ∧ v.toNat < 2 ^ n.toNat := by
  simp only [putUnsignedOk, Bool.and_eq_true, decide_eq_true_eq]

theorem putSignedOk_iff (n : BitVec 6) (v : Word) : putSignedOk n v = true ↔
    n.toNat ≤ 32 ∧ (n.toNat = 0 → v.toInt = 0) ∧
      (0 < n.toNat → -2 ^ (n.toNat - 1) ≤ v.toInt ∧ v.toInt ≤ 2 ^ (n.toNat - 1) - 1) := by
  rw [putSignedOk, Bool.and_eq_true, decide_eq_true_iff, signedArg]
  rcases Nat.eq_zero_or_pos n.toNat with hzero | hpos
  · rw [if_pos hzero, decide_eq_true_iff]
    simp only [hzero, forall_const, lt_irrefl, false_implies, and_true]
  · rw [if_neg hpos.ne', decide_eq_true_iff]
    simp only [hpos, hpos.ne', forall_const, false_implies, true_and]

theorem putSignedBits_eq {n : BitVec 6} {v : Word} {u : Nat} (h : (u : Int) = v.toInt % 2 ^ n.toNat) :
    putSignedBits n v = u := by
  rw [putSignedBits, signedArg, ← h, Int.toNat_natCast]

theorem putUeOk_of_ne {v : Word} (h : v ≠ 0xFFFFFFFF#32) : putUeOk v = true := by
  have hne : v.toNat ≠ 4294967295 := fun e => h (BitVec.eq_of_toNat_eq e)
  exact decide_eq_true (by omega)

theorem putSeOk_of_ne {v : Word} (h : v ≠ 0x80000000#32) : putSeOk v = true :=
  decide_eq_true fun e => h (BitVec.eq_of_toInt_eq e)

/-- R159: the signed values in the order 0, 1, -1, 2, -2 and so on. -/
theorem seIndex_eq {v : Word} {k : Nat} (hpos : 0 < v.toInt → (k : Int) = 2 * v.toInt - 1)
    (hneg : v.toInt ≤ 0 → (k : Int) = -2 * v.toInt) : seIndex v = k := by
  rw [seIndex, signedArg]
  split
  · rw [← hpos ‹_›, Int.toNat_natCast]
  · rw [← hneg (by omega), Int.toNat_natCast]

/-- R160: the padding is the only number below 8 that reaches a byte boundary. -/
theorem padBits_eq {wr : BitWriter} {k : Nat} (hk : k < 8) (h : (wr.bitCnt + k) % 8 = 0) : padBits wr = k := by
  rw [padBits]
  omega

/-! ### One put each (R154 to R157, R160) -/

theorem alignBits_eq (fill : Bool) {x : Stream} {k : Nat} (hk : k < 8) (h : (x.1.bitCnt + k) % 8 = 0) :
    alignBits fill x = runOps [.put k (if fill then 2 ^ k - 1 else 0)] x := by
  rw [alignBits, padBits_eq hk h]
  rfl

/-- Settles O30: each command is a writer command whose effect is its one put. -/
theorem singlePutCommandsLand : Obligations.SinglePutCommandsLand := by
  refine fun s w h => ⟨fun n v hn hv => ?_, fun n v u hn hzero hrange hu => ?_, fun b => ?_, fun b k hk hpad => ?_⟩
  · have hok := (putUnsignedOk_iff n v).2 ⟨hn, hv⟩
    exact ⟨h.writerCommand_runs _ rfl hok, h.writerCommand_runs _ rfl hok⟩
  · have hok := (putSignedOk_iff n v).2 ⟨hn, hzero, hrange⟩
    rw [← putSignedBits_eq hu]
    exact h.writerCommand_runs _ rfl hok
  · exact h.writerCommand_runs (f := putBits 1 b.toNat) [.put 1 b.toNat] rfl rfl
  · exact h.writerCommand_runs _ (alignBits_eq b hk hpad) rfl

/-! ### Two puts each (R158, R159, R161) -/

theorem putUe_eq_of_length {v l : Nat} (hlow : 2 ^ l ≤ v + 1) (hhigh : v + 1 < 2 ^ (l + 1)) (x : Stream) :
    putUe v x = runOps [.put l 0, .put (l + 1) (v + 1)] x := by
  rw [putUe_eq, (Nat.log2_eq_iff v.succ_ne_zero).2 ⟨hlow, hhigh⟩]

theorem trailBits_eq {x : Stream} {k : Nat} (hk : k < 8) (h : (x.1.bitCnt + 1 + k) % 8 = 0) :
    trailBits x = runOps [.put 1 1, .put k 0] x := by
  rw [trailBits, alignBits_eq false hk (by rw [putBits_bitCnt]; exact h)]
  rfl

/-- Settles O31: each command is a writer command whose effect is its two puts. -/
theorem twoPutCommandsLand : Obligations.TwoPutCommandsLand := by
  refine fun s w h => ⟨fun v l hv hlow hhigh => ?_, fun v k l hv hpos hneg hlow hhigh => ?_, fun k hk hpad => ?_⟩
  · exact h.writerCommand_runs _ (putUe_eq_of_length hlow hhigh _) (putUeOk_of_ne hv)
  · obtain rfl := seIndex_eq hpos hneg
    exact h.writerCommand_runs _ (putUe_eq_of_length hlow hhigh _) (putSeOk_of_ne hv)
  · exact h.writerCommand_runs _ (trailBits_eq hk hpad) rfl

end Sys2Proof.Machine
end

section
/-! Emulation prevention (41_nal.md R206, R207): the output with each byte marked inserted or not, and what the bytes emitted
before a place decide there. -/

namespace Sys2Proof.Machine

/-- Whether R206 inserts a 03 before byte b, after a run of z emitted zeros. -/
abbrev InsertsBefore (z : Nat) (b : Byte) : Prop := 2 ≤ z ∧ b &&& 0xFC#8 = 0#8

theorem topSixBits_eq_zero_iff (b : Byte) : b &&& 0xFC#8 = 0#8 ↔ b.toNat < 4 := by
  revert b; decide

/-- The run of emitted zeros after an input byte that follows z zeros with no 03 between. -/
def zeroRun (z : Nat) (b : Byte) : Nat := if b = 0#8 then z + 1 else 0

theorem zeroRun_le (z : Nat) (b : Byte) : zeroRun z b ≤ z + 1 := by
  unfold zeroRun
  split <;> omega

/-- EP with each byte of its output marked: inserted, or a byte of the input. -/
def epTag : Nat → List Byte → List (Bool × Byte)
  | _, [] => []
  | z, b :: t =>
    if InsertsBefore z b then (true, 0x03#8) :: (false, b) :: epTag (zeroRun 0 b) t
    else (false, b) :: epTag (zeroRun z b) t

section
variable {z : Nat} {b : Byte} (t : List Byte)

theorem epTag_insert (h : InsertsBefore z b) :
    epTag z (b :: t) = (true, 0x03#8) :: (false, b) :: epTag (zeroRun 0 b) t := if_pos h

theorem epTag_pass (h : ¬InsertsBefore z b) : epTag z (b :: t) = (false, b) :: epTag (zeroRun z b) t := if_neg h

theorem epFrom_insert (h : InsertsBefore z b) : epFrom z (b :: t) = 0x03#8 :: b :: epFrom (zeroRun 0 b) t := if_pos h

theorem epFrom_pass (h : ¬InsertsBefore z b) : epFrom z (b :: t) = b :: epFrom (zeroRun z b) t := if_neg h

theorem deEmulateFrom_drop (h : 2 ≤ z) : deEmulateFrom z (0x03#8 :: t) = deEmulateFrom 0 t := if_pos ⟨h, rfl⟩

theorem deEmulateFrom_keep (h : ¬(2 ≤ z ∧ b = 0x03#8)) :
    deEmulateFrom z (b :: t) = b :: deEmulateFrom (zeroRun z b) t := if_neg h

end

/-- The marks are all that `epTag` adds to EP. -/
theorem epFrom_eq_map_epTag (z : Nat) (s : List Byte) : epFrom z s = (epTag z s).map Prod.snd := by
  induction z, s using epTag.induct with
  | case1 => rfl
  | case2 z b t h ih => rw [epFrom_insert t h, epTag_insert t h, ih]; rfl
  | case3 z b t h ih => rw [epFrom_pass t h, epTag_pass t h, ih]; rfl

/-- R207 item 1: the bytes not inserted are the input. -/
theorem epTag_kept (z : Nat) (s : List Byte) : ((epTag z s).filter (fun e => !e.1)).map Prod.snd = s := by
  induction z, s using epTag.induct with
  | case1 => rfl
  | case2 z b t h ih => rw [epTag_insert t h]; exact congrArg (b :: ·) ih
  | case3 z b t h ih => rw [epTag_pass t h]; exact congrArg (b :: ·) ih

theorem epTag_inserted_eq (z : Nat) (s : List Byte) : ∀ e ∈ epTag z s, e.1 = true → e.2 = 0x03#8 := by
  induction z, s using epTag.induct with
  | case1 => exact nofun
  | case2 z b t h ih =>
    rw [epTag_insert t h, List.forall_mem_cons, List.forall_mem_cons]
    exact ⟨fun _ => rfl, nofun, ih⟩
  | case3 z b t h ih =>
    rw [epTag_pass t h, List.forall_mem_cons]
    exact ⟨nofun, ih⟩

/-- R207 item 2: with the zeros emitted before, no two zeros come before a third byte. -/
theorem epFrom_short {z : Nat} {s : List Byte} (h : z + s.length < 3) : epFrom z s = s := by
  induction s generalizing z with
  | nil => rfl
  | cons b t ih =>
    rw [List.length_cons] at h
    have hrun := zeroRun_le z b
    rw [epFrom_pass t (fun hins => by omega), ih (by omega)]

/-- R207 item 3: de-emulation drops each inserted 03 and, because an input 03 after two zeros has one before it, no other. -/
theorem deEmulateFrom_epFrom (z : Nat) (s : List Byte) : deEmulateFrom z (epFrom z s) = s := by
  induction z, s using epTag.induct with
  | case1 => rfl
  | case2 z b t h ih =>
    rw [epFrom_insert t h, deEmulateFrom_drop _ h.1, deEmulateFrom_keep _ (fun h0 => absurd h0.1 (by decide)), ih]
  | case3 z b t h ih =>
    have hkeep : ¬(2 ≤ z ∧ b = 0x03#8) := fun ⟨hz, hb⟩ => h ⟨hz, by rw [hb]; rfl⟩
    rw [epFrom_pass t h, deEmulateFrom_keep _ hkeep, ih]

/-- R207 item 6: nothing is inserted after the last byte. -/
theorem epFrom_getLast? (z : Nat) (s : List Byte) : (epFrom z s).getLast? = s.getLast? := by
  induction z, s using epTag.induct with
  | case1 => rfl
  | case2 z b t h ih => simp only [epFrom_insert t h, List.getLast?_cons, ih, Option.getD_some]
  | case3 z b t h ih => simp only [epFrom_pass t h, List.getLast?_cons, ih]

/-- R207 item 5: each insertion uses up two zeros, one of which may be the byte that the insertion before it let through. -/
theorem epTag_inserted_count (z : Nat) (s : List Byte) :
    2 * ((epTag z s).filter (fun e => e.1)).length ≤ s.length + z - 1 := by
  induction z, s using epTag.induct with
  | case1 => exact Nat.zero_le _
  | case2 z b t h ih =>
    have hrun := zeroRun_le 0 b
    have hz := h.1
    simp only [epTag_insert t h, List.filter_cons_of_pos, List.filter_cons_of_neg, Bool.false_eq_true, not_false_eq_true,
      List.length_cons]
    omega
  | case3 z b t h ih =>
    have hrun := zeroRun_le z b
    simp only [epTag_pass t h, List.filter_cons_of_neg, Bool.false_eq_true, not_false_eq_true, List.length_cons]
    omega

/-- A 03 is inserted right before an input byte below 4. -/
theorem epTag_after_inserted {z : Nat} {s : List Byte} {k : Nat} {b : Byte} (h : (epTag z s)[k]? = some (true, b)) :
    ∃ c, (epTag z s)[k + 1]? = some (false, c) ∧ c.toNat < 4 := by
  induction z, s using epTag.induct generalizing k with
  | case1 => cases h
  | case2 z c t hins ih =>
    rw [epTag_insert t hins] at h ⊢
    match k, h with
    | 0, _ => exact ⟨c, rfl, (topSixBits_eq_zero_iff c).1 hins.2⟩
    | 1, h => cases h
    | k + 2, h => exact ih h
  | case3 z c t hpass ih =>
    rw [epTag_pass t hpass] at h ⊢
    match k, h with
    | 0, h => cases h
    | k + 1, h => exact ih h

/-! ### The two bytes emitted before a byte -/

/-- A zero of the input, as it is emitted. -/
abbrev keptZero : Bool × Byte := (false, 0x00#8)

/-- What the two bytes emitted before a byte decide of it: after two zeros it is an inserted 03 or is no less than 4, and it is
inserted after two input zeros only. -/
structure EmitsAfter (p q e : Bool × Byte) : Prop where
  guarded  : p.2 = 0x00#8 → q.2 = 0x00#8 →
    e.2 ≠ 0x00#8 ∧ e.2 ≠ 0x01#8 ∧ e.2 ≠ 0x02#8 ∧ (e.2 = 0x03#8 → p.1 = false ∧ q.1 = false ∧ e.1 = true)
  inserted : e.1 = true → p = keptZero ∧ q = keptZero

/-- Every byte of a marked output stands in this relation to the two before it, the first ones to p and q. -/
def EmittedAfter : Bool × Byte → Bool × Byte → List (Bool × Byte) → Prop
  | _, _, [] => True
  | p, q, e :: l => EmitsAfter p q e ∧ EmittedAfter q e l

theorem EmittedAfter.emitsAfter {p q : Bool × Byte} {l : List (Bool × Byte)} (h : EmittedAfter p q l) {k : Nat}
    {e0 e1 e2 : Bool × Byte} (h0 : (p :: q :: l)[k]? = some e0) (h1 : (p :: q :: l)[k + 1]? = some e1)
    (h2 : (p :: q :: l)[k + 2]? = some e2) : EmitsAfter e0 e1 e2 := by
  induction k generalizing p q l with
  | zero =>
    cases l with
    | nil => cases h2
    | cons e l => cases h0; cases h1; cases h2; exact h.1
  | succ k ih =>
    cases l with
    | nil => cases h2
    | cons e l => exact ih h.2 h0 h1 h2

/-- The last two bytes emitted end in a run of exactly z zeros, all of them the input's; R206 keeps z at most 2. -/
inductive EndsInZeros (p q : Bool × Byte) : Nat → Prop where
  | none (hq : q.2 ≠ 0x00#8) : EndsInZeros p q 0
  | one (hp : p.2 ≠ 0x00#8) (hq : q = keptZero) : EndsInZeros p q 1
  | two (hp : p = keptZero) (hq : q = keptZero) : EndsInZeros p q 2

theorem EndsInZeros.of_two_le {p q : Bool × Byte} {z : Nat} (h : EndsInZeros p q z) (hz : 2 ≤ z) :
    p = keptZero ∧ q = keptZero := by
  cases h with
  | none | one => omega
  | two hp hq => exact ⟨hp, hq⟩

theorem EndsInZeros.two_le {p q : Bool × Byte} {z : Nat} (h : EndsInZeros p q z) (hp : p.2 = 0x00#8) (hq : q.2 = 0x00#8) :
    2 ≤ z := by
  cases h with
  | none hne => exact absurd hq hne
  | one hne => exact absurd hp hne
  | two => exact Nat.le_refl 2

/-- A byte that is emitted with no 03 before it lengthens the run or ends it. -/
theorem EndsInZeros.next {p q : Bool × Byte} {z : Nat} {b : Byte} (h : EndsInZeros p q z) (hb : ¬InsertsBefore z b) :
    EndsInZeros q (false, b) (zeroRun z b) := by
  unfold zeroRun
  split
  · rename_i hzero
    subst hzero
    cases h with
    | none hq => exact .one hq rfl
    | one _ hq => exact .two hq rfl
    | two => exact absurd ⟨Nat.le_refl 2, rfl⟩ hb
  · exact .none ‹_›

theorem emitsAfter_inserted : EmitsAfter keptZero keptZero (true, 0x03#8) where
  guarded _ _ := ⟨by decide, by decide, by decide, fun _ => ⟨rfl, rfl, rfl⟩⟩
  inserted _ := ⟨rfl, rfl⟩

theorem emitsAfter_kept {p q : Bool × Byte} {b : Byte} (h : p.2 = 0x00#8 → q.2 = 0x00#8 → ¬b &&& 0xFC#8 = 0#8) :
    EmitsAfter p q (false, b) where
  guarded hp hq := by
    have hb : ∀ c : Byte, c &&& 0xFC#8 = 0#8 → b ≠ c := fun c hc hbc => h hp hq (hbc ▸ hc)
    exact ⟨hb _ rfl, hb _ rfl, hb _ rfl, fun h3 => absurd h3 (hb _ rfl)⟩
  inserted := nofun

/-- R206, R207 item 4: by induction over the input, with the run of zeros that the scan counts. -/
theorem epTag_emittedAfter {p q : Bool × Byte} {z : Nat} {s : List Byte} (h : EndsInZeros p q z) :
    EmittedAfter p q (epTag z s) := by
  induction z, s using epTag.induct generalizing p q with
  | case1 => trivial
  | case2 z b t hins ih =>
    obtain ⟨rfl, rfl⟩ := h.of_two_le hins.1
    rw [epTag_insert t hins]
    have hstop : EndsInZeros keptZero (true, 0x03#8) 0 := .none (by decide)
    have hfresh : ¬InsertsBefore 0 b := fun h0 => absurd h0.1 (by decide)
    exact ⟨emitsAfter_inserted, emitsAfter_kept (fun _ h3 => absurd h3 (by decide)), ih (hstop.next hfresh)⟩
  | case3 z b t hpass ih =>
    rw [epTag_pass t hpass]
    exact ⟨emitsAfter_kept fun hp hq hb => hpass ⟨h.two_le hp hq, hb⟩, ih (h.next hpass)⟩

/-- What stands before the first byte for the scan: a byte that is no zero of the input (R206: the window starts at the first
payload byte). -/
abbrev beforeWindow : Bool × Byte := (true, 0x03#8)

theorem emitted_emittedAfter (s : List Byte) : EmittedAfter beforeWindow beforeWindow (epTag 0 s) :=
  epTag_emittedAfter (.none (by decide))

/-- A 03 is inserted only after two emitted zeros of the input. -/
theorem epTag_before_inserted {s : List Byte} {k : Nat} {b : Byte} (h : (epTag 0 s)[k]? = some (true, b)) :
    2 ≤ k ∧ (epTag 0 s)[k - 2]? = some keptZero ∧ (epTag 0 s)[k - 1]? = some keptZero := by
  have hwindow := emitted_emittedAfter s
  have hlen : k < (epTag 0 s).length := (List.getElem?_eq_some_iff.1 h).1
  match k with
  | 0 => exact absurd ((hwindow.emitsAfter (k := 0) rfl rfl h).inserted rfl).1 (by decide)
  | 1 =>
    have h0 : (epTag 0 s)[0]? = some (epTag 0 s)[0] := List.getElem?_eq_getElem (by omega)
    exact absurd ((hwindow.emitsAfter (k := 1) rfl h0 h).inserted rfl).1 (by decide)
  | k + 2 =>
    have h0 : (epTag 0 s)[k]? = some (epTag 0 s)[k] := List.getElem?_eq_getElem (by omega)
    have h1 : (epTag 0 s)[k + 1]? = some (epTag 0 s)[k + 1] := List.getElem?_eq_getElem (by omega)
    obtain ⟨hp, hq⟩ := (hwindow.emitsAfter (k := k + 2) h0 h1 h).inserted rfl
    exact ⟨by omega, h0.trans (congrArg some hp), h1.trans (congrArg some hq)⟩

/-- Settles O36: by induction over the input, item by item, on the marked output. -/
theorem emulationPreventionProperties : Obligations.EmulationPreventionProperties := by
  intro s
  refine ⟨epTag 0 s, epFrom_eq_map_epTag 0 s, epTag_kept 0 s, epTag_inserted_eq 0 s, fun hlen => epFrom_short (by omega),
    deEmulateFrom_epFrom 0 s, fun k e0 e1 e2 h0 h1 h2 => ?_, fun k b h => ?_, fun _ => ?_, epFrom_getLast? 0 s⟩
  · exact ((emitted_emittedAfter s).emitsAfter (k := k + 2) h0 h1 h2).guarded
  · obtain ⟨hk, hp, hq⟩ := epTag_before_inserted h
    exact ⟨hk, hp, hq, epTag_after_inserted h⟩
  · have hcount := epTag_inserted_count 0 s
    omega

end Sys2Proof.Machine
end

section
/-! NAL headers and the commands that make or emit whole bytes (41_nal.md R201 to R208): header bytes as numbers, NAL_MKHDR,
NAL_START and NAL_EPCOPY. -/

namespace Sys2Proof.Machine

/-! ### Header bytes as numbers (R201, R202) -/

/-- Fields that do not overlap add up. -/
theorem toNat_shiftLeft_or {n : Nat} (x y : BitVec n) {i : Nat} (hx : x.toNat * 2 ^ i < 2 ^ n) (hy : y.toNat < 2 ^ i) :
    (x <<< i ||| y).toNat = x.toNat * 2 ^ i + y.toNat := by
  rw [BitVec.toNat_or, BitVec.toNat_shiftLeft, Nat.shiftLeft_eq, Nat.mod_eq_of_lt hx, ← Nat.shiftLeft_eq,
    Nat.shiftLeft_add_eq_or_of_lt hy]

theorem toNat_avcHdr (t : BitVec 5) (r : BitVec 2) : (avcHdr t r).toNat = r.toNat * 2 ^ 5 + t.toNat := by
  have ht := t.isLt
  have hr := r.isLt
  have htype : (t.setWidth 8).toNat = t.toNat := BitVec.toNat_setWidth_of_le (by decide)
  have hrefs : (r.setWidth 8).toNat = r.toNat := BitVec.toNat_setWidth_of_le (by decide)
  rw [avcHdr, toNat_shiftLeft_or _ _ (by omega) (by omega), htype, hrefs]

theorem toNat_hevcHdr_fst (t lr : BitVec 6) (tid : BitVec 3) :
    (hevcHdr t lr tid).1.toNat = t.toNat * 2 + lr.toNat / 2 ^ 5 := by
  have ht := t.isLt
  have hl := lr.isLt
  have htype : (t.setWidth 8).toNat = t.toNat := BitVec.toNat_setWidth_of_le (by decide)
  have hlayer : (lr.setWidth 8 >>> 5).toNat = lr.toNat / 2 ^ 5 := by
    rw [BitVec.toNat_ushiftRight, BitVec.toNat_setWidth_of_le (by decide), Nat.shiftRight_eq_div_pow]
  rw [hevcHdr, toNat_shiftLeft_or _ _ (by omega) (by omega), htype, hlayer, Nat.pow_one]

theorem toNat_hevcHdr_snd (t lr : BitVec 6) {tid : BitVec 3} (htid : tid.toNat ≤ 6) :
    (hevcHdr t lr tid).2.toNat = lr.toNat % 2 ^ 5 * 2 ^ 3 + (tid.toNat + 1) := by
  have hlayer : (lr.setWidth 8 &&& 31#8).toNat = lr.toNat % 2 ^ 5 := by
    rw [BitVec.toNat_and, BitVec.toNat_setWidth_of_le (by decide)]
    exact Nat.and_two_pow_sub_one_eq_mod lr.toNat 5
  have hplus : (tid.setWidth 8 + 1#8).toNat = tid.toNat + 1 := by
    rw [BitVec.toNat_add, BitVec.toNat_setWidth_of_le (by decide)]
    exact Nat.mod_eq_of_lt (by simp only [BitVec.toNat_ofNat]; omega)
  rw [hevcHdr, toNat_shiftLeft_or _ _ (by omega) (by omega), hlayer, hplus]

/-! ### NAL_MKHDR (R203) -/

theorem toNat_byte_setWidth (b : Byte) : (b.setWidth 32).toNat = b.toNat := BitVec.toNat_setWidth_of_le (by decide)

/-- The answer for a one-byte header: its length in bits 17:16. -/
theorem toNat_oneByteAnswer (b : Byte) : (0x00010000#32 ||| b.setWidth 32).toNat = 2 ^ 16 + b.toNat := by
  have hb := b.isLt
  have h := toNat_shiftLeft_or 1#32 (b.setWidth 32) (i := 16) (by decide) (by rw [toNat_byte_setWidth]; omega)
  rw [toNat_byte_setWidth] at h
  exact h

/-- The answer for a two-byte header: its length in bits 17:16, then the bytes. -/
theorem toNat_twoByteAnswer (b c : Byte) :
    (0x00020000#32 ||| (b.setWidth 32 <<< 8) ||| c.setWidth 32).toNat = 2 * 2 ^ 16 + b.toNat * 2 ^ 8 + c.toNat := by
  have hb := b.isLt
  have hc := c.isLt
  have hhigh : (0x200#32 ||| b.setWidth 32).toNat = 2 * 2 ^ 8 + b.toNat := by
    have h := toNat_shiftLeft_or 2#32 (b.setWidth 32) (i := 8) (by decide) (by rw [toNat_byte_setWidth]; omega)
    rw [toNat_byte_setWidth] at h
    exact h
  have hshift : 0x00020000#32 ||| (b.setWidth 32 <<< 8) = (0x200#32 ||| b.setWidth 32) <<< 8 := by
    rw [BitVec.shiftLeft_or_distrib]
    rfl
  rw [hshift, toNat_shiftLeft_or _ _ (by omega) (by rw [toNat_byte_setWidth]; omega), hhigh, toNat_byte_setWidth]
  omega

theorem avcHeaderOk_iff (type rl : BitVec 6) (tid : BitVec 3) :
    avcHeaderOk type rl tid = true ↔ type.toNat ≤ 31 ∧ rl.toNat ≤ 3 ∧ tid.toNat = 0 := by
  rw [avcHeaderOk, decide_eq_true_iff, ← BitVec.toNat_inj]
  rfl

theorem hevcHeaderOk_iff (tid : BitVec 3) : hevcHeaderOk tid = true ↔ tid.toNat ≤ 6 := decide_eq_true_iff

section
variable {s : State} {type rl : BitVec 6} {tid : BitVec 3}

theorem exec_nalMkhdr_other (hc : s.cfgCodec = .other) :
    exec (.nalMkhdr type rl tid) s = raise (.nalMkhdr type rl tid) .unsupported s := by
  rw [exec, execNalMkhdr, hc]

theorem exec_nalMkhdr_avc (hc : s.cfgCodec = .avc) : exec (.nalMkhdr type rl tid) s =
    if avcHeaderOk type rl tid then
      completeWith (0x00010000#32 ||| (avcHdr (type.setWidth 5) (rl.setWidth 2)).setWidth 32) s
    else raise (.nalMkhdr type rl tid) .operandRange s := by
  rw [exec, execNalMkhdr, hc]

theorem exec_nalMkhdr_hevc (hc : s.cfgCodec = .hevc) : exec (.nalMkhdr type rl tid) s =
    if hevcHeaderOk tid then
      completeWith (0x00020000#32 ||| ((hevcHdr type rl tid).1.setWidth 32 <<< 8) |||
        (hevcHdr type rl tid).2.setWidth 32) s
    else raise (.nalMkhdr type rl tid) .operandRange s := by
  rw [exec, execNalMkhdr, hc]

end

/-- Settles O34: by the codec, then by the operand check that depends on it. -/
theorem makeHeaderAnswers : Obligations.MakeHeaderAnswers := by
  refine fun s type rl tid => ⟨exec_nalMkhdr_other, fun hc => ⟨fun htype hrl htid => ?_, fun hbad => ?_⟩,
    fun hc => ⟨fun htid => ?_, fun htid => ?_⟩⟩
  · have hok := (avcHeaderOk_iff type rl tid).2 ⟨htype, hrl, htid⟩
    refine ⟨_, ?_, (exec_nalMkhdr_avc hc).trans (if_pos hok)⟩
    rw [toNat_oneByteAnswer, toNat_avcHdr, BitVec.toNat_setWidth, BitVec.toNat_setWidth]
    omega
  · have hno : ¬avcHeaderOk type rl tid = true := by
      rw [avcHeaderOk_iff]
      omega
    exact (exec_nalMkhdr_avc hc).trans (if_neg hno)
  · refine ⟨_, ?_, (exec_nalMkhdr_hevc hc).trans (if_pos ((hevcHeaderOk_iff tid).2 htid))⟩
    rw [toNat_twoByteAnswer, toNat_hevcHdr_fst, toNat_hevcHdr_snd type rl htid]
    omega
  · have hno : ¬hevcHeaderOk tid = true := by
      rw [hevcHeaderOk_iff]
      omega
    exact (exec_nalMkhdr_hevc hc).trans (if_neg hno)

/-! ### NAL_START (R204, R205) -/

/-- R205, R215: only a one-byte header restricts HDR. -/
theorem nalHeaderOk_of_lt {hl : HdrLen} {hdr : BitVec 16} (h : hl = .one → hdr.toNat < 256) : nalHeaderOk hl hdr = true := by
  cases hl with
  | one =>
    have hlow := h rfl
    refine decide_eq_true (BitVec.eq_of_toNat_eq ?_)
    rw [BitVec.extractLsb'_toNat, Nat.shiftRight_eq_div_pow, Nat.div_eq_of_lt hlow]
    rfl
  | two => rfl

theorem nalHeaderBytes_one (hdr : BitVec 16) : nalHeaderBytes .one hdr = [BitVec.ofNat 8 hdr.toNat] := rfl

theorem nalHeaderBytes_two (hdr : BitVec 16) :
    nalHeaderBytes .two hdr = [BitVec.ofNat 8 (hdr.toNat / 256), BitVec.ofNat 8 hdr.toNat] := by
  rw [nalHeaderBytes, BitVec.extractLsb', BitVec.extractLsb', Nat.shiftRight_eq_div_pow]
  rfl

theorem startCode_eq {sc : ScLen} {bs : List Byte} (hfour : sc = .four → bs = [0x00#8, 0x00#8, 0x00#8, 0x01#8])
    (hthree : sc = .three → bs = [0x00#8, 0x00#8, 0x01#8]) : startCode sc = bs := by
  cases sc with
  | three => exact (hthree rfl).symm
  | four => exact (hfour rfl).symm

theorem WriterReady.exec_nalStart_runs {s : State} {w : WriterId} (h : WriterReady s w) {hl : HdrLen} {hdr : BitVec 16}
    (hok : nalHeaderOk hl hdr = true) : ∃ t, exec (.nalStart w hl hdr) s = .next t ∧
      WriterRuns (emitOps (startCode s.cfgScLen ++ nalHeaderBytes hl hdr)) w s.res s t :=
  h.writerCommand_runs _ (emitBytes_eq _ _) hok

/-- Settles O35: NAL_START is a writer command whose effect is emitting the start code and the header bytes. -/
theorem startCodeAndHeaderEmitted : Obligations.StartCodeAndHeaderEmitted := by
  intro s w hdr sc h hfour hthree
  rw [← startCode_eq hfour hthree, ← nalHeaderBytes_two, ← nalHeaderBytes_one]
  exact ⟨fun hlow => h.exec_nalStart_runs (nalHeaderOk_of_lt fun _ => hlow), h.exec_nalStart_runs rfl⟩

/-! ### NAL_EPCOPY (R208) -/

/-- Settles O37: a valid writer and an admitted source leave the emitted bytes, taken from memory as it was. -/
theorem epcopyEmits : Obligations.EpcopyEmits := by
  intro s w src n h hadmitted
  refine ⟨_, ?_, h.runs _ _⟩
  rw [exec, execNalEpcopy, if_pos h.valid, (admitFail_eq_none_iff _ _ _).2 hadmitted]
  simp only [completeWith, complete, emitBytes_eq, withStream_cmdSeq]

end Sys2Proof.Machine
end

section
/-! NAL_FILLER (41_nal.md R212 to R215): the landed bytes as a count over its operations, and the NAL unit's bytes in memory at a
byte boundary. -/

namespace Sys2Proof.Machine

/-! ### Landed bytes (R212, R214) -/

theorem landedBytes_fillerRun (head : List Byte) (budget : Nat) (df : Bool) (x : Stream) :
    landedBytes x (fillerRun head budget df x) = if x.1.ovf then 0 else
      ((firstRejected (fillerOps head budget df x.1) x.1).getD (x.1.bitCnt + opsSize (fillerOps head budget df x.1)) -
        x.1.bitCnt) / 8 := by
  rw [landedBytes, fillerRun_firstRej, fillerRun_stream, runOps_bitCnt]
  cases firstRejected (fillerOps head budget df x.1) x.1 <;> rfl

theorem exec_nalFiller {s : State} {w : WriterId} {hl : HdrLen} {hdr : BitVec 16} (df : Bool) (budget : Word)
    (hok : nalHeaderOk hl hdr = true) (hv : (s.writer w).valid = true) :
    let head := startCode s.cfgScLen ++ nalHeaderBytes hl hdr
    exec (.nalFiller w hl hdr df budget) s = .next
      { s.withStream w (runOps (fillerOps head budget.toNat df (writerView (s.writer w))) (s.stream w)) with
        res := BitVec.ofNat 32 (landedBytes (s.stream w) (fillerRun head budget.toNat df (s.stream w)))
        cmdSeq := s.cmdSeq + 1#32 } := by
  rw [exec, execNalFiller, if_pos hok, if_pos hv]
  simp only [completeWith, complete, fillerRun_stream, withStream_cmdSeq]
  rfl

/-- Settles O38: by Filler as a sequence of operations. -/
theorem fillerRunsItsOperations : Obligations.FillerRunsItsOperations := by
  intro s w hl hdr df budget h hlow head ops last
  refine ⟨_, exec_nalFiller df budget (nalHeaderOk_of_lt hlow) h.valid, ?_⟩
  have hres : BitVec.ofNat 32 (landedBytes (s.stream w) (fillerRun head budget.toNat df (s.stream w))) =
      if (s.writer w).ovf then 0#32 else BitVec.ofNat 32 ((last - (s.writer w).bitCnt) / 8) := by
    rw [landedBytes_fillerRun]
    exact apply_ite (BitVec.ofNat 32) _ _ _
  rw [← hres]
  exact h.runs ops _

/-! ### Moving on by whole bytes -/

theorem AlignedRoom.advance {wr : BitWriter} {k n : Nat} (h : AlignedRoom wr (k + n)) :
    AlignedRoom { wr with bitCnt := wr.bitCnt + 8 * k } n := by
  obtain ⟨hclear, haligned, hroom⟩ := h
  exact ⟨hclear, by simp only; omega, by simp only; omega⟩

theorem AlignedRoom.mono {wr : BitWriter} {k n : Nat} (h : AlignedRoom wr n) (hk : k ≤ n) : AlignedRoom wr k :=
  ⟨h.clear, h.aligned, by have := h.room; omega⟩

theorem nextByte_advance (wr : BitWriter) (k : Nat) :
    nextByte { wr with bitCnt := wr.bitCnt + 8 * k } = nextByte wr + k := by
  simp only [nextByte]
  omega

theorem skipBits_aligned {k n : Nat} {x : Stream} (h : AlignedRoom x.1 (k + n)) :
    skipBits (8 * k) x = ({ x.1 with bitCnt := x.1.bitCnt + 8 * k }, x.2) := by
  have hroom := h.room
  have hfits : ¬x.1.maxBits < x.1.bitCnt + 8 * k := by omega
  rw [skipBits, decide_eq_false hfits, Bool.or_false]

theorem streamOk_runOps (ops : List StreamOp) {x : Stream} (h : StreamOk x) : StreamOk (runOps ops x) where
  memory := wf_runOps ops x h.memory
  space := by rw [runOps_base, runOps_maxBits]; exact h.space

/-- Bytes emitted, bytes skipped and bytes emitted again, at a byte boundary with room for them all. -/
theorem emit_skip_emit_aligned (a b : List Byte) (k : Nat) {x : Stream} (h : StreamOk x)
    (hr : AlignedRoom x.1 (a.length + (k + b.length))) :
    let y := runOps (emitOps a ++ .skip (8 * k) :: emitOps b) x
    y.1 = { x.1 with bitCnt := x.1.bitCnt + 8 * (a.length + k + b.length) } ∧
      readBytes y.2 (nextByte x.1) a.length = a ∧ readBytes y.2 (nextByte x.1 + a.length + k) b.length = b ∧
      ∀ c, (c < nextByte x.1 ∨ nextByte x.1 + a.length ≤ c) →
        (c < nextByte x.1 + a.length + k ∨ nextByte x.1 + a.length + k + b.length ≤ c) →
        readByte y.2 c = readByte x.2 c := by
  intro y
  obtain ⟨hread1, hsame1, hwriter1⟩ := emitBytes_aligned a x h (hr.mono (Nat.le_add_right _ _))
  have hok1 := streamOk_runOps (emitOps a) h
  set x1 := runOps (emitOps a) x
  have hr1 : AlignedRoom x1.1 (k + b.length) := hwriter1 ▸ hr.advance
  have hskip := skipBits_aligned hr1
  have hok2 := streamOk_run (.skip (8 * k)) x1 hok1
  have hr2 : AlignedRoom (skipBits (8 * k) x1).1 b.length := by rw [hskip]; exact hr1.advance
  obtain ⟨hread2, hsame2, hwriter2⟩ := emitBytes_aligned b (skipBits (8 * k) x1) hok2 hr2
  have hy : y = runOps (emitOps b) (skipBits (8 * k) x1) := runOps_append _ _ _
  have hnext : nextByte (skipBits (8 * k) x1).1 = nextByte x.1 + a.length + k := by
    rw [hskip, nextByte_advance, hwriter1, nextByte_advance]
  rw [hnext] at hread2 hsame2
  rw [skipBits_mem] at hsame2
  rw [hy]
  refine ⟨?_, ?_, hread2, fun c hc1 hc2 => (hsame2 c hc2).trans (hsame1 c hc1)⟩
  · rw [hwriter2, hskip, hwriter1]
    simp only [BitWriter.mk.injEq, true_and, and_true]
    omega
  · rw [readBytes_congr x1.2 _ _ _ fun i hi => hsame2 _ (.inl (by omega)), hread1]

/-! ### The NAL unit's length and operations -/

/-- The bytes of a filler NAL unit with a head of h bytes at a byte boundary that has room for it: the budget, clipped to the
capacity, and at least the head and the final 80 (R212). -/
def fillerLen (h budget : Nat) (wr : BitWriter) : Nat := max (h + 1) (min budget ((wr.maxBits - wr.bitCnt) / 8))

section
variable {head : List Byte} {budget : Nat} {wr : BitWriter} (hr : AlignedRoom wr (head.length + 1))

include hr

theorem AlignedRoom.wholeUnit : AlignedRoom wr (fillerLen head.length budget wr) := by
  obtain ⟨hclear, haligned, hroom⟩ := hr
  refine ⟨hclear, haligned, ?_⟩
  unfold fillerLen
  omega

theorem fill_eq : min (budget - head.length) ((wr.maxBits - (wr.bitCnt + 8 * head.length)) / 8) - 1 =
    fillerLen head.length budget wr - head.length - 1 := by
  have hroom := hr.room
  unfold fillerLen
  omega

theorem fillerOps_fill : fillerOps head budget false wr =
    emitOps (head ++ List.replicate (fillerLen head.length budget wr - head.length - 1) 0xFF#8 ++ [0x80#8]) := by
  rw [fillerOps, fill_eq hr, emitOps_append, emitOps_append]
  rfl

/-- R213: with no room to fill, the two forms are one. -/
theorem fillerOps_unfilled (hn : fillerLen head.length budget wr = head.length + 1) (df : Bool) :
    fillerOps head budget df wr = emitOps (head ++ [0x80#8]) := by
  rw [fillerOps, fill_eq hr, hn, Nat.add_sub_cancel_left, emitOps_append]
  cases df <;> exact congrArg (· ++ _) (List.append_nil _)

theorem fillerOps_dontFill (hn : head.length + 1 < fillerLen head.length budget wr) : fillerOps head budget true wr =
    emitOps (head ++ [0xFF#8]) ++
      .skip (8 * (fillerLen head.length budget wr - (head.length + 2))) :: emitOps [0x80#8] := by
  have hmark : 1 ≤ fillerLen head.length budget wr - head.length - 1 := by omega
  rw [fillerOps, fill_eq hr, if_pos rfl, if_pos hmark, Nat.sub_sub, Nat.sub_sub, emitOps_append, List.append_assoc,
    List.append_assoc]
  rfl

end

/-! ### The NAL unit in memory -/

/-- What a filler NAL unit of n bytes that begins at a writer's next byte leaves, in its two forms (R212, R213). -/
structure FillerUnit (head : List Byte) (df : Bool) (n : Nat) (x y : Stream) : Prop where
  writer   : y.1 = { x.1 with bitCnt := x.1.bitCnt + 8 * n }
  outside  : SameOutside x.2 y.2 (nextByte x.1) n
  filled   : df = false → readBytes y.2 (nextByte x.1) n = head ++ List.replicate (n - head.length - 1) 0xFF#8 ++ [0x80#8]
  dontFill : df = true → readBytes y.2 (nextByte x.1) head.length = head ∧
    readByte y.2 (nextByte x.1 + (n - 1)) = 0x80#8 ∧
    (head.length + 1 < n → readByte y.2 (nextByte x.1 + head.length) = 0xFF#8) ∧
    ∀ k, head.length + 1 ≤ k → k + 1 < n → readByte y.2 (nextByte x.1 + k) = readByte x.2 (nextByte x.1 + k)

theorem readBytes_succ (m : Memory) (a n : Nat) : readBytes m a (n + 1) = readBytes m a n ++ [readByte m (a + n)] := by
  induction n generalizing a with
  | zero => rfl
  | succ n ih => rw [readBytes, ih, readBytes, Nat.add_right_comm, Nat.add_assoc]; rfl

/-- Reading bytes and one more. -/
theorem readBytes_eq_concat {m : Memory} {a : Nat} {bs : List Byte} {b : Byte}
    (h : readBytes m a (bs ++ [b]).length = bs ++ [b]) :
    readBytes m a bs.length = bs ∧ readByte m (a + bs.length) = b := by
  rw [List.length_append, List.length_singleton, readBytes_succ] at h
  obtain ⟨hinit, hlast⟩ := List.append_inj h (length_readBytes _ _ _)
  exact ⟨hinit, List.singleton_inj.1 hlast⟩

section
variable {head : List Byte} {budget : Nat} {x : Stream} (h : StreamOk x) (hr : AlignedRoom x.1 (head.length + 1))

include h hr

theorem fillerUnit_fill : FillerUnit head false (fillerLen head.length budget x.1) x
    (runOps (fillerOps head budget false x.1) x) := by
  have hlen : (head ++ List.replicate (fillerLen head.length budget x.1 - head.length - 1) 0xFF#8 ++ [0x80#8]).length =
      fillerLen head.length budget x.1 := by
    have hmin : head.length + 1 ≤ fillerLen head.length budget x.1 := le_max_left _ _
    simp only [List.length_append, List.length_replicate, List.length_singleton]
    omega
  rw [fillerOps_fill hr]
  obtain ⟨hread, hsame, hwriter⟩ := emitBytes_aligned _ x h (by rw [hlen]; exact hr.wholeUnit)
  rw [hlen] at hread hsame hwriter
  exact ⟨hwriter, hsame, fun _ => hread, nofun⟩

/-- No fill byte fits: the head and the final 80. -/
theorem fillerUnit_unfilled (hn : fillerLen head.length budget x.1 = head.length + 1) :
    FillerUnit head true (fillerLen head.length budget x.1) x (runOps (fillerOps head budget true x.1) x) := by
  rw [fillerOps_unfilled hr hn, hn]
  obtain ⟨hread, hsame, hwriter⟩ := emitBytes_aligned (head ++ [0x80#8]) x h (by rwa [List.length_append])
  obtain ⟨hhead, hlast⟩ := readBytes_eq_concat hread
  rw [List.length_append] at hsame hwriter
  exact ⟨hwriter, hsame, nofun, fun _ => ⟨hhead, hlast, fun hlt => by omega, fun k _ _ => by omega⟩⟩

/-- The marker, the skipped bytes and the final 80. -/
theorem fillerUnit_dontFill (hn : head.length + 1 < fillerLen head.length budget x.1) :
    FillerUnit head true (fillerLen head.length budget x.1) x (runOps (fillerOps head budget true x.1) x) := by
  have hroom := hr.wholeUnit (budget := budget)
  rw [fillerOps_dontFill hr hn]
  set n := fillerLen head.length budget x.1
  have hlen : (head ++ [0xFF#8]).length = head.length + 1 := by rw [List.length_append, List.length_singleton]
  have hparts : (head ++ [0xFF#8]).length + (n - (head.length + 2) + [0x80#8].length) = n := by
    rw [hlen, List.length_singleton]; omega
  obtain ⟨hwriter, hmarked, hlast, hkept⟩ :=
    emit_skip_emit_aligned (head ++ [0xFF#8]) [0x80#8] (n - (head.length + 2)) h (by rw [hparts]; exact hroom)
  obtain ⟨hhead, hmark⟩ := readBytes_eq_concat hmarked
  rw [Nat.add_assoc (head ++ [0xFF#8]).length, hparts] at hwriter
  rw [hlen, List.length_singleton] at hkept
  rw [hlen] at hlast
  have hend : nextByte x.1 + (head.length + 1) + (n - (head.length + 2)) = nextByte x.1 + (n - 1) := by omega
  rw [hend] at hlast hkept
  refine ⟨hwriter, fun c hc => hkept c (by omega) (by omega), nofun,
    fun _ => ⟨hhead, List.singleton_inj.1 hlast, fun _ => hmark, fun k hk1 hk2 => hkept _ (by omega) (by omega)⟩⟩

theorem fillerUnit_lands (df : Bool) : FillerUnit head df (fillerLen head.length budget x.1) x
    (runOps (fillerOps head budget df x.1) x) := by
  cases df with
  | false => exact fillerUnit_fill h hr
  | true =>
    rcases Nat.eq_or_lt_of_le (le_max_left (head.length + 1) _ : _ ≤ fillerLen head.length budget x.1) with hn | hn
    · exact fillerUnit_unfilled h hr hn.symm
    · exact fillerUnit_dontFill h hr hn

/-- With room for it all, every byte of the NAL unit lands (R214). -/
theorem landedBytes_fillerUnit (df : Bool) :
    landedBytes x (fillerRun head budget df x) = fillerLen head.length budget x.1 := by
  have hunit := (fillerUnit_lands (budget := budget) h hr df).writer
  have hsize : opsSize (fillerOps head budget df x.1) = 8 * fillerLen head.length budget x.1 := by
    have hcount := congrArg BitWriter.bitCnt hunit
    rw [runOps_bitCnt] at hcount
    exact Nat.add_left_cancel hcount
  have hroom := (hr.wholeUnit (budget := budget)).room
  rw [landedBytes_fillerRun, hr.clear, firstRejected_fits _ _ hr.clear (by rwa [hsize]), hsize]
  simp only [Bool.false_eq_true, if_false, Option.getD_none]
  omega

end

/-- Settles O39: by the NAL unit that Filler's operations leave on the writer's stream. -/
theorem fillerBytesInMemory : Obligations.FillerBytesInMemory := by
  intro s w hl hdr df budget h hlow head len at0 n hr
  have hunit := fillerUnit_lands (budget := budget.toNat) h.streamOk hr df
  refine ⟨_, exec_nalFiller df budget (nalHeaderOk_of_lt hlow) h.valid,
    congrArg (BitVec.ofNat 32) (landedBytes_fillerUnit h.streamOk hr df), ?_, ?_, hunit.outside, hunit.filled, hunit.dontFill⟩
  · exact (congrArg HostWriter.bitCnt (withStream_writer_same s w _)).trans (congrArg BitWriter.bitCnt hunit.writer)
  · exact (congrArg HostWriter.ovf (withStream_writer_same s w _)).trans
      ((congrArg BitWriter.ovf hunit.writer).trans hr.clear)

end Sys2Proof.Machine
end

section
/-! SEC_ADDSEI where it can be placed (41_nal.md R209, R210, 42_sections.md R274 to R277): its NAL unit, the tests of its place,
and what the commit leaves. -/

namespace Sys2Proof.Machine

/-! ### The NAL unit (R209, R210, R274) -/

theorem addSeiHeader_eq {s : State} (sfx : Bool) (hc : s.cfgCodec ≠ .other) : addSeiHeader s sfx =
    if s.cfgCodec = .avc then [0x06#8]
    else [if sfx then 0x50#8 else 0x4E#8, BitVec.ofNat 8 (s.lastTid.toNat + 1)] := by
  cases hcodec : s.cfgCodec with
  | avc => rw [addSeiHeader, hcodec]; rfl
  | hevc =>
    simp only [addSeiHeader, hcodec, hevcHdrBytes_baseLayer]
    cases sfx <;> rfl
  | other => exact absurd hcodec hc

theorem addSeiBytes_eq {s : State} (sfx : Bool) (ptype : BitVec 16) (p : List Byte) (hc : s.cfgCodec ≠ .other) :
    addSeiBytes s sfx ptype p = startCode s.cfgScLen ++
      (if s.cfgCodec = .avc then [0x06#8]
        else [if sfx then 0x50#8 else 0x4E#8, BitVec.ofNat 8 (s.lastTid.toNat + 1)]) ++
      emulationPrevent (List.replicate (ptype.toNat / 255) 0xFF#8 ++ [BitVec.ofNat 8 (ptype.toNat % 255)] ++
        List.replicate (p.length / 255) 0xFF#8 ++ [BitVec.ofNat 8 (p.length % 255)] ++ p ++ [0x80#8]) := by
  rw [addSeiBytes, nalBytes, seiMsg_eq, addSeiHeader_eq sfx hc]

/-! ### The place (R275 to R277) -/

theorem addSeiFits_iff (s : State) (sfx : Bool) (len : Nat) : addSeiFits s sfx len = true ↔
    (addSeiPlace s sfx).2 + len ≤ addSeiLimit s sfx ∧ s.sections.length ≠ s.params.maxSections.toNat ∧
      ∀ x ∈ s.sections, ¬(0 < (sectionSpan x).len ∧
        overlaps { off := (addSeiPlace s sfx).2, len := len } (sectionSpan x) = true) := by
  simp only [addSeiFits, tableSpans, Bool.and_eq_true, decide_eq_true_eq, Bool.not_eq_true',
    List.any_map, List.any_eq_false, Function.comp_apply, and_assoc]

/-- A section that is empty, or that lies before or after a range, shares no byte with it. -/
theorem not_overlaps_of_beside {x : Section} {off len : Nat}
    (h : x.length = 0#32 ∨ off + len ≤ x.offset.toNat ∨ x.offset.toNat + x.length.toNat ≤ off) :
    ¬(0 < (sectionSpan x).len ∧ overlaps { off := off, len := len } (sectionSpan x) = true) := by
  rintro ⟨hpos, hover⟩
  rw [overlaps, decide_eq_true_iff] at hover
  simp only [sectionSpan] at hpos hover
  rcases h with hempty | hbeside
  · rw [hempty] at hpos
    exact absurd hpos (by decide)
  · omega

theorem exec_secAddsei_placed {s : State} {sfx : Bool} {ptype : BitVec 16} {src size : Word} (hv : s.sbValid = true)
    (hc : s.cfgCodec ≠ .other) (hcodec : ¬(sfx = true ∧ s.cfgCodec = .avc)) (ha : Admitted s.memMap src.toNat size.toNat)
    {nb : List Byte} (hnb : addSeiBytes s sfx ptype (readBytes s.mem src.toNat size.toNat) = nb)
    (hfits : addSeiFits s sfx nb.length = true) :
    exec (.secAddsei sfx ptype src size) s = .next { addSeiCommit s sfx nb with
      res := BitVec.ofNat 32 (addSeiPlace s sfx).1, cmdSeq := s.cmdSeq + 1#32 } := by
  rw [exec, execSecAddsei, if_pos hv, if_neg hc, (admitFail_eq_none_iff _ _ _).2 ha]
  simp only [hnb, if_neg hcodec, if_pos hfits]
  rfl

/-! ### The commit (R274) -/

/-- R250: a bound stream buffer ends in the address space. -/
theorem StreamBufferOk.end_le {s : State} (h : StreamBufferOk s) (hv : s.sbValid = true) :
    s.sbBase.toNat + s.sbCap.toNat ≤ addressSpace := by
  rcases Nat.eq_zero_or_pos s.sbCap.toNat with hempty | hbytes
  · rw [hempty]; exact s.sbBase.isLt.le
  · exact (h.admitted hv).le_space hbytes

theorem addSeiCommit_sections (s : State) (sfx : Bool) (nb : List Byte) : (addSeiCommit s sfx nb).sections =
    s.sections.take (addSeiPlace s sfx).1 ++
      { offset := BitVec.ofNat 32 (addSeiPlace s sfx).2, length := BitVec.ofNat 32 nb.length,
        flags := if sfx then 0x10#32 else 0x0A#32 } :: s.sections.drop (addSeiPlace s sfx).1 := by
  cases sfx <;> rfl

/-- R274: SB_HDRCUR moves to the end of the NAL unit, where that lies past it. -/
theorem addSeiCommit_sbHdrCur {s : State} {nb : List Byte} (hend : (addSeiPlace s false).2 + nb.length ≤ s.sbCap.toNat) :
    (addSeiCommit s false nb).sbHdrCur.toNat = max s.sbHdrCur.toNat ((addSeiPlace s false).2 + nb.length) := by
  have hcur := s.sbHdrCur.isLt
  have hcap := s.sbCap.isLt
  exact (BitVec.toNat_ofNat _ _).trans (Nat.mod_eq_of_lt (by omega))

/-- Settles O52: the tests of R277 pass, so the commit is the command's effect. -/
theorem seiInserted : Obligations.SeiInserted := by
  intro s sfx ptype src size hw hsb hv hc hcodec ha msg hb nb pos off limit hlimit hroom hbeside
  have hnb : addSeiBytes s sfx ptype (readBytes s.mem src.toNat size.toNat) = nb := addSeiBytes_eq sfx ptype _ hc
  have hfits : addSeiFits s sfx nb.length = true :=
    (addSeiFits_iff _ _ _).2 ⟨hlimit, hroom, fun x hx => not_overlaps_of_beside (hbeside x hx)⟩
  have hend := addSei_inside hfits
  have hspace := hsb.end_le hv
  refine ⟨_, exec_secAddsei_placed hv hc hcodec ha hnb hfits, rfl, addSeiCommit_sections s sfx nb, ?_, ?_,
    readBytes_writeBytes nb s.mem _ hw (by omega), fun a => readByte_writeBytes_outside nb s.mem _ a⟩
  · rintro rfl; rfl
  · rintro rfl; exact addSeiCommit_sbHdrCur hend

end Sys2Proof.Machine
end

section
/-! CheckPlan decided (42_sections.md R251), and the commands that bind the buffer and add one section to the table (R250,
R252, R253). -/

namespace Sys2Proof.Machine

/-! ### CheckPlan (R251) -/

section
variable {s : State} {plan : List Span}

theorem checkPlan_sectionFull (h : s.params.maxSections.toNat < s.sections.length + plan.length) :
    checkPlan s plan = some .sectionFull := if_pos h

section
variable (hroom : s.sections.length + plan.length ≤ s.params.maxSections.toNat)
include hroom

theorem checkPlan_fits (h : PlanFits s.sbCap.toNat (tableSpans s.sections) plan) : checkPlan s plan = none := by
  rw [checkPlan, if_neg (Nat.not_lt.2 hroom), if_pos ((rangesOk_table_iff _ _ _).2 h)]

theorem checkPlan_sectionRange (h : ¬PlanFits s.sbCap.toNat (tableSpans s.sections) plan) :
    checkPlan s plan = some .sectionRange := by
  rw [checkPlan, if_neg (Nat.not_lt.2 hroom), if_neg (mt (rangesOk_table_iff _ _ _).1 h)]

end

theorem checkPlan_eq_none_iff : checkPlan s plan = none ↔
    s.sections.length + plan.length ≤ s.params.maxSections.toNat ∧
      PlanFits s.sbCap.toNat (tableSpans s.sections) plan := by
  refine ⟨fun h => ?_, fun ⟨hroom, hfits⟩ => checkPlan_fits hroom hfits⟩
  have hroom : s.sections.length + plan.length ≤ s.params.maxSections.toNat := by
    by_contra hfull
    rw [checkPlan_sectionFull (Nat.not_le.1 hfull)] at h
    cases h
  refine ⟨hroom, ?_⟩
  by_contra hrange
  rw [checkPlan_sectionRange hroom hrange] at h
  cases h

end

/-- Settles O41: the count is tested first, then the ranges. -/
theorem checkPlanDecides : Obligations.CheckPlanDecides :=
  fun _ _ => ⟨checkPlan_sectionFull, fun hroom => ⟨checkPlan_fits hroom, checkPlan_sectionRange hroom⟩⟩

/-! ### SEC_ATTACH (R250) -/

/-- Settles O40: by what admission answers for the buffer's range. -/
theorem secAttachBinds : Obligations.SecAttachBinds := by
  refine fun s base cap => ⟨fun hadmitted => ?_, fun b hfailing => ?_⟩
  · rw [exec, execSecAttach, (admitFail_eq_none_iff _ _ _).2 hadmitted]
    rfl
  · rw [exec, execSecAttach, (admitFail_eq_some_iff _ _ _ _).2 hfailing]

/-! ### SEC_ADD (R252, R253) -/

theorem sectionFlagsOk_iff (flags : Word) : sectionFlagsOk flags = true ↔ flags.toNat < 64 := by
  rw [sectionFlagsOk, decide_eq_true_iff, ← BitVec.toNat_inj, toNat_extractLsb', BitVec.toNat_ofNat]
  omega

/-- Sections are disjoint when their ranges share no byte. -/
theorem apart_sectionSpan_iff (x y : Section) : Span.Apart (sectionSpan x) (sectionSpan y) ↔ Section.Disjoint x y := by
  have hzero : ∀ v : Word, v.toNat = 0 ↔ v = 0#32 := fun v => BitVec.toNat_inj (y := 0#32)
  simp only [Span.Apart, Section.Disjoint, sectionSpan, hzero]

theorem planFits_singleton (s : State) (x : Section) : PlanFits s.sbCap.toNat (tableSpans s.sections) [sectionSpan x] ↔
    x.offset.toNat + x.length.toNat ≤ s.sbCap.toNat ∧ ∀ y ∈ s.sections, Section.Disjoint x y := by
  simp only [← apart_sectionSpan_iff]
  refine ⟨fun h => ⟨h.inside _ List.mem_cons_self, fun y hy => h.apart _ List.mem_cons_self _ (List.mem_map_of_mem hy)⟩,
    fun ⟨hinside, hapart⟩ => ⟨?_, ?_, List.pairwise_singleton _ _⟩⟩
  · exact List.forall_mem_singleton.2 hinside
  · simpa only [List.forall_mem_singleton, tableSpans, List.forall_mem_map] using hapart

section
variable {s : State} {offset length flags : Word} (hflags : flags.toNat < 64)
include hflags

theorem exec_secAdd_notInitialised (hv : s.sbValid = false) :
    exec (.secAdd offset length flags) s = raise (.secAdd offset length flags) .notInitialised s := by
  rw [exec, execSecAdd, if_pos ((sectionFlagsOk_iff _).2 hflags), hv, if_neg Bool.false_ne_true]

theorem exec_secAdd_raises (hv : s.sbValid = true) {c : FaultCause}
    (hc : checkPlan s [{ off := offset.toNat, len := length.toNat }] = some c) :
    exec (.secAdd offset length flags) s = raise (.secAdd offset length flags) c s := by
  rw [exec, execSecAdd, if_pos ((sectionFlagsOk_iff _).2 hflags), if_pos hv, hc]

theorem exec_secAdd_appends (hv : s.sbValid = true)
    (hc : checkPlan s [{ off := offset.toNat, len := length.toNat }] = none) :
    exec (.secAdd offset length flags) s = .next { s with
      sections := s.sections ++ [{ offset := offset, length := length, flags := flags }],
      res := BitVec.ofNat 32 s.sections.length, cmdSeq := s.cmdSeq + 1#32 } := by
  rw [exec, execSecAdd, if_pos ((sectionFlagsOk_iff _).2 hflags), if_pos hv, hc]
  rfl

end

theorem exec_secAdd_operandRange {s : State} {offset length flags : Word} (hflags : 64 ≤ flags.toNat) :
    exec (.secAdd offset length flags) s = raise (.secAdd offset length flags) .operandRange s := by
  rw [exec, execSecAdd, if_neg (mt (sectionFlagsOk_iff _).1 (Nat.not_lt.2 hflags))]

/-- Settles O42: by CheckPlan on a plan of one section. -/
theorem secAddAppends : Obligations.SecAddAppends := by
  refine fun s offset length flags => ⟨exec_secAdd_operandRange, exec_secAdd_notInitialised,
    fun hflags hv hfull => ?_, fun hflags hv hroom => ?_⟩
  · exact exec_secAdd_raises hflags hv (checkPlan_sectionFull (Nat.lt_succ_of_le hfull))
  · have hfits := planFits_singleton s { offset := offset, length := length, flags := flags }
    refine ⟨fun hbad => exec_secAdd_raises hflags hv (checkPlan_sectionRange hroom fun h => ?_), fun hinside hdisjoint =>
      ⟨_, exec_secAdd_appends hflags hv (checkPlan_fits hroom (hfits.2 ⟨hinside, hdisjoint⟩)), rfl, ?_⟩⟩
    · obtain ⟨hinside, hdisjoint⟩ := hfits.1 h
      rcases hbad with hpast | ⟨x, hx, hoverlap⟩
      · exact absurd hinside (Nat.not_le.2 hpast)
      · exact hoverlap (hdisjoint x hx)
    · simp only [bitstream, List.flatMap_append, List.flatMap_singleton]

end Sys2Proof.Machine
end

section
/-! The plan of a picture (42_sections.md R255, R264 to R267): which configuration items are placed and where, the filler
section, and the sentinel. -/

namespace Sys2Proof.Machine

/-! ### Placing the configuration items (R264) -/

section
variable (sc : ScLen) (tmpCap limit : Nat)

/-- R264's test of an item at an offset: the temporary buffer holds its RBSP, and its NAL unit ends within the limit. -/
abbrev ItemFits (cur : Nat) (x : ConfigItem) : Prop :=
  x.rbsp.length ≤ tmpCap ∧ cur + (nalBytes sc x.hb x.rbsp).length ≤ limit

/-- The section that an item becomes at an offset. -/
def plannedItem (cur : Nat) (x : ConfigItem) : Planned :=
  { span := { off := cur, len := (nalBytes sc x.hb x.rbsp).length }, flags := x.flags,
    content := .bytes (nalBytes sc x.hb x.rbsp) }

/-- Each item with the section it becomes, or none where it is dropped. -/
def configFates : Nat → List ConfigItem → List (ConfigItem × Option Planned)
  | _, [] => []
  | cur, x :: rest =>
    if ItemFits sc tmpCap limit cur x then
      (x, some (plannedItem sc cur x)) :: configFates (cur + (nalBytes sc x.hb x.rbsp).length) rest
    else (x, none) :: configFates cur rest

/-- The bytes that planned sections cover together. -/
def plannedBytes (l : List Planned) : Nat := (l.map (fun p => p.span.len)).sum

variable {sc tmpCap limit} {cur : Nat} {x : ConfigItem} (rest : List ConfigItem)

theorem configFates_place (h : ItemFits sc tmpCap limit cur x) : configFates sc tmpCap limit cur (x :: rest) =
    (x, some (plannedItem sc cur x)) :: configFates sc tmpCap limit (cur + (nalBytes sc x.hb x.rbsp).length) rest :=
  if_pos h

theorem configFates_drop (h : ¬ItemFits sc tmpCap limit cur x) :
    configFates sc tmpCap limit cur (x :: rest) = (x, none) :: configFates sc tmpCap limit cur rest := if_neg h

theorem placeConfig_place (h : ItemFits sc tmpCap limit cur x) : placeConfig sc tmpCap limit cur (x :: rest) =
    { placeConfig sc tmpCap limit (cur + (nalBytes sc x.hb x.rbsp).length) rest with
      planned := plannedItem sc cur x ::
        (placeConfig sc tmpCap limit (cur + (nalBytes sc x.hb x.rbsp).length) rest).planned } := if_pos h

theorem placeConfig_drop (h : ¬ItemFits sc tmpCap limit cur x) : placeConfig sc tmpCap limit cur (x :: rest) =
    { placeConfig sc tmpCap limit cur rest with dropped := true } := if_neg h

end

section
variable (sc : ScLen) (tmpCap limit cur : Nat) (items : List ConfigItem)

theorem configFates_items : (configFates sc tmpCap limit cur items).map (fun e => e.1) = items := by
  induction cur, items using configFates.induct sc tmpCap limit with
  | case1 => rfl
  | case2 cur x rest h ih => rw [configFates_place rest h, List.map_cons, ih]
  | case3 cur x rest h ih => rw [configFates_drop rest h, List.map_cons, ih]

theorem configFates_planned :
    (configFates sc tmpCap limit cur items).filterMap (fun e => e.2) = (placeConfig sc tmpCap limit cur items).planned := by
  induction cur, items using configFates.induct sc tmpCap limit with
  | case1 => rfl
  | case2 cur x rest h ih => rw [configFates_place rest h, placeConfig_place rest h, ← ih]; rfl
  | case3 cur x rest h ih => rw [configFates_drop rest h, placeConfig_drop rest h, ← ih]; rfl

theorem placeConfig_dropped_iff : (placeConfig sc tmpCap limit cur items).dropped = true ↔
    ∃ e ∈ configFates sc tmpCap limit cur items, e.2 = none := by
  induction cur, items using configFates.induct sc tmpCap limit with
  | case1 => exact ⟨nofun, nofun⟩
  | case2 cur x rest h ih =>
    rw [configFates_place rest h, placeConfig_place rest h, ih, List.exists_mem_cons_iff]
    simp only [reduceCtorEq, false_or]
  | case3 cur x rest h ih =>
    rw [configFates_drop rest h, placeConfig_drop rest h, List.exists_mem_cons_iff]
    simp only [true_or]

theorem placeConfig_cur : (placeConfig sc tmpCap limit cur items).cur =
    cur + plannedBytes (placeConfig sc tmpCap limit cur items).planned := by
  induction cur, items using configFates.induct sc tmpCap limit with
  | case1 => rfl
  | case2 cur x rest h ih => rw [placeConfig_place rest h, ih, Nat.add_assoc]; rfl
  | case3 cur x rest h ih => rw [placeConfig_drop rest h, ih]

theorem length_placeConfig_le : (placeConfig sc tmpCap limit cur items).planned.length ≤ items.length := by
  rw [← configFates_planned]
  exact (List.length_filterMap_le _ _).trans (by rw [← List.length_map, configFates_items])

/-- An item is dropped exactly when fewer sections than items are planned. -/
theorem placeConfig_dropped_eq_false_iff : (placeConfig sc tmpCap limit cur items).dropped = false ↔
    (placeConfig sc tmpCap limit cur items).planned.length = items.length := by
  induction cur, items using configFates.induct sc tmpCap limit with
  | case1 => exact ⟨fun _ => rfl, fun _ => rfl⟩
  | case2 cur x rest h ih =>
    rw [placeConfig_place rest h, List.length_cons, List.length_cons, Nat.add_right_cancel_iff]
    exact ih
  | case3 cur x rest h ih =>
    have hle := length_placeConfig_le sc tmpCap limit cur rest
    rw [placeConfig_drop rest h, List.length_cons]
    exact iff_of_false nofun (by simp only; omega)

end

section
variable {sc : ScLen} {tmpCap limit cur : Nat} {items : List ConfigItem}

/-- R264: an item's fate is decided by its test at the end of what was placed before it. -/
theorem getElem?_configFates {k : Nat} {x : ConfigItem} {p : Option Planned}
    (h : (configFates sc tmpCap limit cur items)[k]? = some (x, p)) {c : Nat}
    (hc : c = cur + plannedBytes (((configFates sc tmpCap limit cur items).take k).filterMap (fun e => e.2))) :
    p = if ItemFits sc tmpCap limit c x then some (plannedItem sc c x) else none := by
  induction cur, items using configFates.induct sc tmpCap limit generalizing k with
  | case1 => cases h
  | case2 cur y rest hfit ih =>
    rw [configFates_place rest hfit] at h hc
    cases k with
    | zero =>
      cases h
      obtain rfl : c = cur := hc
      rw [if_pos hfit]
    | succ k => exact ih h (hc.trans (Nat.add_assoc _ _ _).symm)
  | case3 cur y rest hfit ih =>
    rw [configFates_drop rest hfit] at h hc
    cases k with
    | zero =>
      cases h
      obtain rfl : c = cur := hc
      rw [if_neg hfit]
    | succ k => exact ih h hc

theorem mem_configFates {x : ConfigItem} {p : Planned} (h : (x, some p) ∈ configFates sc tmpCap limit cur items) :
    x ∈ items ∧ ∃ c, cur ≤ c ∧ ItemFits sc tmpCap limit c x ∧ p = plannedItem sc c x := by
  have hx : x ∈ (configFates sc tmpCap limit cur items).map (fun e => e.1) := List.mem_map_of_mem h
  rw [configFates_items] at hx
  refine ⟨hx, ?_⟩
  obtain ⟨k, hk⟩ := List.getElem?_of_mem h
  have hfate := getElem?_configFates hk rfl
  split at hfate
  · exact ⟨_, Nat.le_add_right _ _, ‹_›, Option.some.inj hfate⟩
  · cases hfate

/-- What a planned configuration section is: the NAL unit of an item, inside the window. -/
theorem mem_placeConfig {p : Planned} (h : p ∈ (placeConfig sc tmpCap limit cur items).planned) :
    ∃ x ∈ items, ∃ c, cur ≤ c ∧ ItemFits sc tmpCap limit c x ∧ p = plannedItem sc c x := by
  rw [← configFates_planned, List.mem_filterMap] at h
  obtain ⟨⟨x, q⟩, hmem, rfl⟩ := h
  exact ⟨x, mem_configFates hmem⟩

/-- The sections follow one another without a gap. -/
theorem placeConfig_off {k : Nat} {p : Planned} (h : (placeConfig sc tmpCap limit cur items).planned[k]? = some p) :
    p.span.off = cur + plannedBytes ((placeConfig sc tmpCap limit cur items).planned.take k) := by
  induction cur, items using configFates.induct sc tmpCap limit generalizing k with
  | case1 => cases h
  | case2 cur x rest hfit ih =>
    rw [placeConfig_place rest hfit] at h ⊢
    cases k with
    | zero => cases h; rfl
    | succ k => exact (ih h).trans (Nat.add_assoc _ _ _)
  | case3 cur x rest hfit ih =>
    rw [placeConfig_drop rest hfit] at h ⊢
    exact ih h

end

/-- Settles O47: by the fates of the items, with the limit that the window and the buffer set. -/
theorem configurationInsideWindow : Obligations.ConfigurationInsideWindow := by
  intro s r _ c unit
  refine ⟨fun p hp => ?_, fun k p => placeConfig_off, placeConfig_cur _ _ _ _ _, placeConfig_dropped_eq_false_iff _ _ _ _ _,
    configFates s.cfgScLen s.params.tmpCap.toNat (headerLimit s r.hdrBase.toNat) r.hdrBase.toNat (configItems s r),
    configFates_items _ _ _ _ _, configFates_planned _ _ _ _ _, placeConfig_dropped_iff _ _ _ _ _,
    fun k x p hk => ?_⟩
  · obtain ⟨x, hx, o, hstart, ⟨hrbsp, hend⟩, rfl⟩ := mem_placeConfig hp
    obtain ⟨hwindow, hbuffer⟩ := le_min_iff.1 hend
    exact ⟨hstart, hwindow, hbuffer, x, hx, hrbsp, rfl, rfl, rfl⟩
  · have hfate := getElem?_configFates hk rfl
    exact ⟨fun hfits => hfate.trans (if_pos hfits), fun hdropped => hfate.trans (if_neg hdropped)⟩

/-! ### The filler section (R266) -/

/-- What lands of a filler that begins at an offset: the budget, at least the head and the final 80, clipped to the buffer. -/
theorem fillerLanded_eq (s : State) (r : PicRecord) (off : Nat) : fillerLanded s r off =
    min (s.sbCap.toNat - off) (max ((fillerHead s r).length + 1) r.fillerBytes.toNat) :=
  landedBytes_fresh _ _ _ (fillerWriter s off, s.mem) _ rfl rfl rfl

theorem fillerHead_eq {s : State} (r : PicRecord) (hc : s.cfgCodec ≠ .other) : fillerHead s r = startCode s.cfgScLen ++
    if s.cfgCodec = .avc then [0x0C#8] else [0x4C#8, BitVec.ofNat 8 (r.tid.toNat + 1)] := by
  cases hcodec : s.cfgCodec with
  | avc => rw [fillerHead, codecHeader_avc hcodec]; rfl
  | hevc => rw [fillerHead, codecHeader_hevc hcodec, hevcHdrBytes_baseLayer]; rfl
  | other => exact absurd hcodec hc

theorem wantsFiller_iff (s : State) (r : PicRecord) : wantsFiller s r = true ↔
    s.cfgFiller ≠ .off ∧ (0 < r.fillerBytes.toNat ∨ (r.uduPending = true ∧ r.last = true)) := by
  simp only [wantsFiller, Bool.and_eq_true, Bool.or_eq_true, decide_eq_true_eq]

/-- Settles O48: by whether the policy asks for a filler, and by how much of it lands. -/
theorem fillerSectionPlanned : Obligations.FillerSectionPlanned := by
  intro s r hc before wants hb h off n
  have hwants : wantsFiller s r = true ↔ wants := wantsFiller_iff s r
  have hhead : fillerHead s r = startCode s.cfgScLen ++ hb := fillerHead_eq r hc
  have hlanded : fillerLanded s r off = n := by rw [fillerLanded_eq, hhead, List.length_append]
  refine ⟨fun hno => ?_, fun hyes => ⟨fun hzero => ?_, fun hpos => ?_, ?_⟩⟩
  · have hfalse : wantsFiller s r = false := Bool.eq_false_iff.2 (mt hwants.1 hno)
    rw [fillerPlan, fillerShort, hfalse]
    exact ⟨rfl, rfl⟩
  · rw [fillerPlan, if_pos (hwants.2 hyes), hlanded, if_neg (Nat.not_lt.2 hzero.le)]
  · rw [fillerPlan, if_pos (hwants.2 hyes), hlanded, if_pos hpos, hhead]
    rfl
  · rw [fillerShort, hwants.2 hyes, hlanded, Bool.true_and, decide_eq_true_iff]

/-! ### The flags of planned sections (R264 to R267) -/

theorem configItems_flags {s : State} {r : PicRecord} {x : ConfigItem} (h : x ∈ configItems s r) :
    x.flags = 0x02#32 ∨ x.flags = 0x0A#32 := by
  cases hf : r.first with
  | false => rw [configItems, hf] at h; cases h
  | true =>
    rw [configItems_eq_of_first s hf, audItems_eq, vpsItems_eq, spsItems_eq, ppsItems_eq, apsItems_eq, bundleItems_eq,
      uduItems_eq] at h
    simp only [List.mem_append, List.mem_ite_nil_right, List.mem_singleton, List.mem_map] at h
    rcases h with (((((⟨-, rfl⟩ | ⟨-, rfl⟩) | ⟨-, l, -, rfl⟩) | ⟨-, l, -, rfl⟩) | ⟨-, rfl⟩) | ⟨-, rfl⟩) | ⟨-, rfl⟩
    · exact .inl rfl
    · exact .inl rfl
    · exact .inl rfl
    · exact .inl rfl
    · exact .inr rfl
    · exact .inr rfl
    · exact .inr rfl

/-- R267: every planned section but the sentinel has one of four sets of flags. -/
theorem planWithFiller_flags {s : State} {r : PicRecord} {p : Planned} (h : p ∈ planWithFiller s r) :
    p.flags ∈ [0x00#32, 0x02#32, 0x0A#32, 0x20#32] := by
  rw [planWithFiller, planBeforeFiller, List.mem_append, List.mem_append] at h
  rcases h with (hconfig | hpart) | hfiller
  · obtain ⟨x, hx, c, -, -, rfl⟩ := mem_placeConfig hconfig
    rcases configItems_flags hx with hx | hx <;> simp [plannedItem, hx]
  · obtain ⟨y, -, rfl⟩ := List.mem_map.1 hpart
    exact List.mem_cons_self
  · rw [fillerPlan, List.mem_ite_nil_right, List.mem_ite_nil_right, List.mem_singleton] at hfiller
    obtain ⟨-, -, rfl⟩ := hfiller
    by_cases hform : s.cfgFiller = .dontFill <;> simp [hform, secAppFiller]

/-- Settles O49: by R267's test of LAST, and by the flags of the sections before the sentinel. -/
theorem sentinelEndsThePlan : Obligations.SentinelEndsThePlan := by
  intro s r before others
  refine ⟨rfl, fun hlast => ?_, fun hlast => ?_, fun p hp => ?_⟩
  · rw [picturePlan, sentinelPlan, if_pos hlast]
    rfl
  · rw [picturePlan, sentinelPlan, hlast]
    exact List.append_nil _
  · have hbit : ∀ f ∈ [0x00#32, 0x02#32, 0x0A#32, 0x20#32], f.getLsbD 0 = false := by simp
    exact hbit _ (planWithFiller_flags hp)

end Sys2Proof.Machine
end

section
/-! What every step leaves of the stream-buffer binding, the section table and the configuration (42_sections.md R250, R278,
10_state.md R38, R47, R48, R51): the three ways a command can change the table, and the invariants they keep. -/

namespace Sys2Proof.Machine

/-! ### The fields of the stream buffer -/

/-- The fields that `StreamBufferOk` and `SectionTableOk` speak of. -/
def State.bufferFields (s : State) : Bool × Word × Word × List Section × Option Platform :=
  (s.sbValid, s.sbBase, s.sbCap, s.sections, s.platform)

theorem bufferFields_eq_iff (s t : State) : t.bufferFields = s.bufferFields ↔ t.sbValid = s.sbValid ∧ t.sbBase = s.sbBase ∧
    t.sbCap = s.sbCap ∧ t.sections = s.sections ∧ t.platform = s.platform := by
  simp only [State.bufferFields, Prod.mk.injEq]

theorem SectionTableOk.of_bufferFields {s t : State} (hs : SectionTableOk s) (h : t.bufferFields = s.bufferFields) :
    SectionTableOk t := by
  obtain ⟨-, -, hcap, hsections, hplatform⟩ := (bufferFields_eq_iff s t).1 h
  have hparams : t.params = s.params := by rw [State.params, State.params, hplatform]
  constructor
  · rw [hsections, hparams]; exact hs.count
  · rw [hsections, hcap]; exact hs.inside
  · rw [hsections]; exact hs.disjoint
  · rw [hsections]; exact hs.flags

theorem StreamBufferOk.of_bufferFields {s t : State} (hs : StreamBufferOk s) (h : t.bufferFields = s.bufferFields) :
    StreamBufferOk t := by
  obtain ⟨hvalid, hbase, hcap, hsections, hplatform⟩ := (bufferFields_eq_iff s t).1 h
  have hmap : t.memMap = s.memMap := by rw [State.memMap, State.memMap, hplatform]
  constructor
  · rw [hvalid, hsections, hbase, hcap]; exact hs.unbound
  · rw [hvalid, hmap, hbase, hcap]; exact hs.admitted

theorem RanOn.bufferFields {w : WriterId} {s t : State} (h : RanOn w s t) : t.bufferFields = s.bufferFields := by
  obtain ⟨-, ops, r, rfl⟩ := h
  cases w <;> rfl

theorem Answered.bufferFields {s t : State} (h : Answered s t) : t.bufferFields = s.bufferFields := by
  obtain ⟨r, rfl⟩ := h
  rfl

/-! ### Sections added to the table (R252, R269, R274) -/

theorem Section.Disjoint.symm {x y : Section} (h : Section.Disjoint x y) : Section.Disjoint y x := by
  rw [← apart_sectionSpan_iff] at h ⊢
  exact h.symm

/-- New sections that fit beside the table, in whatever order the table then holds them all. -/
theorem SectionTableOk.add {s : State} (hs : SectionTableOk s) {new l : List Section}
    (hroom : s.sections.length + new.length ≤ s.params.maxSections.toNat)
    (hfits : PlanFits s.sbCap.toNat (tableSpans s.sections) (tableSpans new))
    (hflags : ∀ x ∈ new, sectionFlagsOk x.flags = true) (hl : l.Perm (s.sections ++ new)) :
    SectionTableOk { s with sections := l } where
  count := (hl.length_eq.trans List.length_append).le.trans hroom
  inside x hx := by
    rcases List.mem_append.1 (hl.mem_iff.1 hx) with hold | hnew
    · exact hs.inside x hold
    · exact hfits.inside _ (List.mem_map_of_mem hnew)
  disjoint := by
    rw [hl.pairwise_iff Section.Disjoint.symm, List.pairwise_append]
    refine ⟨hs.disjoint, ?_, fun x hx y hy => ?_⟩
    · exact (List.pairwise_map.1 hfits.within).imp (apart_sectionSpan_iff _ _).1
    · exact ((apart_sectionSpan_iff _ _).1 (hfits.apart _ (List.mem_map_of_mem hy) _ (List.mem_map_of_mem hx))).symm
  flags x hx := by
    rcases List.mem_append.1 (hl.mem_iff.1 hx) with hold | hnew
    · exact hs.flags x hold
    · exact hflags x hnew

/-- R270: SYNC moves no section, and is a flag that R48 defines. -/
theorem SectionTableOk.sync {s : State} {l : List Section} (hs : SectionTableOk { s with sections := l }) (idr : Bool) :
    SectionTableOk { s with sections := syncMark idr l } := by
  cases idr with
  | false => exact hs
  | true =>
    have hsync : ∀ f : Word, sectionFlagsOk f = true → sectionFlagsOk (f ||| secSync) = true := fun f hf => by
      rw [sectionFlagsOk_iff] at hf ⊢
      rw [BitVec.toNat_or]
      exact Nat.or_lt_two_pow (n := 6) hf (by decide)
    constructor
    · exact (List.length_map _).le.trans hs.count
    · exact List.forall_mem_map.2 hs.inside
    · exact List.pairwise_map.2 hs.disjoint
    · exact List.forall_mem_map.2 fun x hx => hsync x.flags (hs.flags x hx)

/-! ### A checked plan as sections (R251, R269) -/

/-- CheckPlan bounds a planned range by SB_CAP, so a word holds its offset and its length. -/
theorem sectionSpan_plannedSection {cap : Word} {p : Planned} (h : p.span.off + p.span.len ≤ cap.toNat) :
    sectionSpan (plannedSection p) = p.span := by
  have hoff := toNat_ofNat_of_le p.span.off cap (by omega)
  have hlen := toNat_ofNat_of_le p.span.len cap (by omega)
  rw [sectionSpan, plannedSection, hoff, hlen]

theorem tableSpans_plannedSection {cap : Word} {plan : List Planned} (h : ∀ p ∈ plan, p.span.off + p.span.len ≤ cap.toNat) :
    tableSpans (plan.map plannedSection) = plannedSpans plan := by
  rw [tableSpans, List.map_map]
  exact List.map_congr_left fun p hp => sectionSpan_plannedSection (h p hp)

theorem picturePlan_flagsOk {s : State} {r : PicRecord} {p : Planned} (h : p ∈ picturePlan s r) :
    sectionFlagsOk p.flags = true := by
  have hall : ∀ f ∈ [0x00#32, 0x02#32, 0x0A#32, 0x20#32], sectionFlagsOk f = true := by simp [sectionFlagsOk]
  rw [picturePlan, List.mem_append] at h
  rcases h with hother | hsentinel
  · exact hall _ (planWithFiller_flags hother)
  · rw [sentinelPlan, List.mem_ite_nil_right, List.mem_singleton] at hsentinel
    obtain ⟨-, rfl⟩ := hsentinel
    exact (sectionFlagsOk_iff secEndOfFrame).2 (by decide)

theorem SectionTableOk.addPlan {s : State} (hs : SectionTableOk s) (r : PicRecord)
    (hchecked : checkPlan s (plannedSpans (picturePlan s r)) = none) :
    SectionTableOk { s with sections := s.sections ++ (picturePlan s r).map plannedSection } := by
  obtain ⟨hroom, hfits⟩ := checkPlan_eq_none_iff.1 hchecked
  have hinside : ∀ p ∈ picturePlan s r, p.span.off + p.span.len ≤ s.sbCap.toNat :=
    fun p hp => hfits.inside _ (List.mem_map_of_mem hp)
  have hflags : ∀ x ∈ (picturePlan s r).map plannedSection, sectionFlagsOk x.flags = true :=
    List.forall_mem_map.2 fun p hp => picturePlan_flagsOk hp
  rw [plannedSpans, List.length_map, ← List.length_map (f := plannedSection)] at hroom
  rw [← tableSpans_plannedSection hinside] at hfits
  exact hs.add hroom hfits hflags (.refl _)

/-! ### A placed SEI message (R274, R277) -/

/-- R274: the section that a placed SEI message becomes. -/
def seiSection (s : State) (sfx : Bool) (nb : List Byte) : Section :=
  { offset := BitVec.ofNat 32 (addSeiPlace s sfx).2, length := BitVec.ofNat 32 nb.length,
    flags := if sfx then secSeiSuffix else secConfig ||| secSeiPrefix }

theorem sectionSpan_seiSection {s : State} {sfx : Bool} {nb : List Byte} (h : addSeiFits s sfx nb.length = true) :
    sectionSpan (seiSection s sfx nb) = { off := (addSeiPlace s sfx).2, len := nb.length } :=
  sectionSpan_plannedSection (cap := s.sbCap) (p := ⟨⟨_, _⟩, 0#32, .none⟩) (addSei_inside h)

theorem seiSection_flagsOk (s : State) (sfx : Bool) (nb : List Byte) : sectionFlagsOk (seiSection s sfx nb).flags = true := by
  cases sfx with
  | false => exact (sectionFlagsOk_iff (secConfig ||| secSeiPrefix)).2 (by decide)
  | true => exact (sectionFlagsOk_iff secSeiSuffix).2 (by decide)

theorem seiSection_disjoint {s : State} {sfx : Bool} {nb : List Byte} (h : addSeiFits s sfx nb.length = true) {x : Section}
    (hx : x ∈ s.sections) : Section.Disjoint (seiSection s sfx nb) x := by
  obtain ⟨-, -, hapart⟩ := (addSeiFits_iff _ _ _).1 h
  have hover := hapart x hx
  rw [← apart_sectionSpan_iff, sectionSpan_seiSection h]
  rcases Nat.eq_zero_or_pos nb.length with hzero | hlen
  · exact .inl hzero
  · rcases Nat.eq_zero_or_pos (sectionSpan x).len with hzero | hpos
    · exact .inr (.inl hzero)
    · exact (overlaps_eq_false _ _ hlen hpos).1 (Bool.eq_false_iff.2 fun e => hover ⟨hpos, e⟩)

theorem SectionTableOk.insertSei {s : State} (hs : SectionTableOk s) {sfx : Bool} {nb : List Byte}
    (h : addSeiFits s sfx nb.length = true) (pos : Nat) :
    SectionTableOk { s with sections := insertSection s.sections pos (seiSection s sfx nb) } := by
  obtain ⟨-, hroom, -⟩ := (addSeiFits_iff _ _ _).1 h
  have hinside : (seiSection s sfx nb).offset.toNat + (seiSection s sfx nb).length.toNat ≤ s.sbCap.toNat := by
    have hspan := sectionSpan_seiSection h
    rw [sectionSpan, Span.mk.injEq] at hspan
    rw [hspan.1, hspan.2]
    exact addSei_inside h
  have hperm : (insertSection s.sections pos (seiSection s sfx nb)).Perm (s.sections ++ [seiSection s sfx nb]) := by
    refine List.perm_middle.trans ?_
    rw [List.take_append_drop]
    exact (List.perm_append_singleton _ _).symm
  exact hs.add (new := [seiSection s sfx nb]) (Nat.lt_of_le_of_ne hs.count hroom)
    ((planFits_singleton s _).2 ⟨hinside, fun x hx => seiSection_disjoint h hx⟩)
    (List.forall_mem_singleton.2 (seiSection_flagsOk s sfx nb)) hperm

/-! ### Every command -/

/-- The ways a command can change the table of a bound buffer, each with the checks that the command has passed. -/
inductive TableStep (s : State) : List Section → Prop where
  | added (x : Section) (flags : sectionFlagsOk x.flags = true) (checked : checkPlan s [sectionSpan x] = none) :
      TableStep s (s.sections ++ [x])
  | pictured (r : PicRecord) (checked : checkPlan s (plannedSpans (picturePlan s r)) = none) :
      TableStep s (syncMark r.idr (s.sections ++ (picturePlan s r).map plannedSection))
  | inserted (sfx : Bool) (nb : List Byte) (pos : Nat) (fits : addSeiFits s sfx nb.length = true) :
      TableStep s (insertSection s.sections pos (seiSection s sfx nb))

theorem TableStep.tableOk {s : State} {l : List Section} (h : TableStep s l) (hs : SectionTableOk s) :
    SectionTableOk { s with sections := l } := by
  cases h with
  | added x flags checked =>
    obtain ⟨hroom, hfits⟩ := checkPlan_eq_none_iff.1 checked
    exact hs.add (new := [x]) hroom hfits (List.forall_mem_singleton.2 flags) (.refl _)
  | pictured r checked => exact (hs.addPlan r checked).sync r.idr
  | inserted sfx nb pos fits => exact hs.insertSei fits pos

/-- What a command can leave of the stream buffer: all of it, a new binding over an admitted range, or the binding with the
table changed. -/
inductive BufferStep (s t : State) : Prop where
  | kept (fields : t.bufferFields = s.bufferFields)
  | attached (base cap : Word) (admitted : admitFail s.memMap base.toNat cap.toNat = none)
      (fields : t.bufferFields = (true, base, cap, [], s.platform))
  | changed {l : List Section} (bound : s.sbValid = true) (change : TableStep s l)
      (fields : t.bufferFields = ({ s with sections := l } : State).bufferFields)

theorem Completed.bufferStep {i : Instr} {s t : State} (h : Completed i s t) : BufferStep s t := by
  cases i with
  | bwPutbits | bwPutbit | bwPutu | bwPuts | bwPutue | bwPutse | bwAlign | bwTrail | bwSkip | bwGetbits | bwGetdata
  | bwGetwptr | nalStart | nalEpcopy | nalFiller =>
    rcases h.ranOn_or_answered rfl with hran | hans
    · exact .kept hran.bufferFields
    · exact .kept hans.bufferFields
  | nop => cases h; exact .kept rfl
  | regRd | nalMkhdr => exact .kept (Answered.bufferFields h)
  | regWr reg value =>
    obtain ⟨r, u, -, hu, rfl⟩ := h
    rw [(writeReg_cases hu).1]
    exact .kept rfl
  | bwInit w base maxBits =>
    obtain ⟨-, rfl⟩ := h
    cases w <;> exact .kept rfl
  | secAttach base cap =>
    obtain ⟨hadmitted, rfl⟩ := h
    exact .attached base cap hadmitted rfl
  | secAdd offset length flags =>
    obtain ⟨hflags, hv, hchecked, rfl⟩ := h
    exact .changed hv (.added ⟨offset, length, flags⟩ hflags hchecked) rfl
  | secPicture =>
    obtain ⟨hv, -, -, r, plan, -, rfl, hchecked, rfl⟩ := h
    exact .changed hv (.pictured r hchecked) rfl
  | secAddsei sfx =>
    obtain ⟨hv, -, hans | ⟨nb, -, hfits, rfl⟩⟩ := h
    · exact .kept hans.bufferFields
    · exact .changed hv (.inserted sfx nb _ hfits) rfl
  | roiInit | roiClear | roiDestroy => obtain ⟨-, rfl⟩ := h; exact .kept rfl
  | roiAdd => obtain ⟨-, ⟨r, rfl⟩ | ⟨-, -, rfl⟩⟩ := h <;> exact .kept rfl
  | roiFill | qpFlat => obtain ⟨-, -, -, rfl⟩ := h; exact .kept rfl
  | qpLoad => obtain ⟨-, -, ⟨r, rfl⟩ | ⟨-, rfl⟩⟩ := h <;> exact .kept rfl

theorem exec_bufferStep {i : Instr} {s t : State} (h : exec i s = .next t) : BufferStep s t := by
  rcases exec_cases h with ⟨c, b, rfl⟩ | hdone
  · exact .kept rfl
  · exact hdone.bufferStep

theorem BufferStep.tableOk {s t : State} (h : BufferStep s t) (hs : SectionTableOk s) : SectionTableOk t := by
  cases h with
  | kept fields => exact hs.of_bufferFields fields
  | attached base cap _ fields =>
    have hempty : SectionTableOk { s with sbValid := true, sbBase := base, sbCap := cap, sections := [] } :=
      ⟨Nat.zero_le _, nofun, .nil, nofun⟩
    exact hempty.of_bufferFields fields
  | changed _ change fields => exact (change.tableOk hs).of_bufferFields fields

theorem BufferStep.bufferOk {s t : State} (h : BufferStep s t) (hs : StreamBufferOk s) : StreamBufferOk t := by
  cases h with
  | kept fields => exact hs.of_bufferFields fields
  | attached base cap admitted fields =>
    have hbound : StreamBufferOk { s with sbValid := true, sbBase := base, sbCap := cap, sections := [] } :=
      ⟨nofun, fun _ => admitted_of_admitFail_none _ _ _ admitted⟩
    exact hbound.of_bufferFields fields
  | @changed l bound _ fields =>
    have hbound : StreamBufferOk { s with sections := l } := ⟨fun hinv => absurd (bound.symm.trans hinv) nofun, hs.admitted⟩
    exact hbound.of_bufferFields fields

/-- Settles O16: the port is no part of the table, and each way a command can change the table keeps it. -/
theorem stepKeepsSectionTableOk : Obligations.StepKeepsSectionTableOk := by
  intro s t hs h
  rcases step_cases h with ⟨-, rfl⟩ | ⟨-, -, rfl | ⟨hw, rest, rfl⟩⟩ | ⟨-, i, rest, -, hexec⟩
  · exact hs.of_bufferFields rfl
  · exact hs
  · exact hs.of_bufferFields rfl
  · have htaken : SectionTableOk { s with port := rest } := hs.of_bufferFields rfl
    exact (exec_bufferStep hexec).tableOk htaken

/-! ### The configuration (R38, R51) -/

/-- The fields that `ConfigOk` speaks of. -/
def State.configFields (s : State) : Word × BitVec 3 × Option Platform := (s.cfgNumLayers, s.lastTid, s.platform)

theorem ConfigOk.of_configFields {s t : State} (hs : ConfigOk s) (h : t.configFields = s.configFields) : ConfigOk t := by
  simp only [State.configFields, Prod.mk.injEq] at h
  obtain ⟨hlayers, htid, hplatform⟩ := h
  have hparams : t.params = s.params := by rw [State.params, State.params, hplatform]
  constructor
  · rw [hparams]; exact hs.params
  · rw [hlayers, hparams]; exact hs.layers
  · rw [htid]; exact hs.tid

/-- R119: a record that SEC_PICTURE takes has no TID of 7. -/
theorem readRecord_tid_le {m : Memory} {a : Nat} (h : recordFlagsOk (readU32 m a) = true) :
    (readRecord m a).tid.toNat ≤ 6 := by
  have hcodes : ∀ v : BitVec 3, v ≠ 7#3 → v.toNat ≤ 6 := by decide
  rw [recordFlagsOk, Bool.and_eq_true, decide_eq_true_iff] at h
  exact hcodes _ h.2

theorem RanOn.configFields {w : WriterId} {s t : State} (h : RanOn w s t) : t.configFields = s.configFields := by
  obtain ⟨-, ops, r, rfl⟩ := h
  cases w <;> rfl

theorem Answered.configFields {s t : State} (h : Answered s t) : t.configFields = s.configFields := by
  obtain ⟨r, rfl⟩ := h
  rfl

/-- REG_WR keeps CFG_NUM_LAYERS legal (44_control.md R382). -/
theorem ConfigOk.regWritten {s u : State} (hs : ConfigOk s) {r : RegName} {v : Word} (hu : writeReg s r v = some u) :
    ConfigOk u := by
  obtain ⟨hframe, hlayers⟩ := writeReg_cases hu
  have hparams : u.params = s.params := by rw [hframe]; rfl
  have htid : u.lastTid = s.lastTid := by rw [hframe]
  refine ⟨hparams ▸ hs.params, ?_, htid ▸ hs.tid⟩
  rw [hparams]
  rcases hlayers with hkept | hlegal
  · rw [hkept]; exact hs.layers
  · exact hlegal

theorem Completed.keeps_configOk {i : Instr} {s t : State} (hs : ConfigOk s) (h : Completed i s t) : ConfigOk t := by
  cases i with
  | bwPutbits | bwPutbit | bwPutu | bwPuts | bwPutue | bwPutse | bwAlign | bwTrail | bwSkip | bwGetbits | bwGetdata
  | bwGetwptr | nalStart | nalEpcopy | nalFiller =>
    rcases h.ranOn_or_answered rfl with hran | hans
    · exact hs.of_configFields hran.configFields
    · exact hs.of_configFields hans.configFields
  | nop => cases h; exact hs.of_configFields rfl
  | regRd | nalMkhdr => exact hs.of_configFields (Answered.configFields h)
  | regWr reg value =>
    obtain ⟨r, u, -, hu, rfl⟩ := h
    exact (hs.regWritten hu).of_configFields rfl
  | bwInit w base maxBits =>
    obtain ⟨-, rfl⟩ := h
    cases w <;> exact hs.of_configFields rfl
  | secAttach | roiInit | roiClear | roiDestroy => obtain ⟨-, rfl⟩ := h; exact hs.of_configFields rfl
  | secAdd | roiFill | qpFlat => obtain ⟨-, -, -, rfl⟩ := h; exact hs.of_configFields rfl
  | secPicture =>
    obtain ⟨-, -, hflags, r, plan, rfl, -, -, rfl⟩ := h
    refine ⟨hs.params, hs.layers, ?_⟩
    simp only [commitPicture]
    split
    · exact readRecord_tid_le hflags
    · exact hs.tid
  | secAddsei => obtain ⟨-, -, ⟨r, rfl⟩ | ⟨nb, -, -, rfl⟩⟩ := h <;> exact hs.of_configFields rfl
  | roiAdd => obtain ⟨-, ⟨r, rfl⟩ | ⟨-, -, rfl⟩⟩ := h <;> exact hs.of_configFields rfl
  | qpLoad => obtain ⟨-, -, ⟨r, rfl⟩ | ⟨-, rfl⟩⟩ := h <;> exact hs.of_configFields rfl

theorem exec_keeps_configOk {i : Instr} {s t : State} (hs : ConfigOk s) (h : exec i s = .next t) : ConfigOk t := by
  rcases exec_cases h with ⟨c, b, rfl⟩ | hdone
  · exact hs.of_configFields rfl
  · exact hdone.keeps_configOk hs

/-- Settles O15: the binding by the ways a command can leave the buffer, the configuration by what each command
writes of it. -/
theorem stepKeepsBufferAndConfigOk : Obligations.StepKeepsBufferAndConfigOk := by
  intro s t hbuffer hconfig h
  rcases step_cases h with ⟨-, rfl⟩ | ⟨-, -, rfl | ⟨hw, rest, rfl⟩⟩ | ⟨-, i, rest, -, hexec⟩
  · exact ⟨hbuffer.of_bufferFields rfl, hconfig.of_configFields rfl⟩
  · exact ⟨hbuffer, hconfig⟩
  · exact ⟨hbuffer.of_bufferFields rfl, hconfig.of_configFields rfl⟩
  · have hbuffer' : StreamBufferOk { s with port := rest } := hbuffer.of_bufferFields rfl
    have hconfig' : ConfigOk { s with port := rest } := hconfig.of_configFields rfl
    exact ⟨(exec_bufferStep hexec).bufferOk hbuffer', exec_keeps_configOk hconfig' hexec⟩

end Sys2Proof.Machine
end

section
/-! SEC_PICTURE up to its plan and with it (42_sections.md R254, R268 to R273): the checks in their order, and the fields of a
committed picture. -/

namespace Sys2Proof.Machine

/-! ### The record's checks (R254, 30_encoding.md R119) -/

theorem recordFlagsOk_iff (f : Word) : recordFlagsOk f = true ↔
    f.toNat < 2 ^ 13 ∧ f.toNat / 2 ^ 8 % 4 ≠ 3 ∧ f.toNat / 2 ^ 10 % 8 ≠ 7 := by
  have hreserved : f.extractLsb' 13 19 = 0#19 ↔ f.toNat < 2 ^ 13 := by
    rw [← BitVec.toNat_inj, toNat_extractLsb', BitVec.toNat_ofNat]
    omega
  have hstype : f.extractLsb' 8 2 = 3#2 ↔ f.toNat / 2 ^ 8 % 4 = 3 := by
    rw [← BitVec.toNat_inj, toNat_extractLsb']
    rfl
  have htid : f.extractLsb' 10 3 = 7#3 ↔ f.toNat / 2 ^ 10 % 8 = 7 := by
    rw [← BitVec.toNat_inj, toNat_extractLsb']
    rfl
  simp only [recordFlagsOk, Bool.and_eq_true, decide_eq_true_eq, ne_eq, hreserved, hstype, htid, and_assoc]

theorem exec_secPicture_notInitialised {s : State} (rec : Word) (hv : s.sbValid = false) :
    exec (.secPicture rec) s = raise (.secPicture rec) .notInitialised s := by
  rw [exec, execSecPicture, hv, if_neg Bool.false_ne_true]

section
variable {s : State} {rec : Word} (hv : s.sbValid = true)
include hv

theorem exec_secPicture_unsupported (hc : s.cfgCodec = .other) :
    exec (.secPicture rec) s = raise (.secPicture rec) .unsupported s := by
  rw [exec, execSecPicture, if_pos hv, if_pos hc]

variable (hc : s.cfgCodec ≠ .other)
include hc

theorem exec_secPicture_recordFails {b : Nat} (hb : LowestFailing s.memMap rec.toNat 28 b) :
    exec (.secPicture rec) s = raiseBus (.secPicture rec) b s := by
  rw [exec, execSecPicture, if_pos hv, if_neg hc, (admitFail_eq_some_iff _ _ _ _).2 hb]

variable (hrec : Admitted s.memMap rec.toNat 28)
include hrec

theorem exec_secPicture_tooManyParts (hn : s.params.maxParts.toNat < (readU32 s.mem (rec.toNat + 24)).toNat) :
    exec (.secPicture rec) s = raise (.secPicture rec) .operandRange s := by
  rw [exec, execSecPicture, if_pos hv, if_neg hc, (admitFail_eq_none_iff _ _ _).2 hrec]
  exact if_pos hn

variable (hn : (readU32 s.mem (rec.toNat + 24)).toNat ≤ s.params.maxParts.toNat)
include hn

theorem exec_secPicture_partsFail {b : Nat}
    (hb : LowestFailing s.memMap (rec.toNat + 28) (8 * (readU32 s.mem (rec.toNat + 24)).toNat) b) :
    exec (.secPicture rec) s = raiseBus (.secPicture rec) b s := by
  rw [exec, execSecPicture, if_pos hv, if_neg hc, (admitFail_eq_none_iff _ _ _).2 hrec]
  simp only [recordParts, if_neg (Nat.not_lt.2 hn), (admitFail_eq_some_iff _ _ _ _).2 hb]

theorem exec_secPicture_parts
    (hparts : Admitted s.memMap (rec.toNat + 28) (8 * (readU32 s.mem (rec.toNat + 24)).toNat)) :
    exec (.secPicture rec) s =
      if recordFlagsOk (readU32 s.mem rec.toNat) then
        pictureFlow (.secPicture rec) (readRecord s.mem rec.toNat) s
      else raise (.secPicture rec) .operandRange s := by
  rw [exec, execSecPicture, if_pos hv, if_neg hc, (admitFail_eq_none_iff _ _ _).2 hrec]
  simp only [recordParts, if_neg (Nat.not_lt.2 hn), (admitFail_eq_none_iff _ _ _).2 hparts]

end

/-- The parts of a record that ends at 2^32 have no address: the first of them is 2^32 itself (20_memory.md R84). -/
theorem lowestFailing_pastSpace (rs : List Region) {n : Nat} (hn : 0 < n) :
    LowestFailing rs addressSpace n addressSpace :=
  .inr ⟨rfl, hn, by omega, fun _ hle hlt => absurd hlt (Nat.not_lt.2 hle)⟩

/-- FAULT_ARG shows a failing address modulo 2^32 (log entry 7). -/
theorem raiseBus_pastSpace (i : Instr) (s : State) : raiseBus i addressSpace s = raiseBus i 0 s := rfl

/-- Settles O43: each check when those before it pass. -/
theorem pictureChecksInOrder : Obligations.PictureChecksInOrder := by
  refine fun s rec => ⟨exec_secPicture_notInitialised rec, exec_secPicture_unsupported, fun hv hc =>
    ⟨fun b => exec_secPicture_recordFails hv hc, fun hrec => ⟨exec_secPicture_tooManyParts hv hc hrec, fun hn =>
      ⟨fun b _ => exec_secPicture_partsFail hv hc hrec hn, fun hend hpos => ?_, fun hparts hflags => ?_⟩⟩⟩⟩
  · rw [← raiseBus_pastSpace]
    refine exec_secPicture_partsFail hv hc hrec hn ?_
    rw [hend]
    exact lowestFailing_pastSpace _ (by omega)
  · rw [exec_secPicture_parts hv hc hrec hn hparts, if_neg]
    rw [recordFlagsOk_iff]
    omega

/-! ### The plan's check and the commit (R251, R268 to R273) -/

theorem PictureReady.exec_eq {s : State} {rec : Word} (h : PictureReady s rec.toNat) :
    exec (.secPicture rec) s = pictureFlow (.secPicture rec) (readRecord s.mem rec.toNat) s := by
  rw [exec_secPicture_parts h.bound h.codec h.header h.count h.parts,
    if_pos ((recordFlagsOk_iff _).2 ⟨h.reserved, h.stype, h.tid⟩)]

theorem pictureFlow_raises {i : Instr} {r : PicRecord} {s : State} {c : FaultCause}
    (h : checkPlan s (plannedSpans (picturePlan s r)) = some c) : pictureFlow i r s = raise i c s := by
  rw [pictureFlow, h]

theorem pictureFlow_commits (i : Instr) {r : PicRecord} {s : State}
    (h : checkPlan s (plannedSpans (picturePlan s r)) = none) :
    pictureFlow i r s = .next { commitPicture s r (picturePlan s r) with
      res := BitVec.ofNat 32 (picturePlan s r).length, cmdSeq := s.cmdSeq + 1#32 } := by
  rw [pictureFlow, h]
  rfl

theorem length_plannedSpans (l : List Planned) : (plannedSpans l).length = l.length := List.length_map _

theorem PictureFits.checked {s : State} {r : PicRecord} (h : PictureFits s r) :
    checkPlan s (plannedSpans (picturePlan s r)) = none :=
  checkPlan_fits (by rw [length_plannedSpans]; exact h.room) h.fits

/-- R270: SYNC marks every entry, or none. -/
theorem syncMark_eq (idr : Bool) (t : List Section) :
    syncMark idr t = t.map (fun x => { x with flags := if idr then x.flags ||| 0x04#32 else x.flags }) := by
  cases idr with
  | false => exact (List.map_id t).symm
  | true => rfl

theorem toNat_nextCpbDelay (d : Word) (r : PicRecord) : (nextCpbDelay d r).toNat =
    ((if r.stype = .i then 0 else d.toNat) + (if r.field then 1 else 2)) % 2 ^ 32 := by
  rw [nextCpbDelay, BitVec.toNat_add, apply_ite BitVec.toNat, apply_ite BitVec.toNat]
  rfl

/-- Settles O45: by what CheckPlan answers for the plan. -/
theorem pictureCommits : Obligations.PictureCommits := by
  intro s rec h r plan
  have hlength : (plannedSpans plan).length = plan.length := length_plannedSpans plan
  refine ⟨fun hfull => ?_, fun hroom hbad => ?_, fun hfits => ?_⟩
  · exact h.exec_eq.trans (pictureFlow_raises (checkPlan_sectionFull (by rwa [hlength])))
  · exact h.exec_eq.trans (pictureFlow_raises (checkPlan_sectionRange (by rwa [hlength]) hbad))
  · refine ⟨_, h.exec_eq.trans (pictureFlow_commits _ hfits.checked), rfl, syncMark_eq _ _, rfl, rfl, fun hfirst => ?_,
      fun hlater => ?_⟩
    · exact ⟨if_pos hfirst, if_pos hfirst, (congrArg BitVec.toNat (if_pos hfirst)).trans (toNat_nextCpbDelay _ _),
        if_pos hfirst, if_pos hfirst⟩
    · have hno : ¬r.first = true := Bool.eq_false_iff.1 hlater
      exact ⟨if_neg hno, if_neg hno, if_neg hno, if_neg hno, if_neg hno⟩

end Sys2Proof.Machine
end

section
/-! The bytes of a committed picture (42_sections.md R253, R264, R266, R269): what each planned section writes, and that no
other section of the plan reaches it. -/

namespace Sys2Proof.Machine

/-! ### A filler on a fresh writer (R266, 41_nal.md R212) -/

/-- With no room for the first of them, operations write nothing. -/
theorem runOps_noRoom {o : StreamOp} {x : Stream} (ops : List StreamOp) (h : x.1.maxBits < x.1.bitCnt + o.size) :
    (runOps (o :: ops) x).2 = x.2 := by
  have hmem : (o.run x).2 = x.2 := by
    cases o with
    | put n v => exact putBits_rejected n v x (.inr h)
    | skip n => rfl
  obtain ⟨-, hrest⟩ := runOps_overflowed ops (o.run x) ((run_ovf o x).2 (.inr h))
  exact hrest.trans hmem

theorem emitOps_cons (b : Byte) (bs : List Byte) : emitOps (b :: bs) = .put 8 b.toNat :: emitOps bs := rfl

/-- Bytes emitted at a byte boundary with room for fewer of them: those that have room land. -/
theorem emitBytes_clipped {bs : List Byte} {room : Nat} {x : Stream} (h : StreamOk x) (ho : x.1.ovf = false)
    (ha : x.1.bitCnt % 8 = 0) (hm : x.1.maxBits = x.1.bitCnt + 8 * room) (hr : room < bs.length) :
    readBytes (runOps (emitOps bs) x).2 (nextByte x.1) room = bs.take room ∧
      SameOutside x.2 (runOps (emitOps bs) x).2 (nextByte x.1) room := by
  have hlen : (bs.take room).length = room := List.length_take_of_le hr.le
  have hroom : AlignedRoom x.1 (bs.take room).length := ⟨ho, ha, by rw [hlen, hm]⟩
  obtain ⟨hread, hsame, hwriter⟩ := emitBytes_aligned (bs.take room) x h hroom
  have hrest : (runOps (emitOps bs) x).2 = (runOps (emitOps (bs.take room)) x).2 := by
    have hops : emitOps bs = emitOps (bs.take room) ++ .put 8 bs[room].toNat :: emitOps (bs.drop (room + 1)) := by
      rw [← emitOps_cons, ← emitOps_append, ← List.drop_eq_getElem_cons hr, List.take_append_drop]
    rw [hops, runOps_append]
    refine runOps_noRoom _ ?_
    rw [hwriter, hlen, hm]
    exact Nat.lt_add_of_pos_right (Nat.succ_pos 7)
  rw [hlen] at hread hsame
  rw [hrest]
  exact ⟨hread, hsame⟩

/-- The fill bytes of a filler on a fresh writer of `room` whole bytes. -/
def freshFill (h budget room : Nat) : Nat := min (budget - h) (room - h) - 1

/-- The bytes of a filler that begins at `base` as far as n of them land: its header, fill and final 80, with the bytes that
"don't fill" skips kept (41_nal.md R212, R213). -/
def FillerLands (head : List Byte) (fill : Nat) (df : Bool) (base n : Nat) (m m' : Memory) : Prop :=
  ∀ k b, k < n → (head ++ List.replicate fill 0xFF#8 ++ [0x80#8])[k]? = some b →
    readByte m' (base + k) = if df = true ∧ head.length < k ∧ k < head.length + fill then readByte m (base + k) else b

theorem getElem?_fillerUnit (head : List Byte) (fill k : Nat) :
    (head ++ List.replicate fill 0xFF#8 ++ [0x80#8])[k]? =
      if k < head.length then head[k]? else if k < head.length + fill then some 0xFF#8
      else if k = head.length + fill then some 0x80#8 else none := by
  rw [List.append_assoc]
  rcases Nat.lt_or_ge k head.length with hhead | hhead
  · rw [List.getElem?_append_left hhead, if_pos hhead]
  · rw [List.getElem?_append_right hhead, if_neg (Nat.not_lt.2 hhead)]
    rcases Nat.lt_or_ge k (head.length + fill) with hfill | hfill
    · have hlt : k - head.length < fill := by omega
      rw [List.getElem?_append_left (by rwa [List.length_replicate]), List.getElem?_replicate, if_pos hlt, if_pos hfill]
    · have hle : fill ≤ k - head.length := by omega
      rw [List.getElem?_append_right (by rwa [List.length_replicate]), List.length_replicate, if_neg (Nat.not_lt.2 hfill),
        List.getElem?_singleton]
      exact if_congr (by omega) rfl rfl

/-- Bytes read back as a list, byte by byte. -/
theorem readByte_of_readBytes {m : Memory} {a n k : Nat} {l : List Byte} {b : Byte} (h : readBytes m a n = l)
    (hb : l[k]? = some b) : readByte m (a + k) = b := by
  subst h
  obtain ⟨hlt, hbyte⟩ := List.getElem?_eq_some_iff.1 hb
  rwa [getElem_readBytes] at hbyte

theorem nextByte_fresh {wr : BitWriter} (h : wr.bitCnt = 0) : nextByte wr = wr.base := by rw [nextByte, h]; rfl

section
variable {head : List Byte} {budget room : Nat} {x : Stream} (h : StreamOk x) (ho : x.1.ovf = false) (hb : x.1.bitCnt = 0)
  (hm : x.1.maxBits = 8 * room)

include h ho hb hm

/-- The head and the final 80 do not both fit: what has room of them lands. -/
theorem freshFiller_clipped (df : Bool) (hr : room ≤ head.length) :
    SameOutside x.2 (runOps (fillerOps head budget df x.1) x).2 x.1.base room ∧
      FillerLands head (freshFill head.length budget room) df x.1.base room x.2
        (runOps (fillerOps head budget df x.1) x).2 := by
  have hnone : freshFill head.length budget room = 0 := by unfold freshFill; omega
  have hops : fillerOps head budget df x.1 = emitOps (head ++ [0x80#8]) := by
    have hfill : min (budget - head.length) ((x.1.maxBits - (x.1.bitCnt + 8 * head.length)) / 8) - 1 = 0 := by omega
    rw [fillerOps, hfill, emitOps_append]
    cases df <;> exact congrArg (· ++ _) (List.append_nil _)
  have hlen : room < (head ++ [0x80#8]).length := by rw [List.length_append, List.length_singleton]; omega
  obtain ⟨hread, hsame⟩ := emitBytes_clipped h ho (by omega) (by omega) hlen
  rw [nextByte_fresh hb] at hread hsame
  rw [hops, hnone]
  refine ⟨hsame, fun k b hk hbyte => ?_⟩
  rw [if_neg (by omega)]
  refine readByte_of_readBytes hread ?_
  rw [List.getElem?_take_of_lt hk]
  rwa [List.replicate_zero, List.append_nil] at hbyte

/-- The head and the final 80 fit: the NAL unit lands whole. -/
theorem freshFiller_whole (df : Bool) (hr : head.length < room) :
    SameOutside x.2 (runOps (fillerOps head budget df x.1) x).2 x.1.base (min room (max (head.length + 1) budget)) ∧
      FillerLands head (freshFill head.length budget room) df x.1.base (min room (max (head.length + 1) budget)) x.2
        (runOps (fillerOps head budget df x.1) x).2 := by
  have hroom : AlignedRoom x.1 (head.length + 1) := ⟨ho, by omega, by omega⟩
  have hlen : fillerLen head.length budget x.1 = min room (max (head.length + 1) budget) := by unfold fillerLen; omega
  obtain ⟨-, hsame, hfilled, hdont⟩ := fillerUnit_lands (budget := budget) h hroom df
  rw [hlen, nextByte_fresh hb] at hsame hfilled hdont
  set n := min room (max (head.length + 1) budget)
  have hfill : n - head.length - 1 = freshFill head.length budget room := by unfold freshFill; omega
  rw [hfill] at hfilled
  refine ⟨hsame, fun k b hk hbyte => ?_⟩
  cases df with
  | false => rw [if_neg (by simp)]; exact readByte_of_readBytes (hfilled rfl) hbyte
  | true =>
    obtain ⟨hhead, hlast, hmark, hkept⟩ := hdont rfl
    rw [getElem?_fillerUnit] at hbyte
    split_ifs at hbyte with hkhead hkfill hkend
    · rw [if_neg (by omega)]
      exact readByte_of_readBytes hhead hbyte
    · cases hbyte
      by_cases hskip : head.length < k
      · rw [if_pos ⟨rfl, hskip, hkfill⟩]
        exact hkept k hskip (by omega)
      · rw [if_neg (fun hc => hskip hc.2.1), show k = head.length by omega]
        exact hmark (by omega)
    · cases hbyte
      rw [if_neg (by omega), show k = n - 1 by omega]
      exact hlast

theorem freshFiller_lands (df : Bool) :
    SameOutside x.2 (runOps (fillerOps head budget df x.1) x).2 x.1.base (min room (max (head.length + 1) budget)) ∧
      FillerLands head (freshFill head.length budget room) df x.1.base (min room (max (head.length + 1) budget)) x.2
        (runOps (fillerOps head budget df x.1) x).2 := by
  rcases Nat.lt_or_ge head.length room with hr | hr
  · exact freshFiller_whole h ho hb hm df hr
  · rw [show min room (max (head.length + 1) budget) = room by omega]
    exact freshFiller_clipped h ho hb hm df hr

end

/-! ### One planned section (R264 to R266) -/

section
variable {s : State} {p : Planned} (m : Memory)

theorem commitBytes_none (h : p.content = .none) : commitBytes s m p = m := by rw [commitBytes, h]

theorem commitBytes_bytes {bs : List Byte} (h : p.content = .bytes bs) :
    commitBytes s m p = writeBytes m (s.sbBase.toNat + p.span.off) bs := by rw [commitBytes, h]

theorem commitBytes_filler {head : List Byte} {budget : Nat} {df : Bool} (h : p.content = .filler head budget df) :
    commitBytes s m p =
      (runOps (fillerOps head budget df (fillerWriter s p.span.off)) (fillerWriter s p.span.off, m)).2 := by
  rw [commitBytes, h]
  exact congrArg Prod.snd (fillerRun_stream _ _ _ _)

end

/-- A planned section inside the buffer, with as many bytes as its content has: its NAL unit, or what lands of its filler. -/
structure Planned.Placed (s : State) (p : Planned) : Prop where
  inside : p.span.off + p.span.len ≤ s.sbCap.toNat
  sized  : p.Sized
  filler : ∀ head budget df, p.content = .filler head budget df →
    p.span.len = min (s.sbCap.toNat - p.span.off) (max (head.length + 1) budget)

/-- What committing a planned section makes of memory. -/
structure Planned.Lands (s : State) (p : Planned) (m m' : Memory) : Prop where
  outside : ∀ a, (p.content ≠ .none → a < s.sbBase.toNat + p.span.off ∨ s.sbBase.toNat + p.span.off + p.span.len ≤ a) →
    readByte m' a = readByte m a
  bytes   : ∀ bs, p.content = .bytes bs → readBytes m' (s.sbBase.toNat + p.span.off) p.span.len = bs
  filler  : ∀ head budget df, p.content = .filler head budget df →
    FillerLands head (freshFill head.length budget (s.sbCap.toNat - p.span.off)) df (s.sbBase.toNat + p.span.off)
      p.span.len m m'

section
variable {s : State} (hspace : s.sbBase.toNat + s.sbCap.toNat ≤ addressSpace)
include hspace

theorem commitBytes_lands {m : Memory} {p : Planned} (hw : m.wf = true) (hp : p.Placed s) :
    p.Lands s m (commitBytes s m p) := by
  have hinside := hp.inside
  cases hcontent : p.content with
  | none =>
    rw [commitBytes_none m hcontent]
    exact ⟨fun _ _ => rfl, fun bs hbs => absurd (hcontent.symm.trans hbs) nofun,
      fun head budget df hf => absurd (hcontent.symm.trans hf) nofun⟩
  | bytes bs =>
    have hlen := hp.sized bs hcontent
    rw [commitBytes_bytes m hcontent]
    refine ⟨fun a ha => ?_, fun bs' hbs => ?_, fun head budget df hf => absurd (hcontent.symm.trans hf) nofun⟩
    · refine readByte_writeBytes_outside _ _ _ _ ?_
      rw [hlen]
      exact ha (by rw [hcontent]; exact nofun)
    · cases hcontent.symm.trans hbs
      rw [← hlen]
      exact readBytes_writeBytes bs m _ hw (by omega)
  | filler head budget df =>
    have hlen := hp.filler head budget df hcontent
    have hok : StreamOk (fillerWriter s p.span.off, m) := ⟨hw, by simp only [fillerWriter, capacityBytes]; omega⟩
    obtain ⟨hsame, hlands⟩ := freshFiller_lands (head := head) (budget := budget) hok rfl rfl rfl df
    rw [← hlen] at hsame hlands
    rw [commitBytes_filler m hcontent]
    refine ⟨fun a ha => hsame a (ha (by rw [hcontent]; exact nofun)),
      fun bs hbs => absurd (hcontent.symm.trans hbs) nofun, fun head' budget' df' hf => ?_⟩
    cases hcontent.symm.trans hf
    exact hlands

/-! ### The whole plan (R269) -/

/-- A byte outside every section that is written keeps. -/
theorem commitPlan_outside {plan : List Planned} {m : Memory} (hw : m.wf = true) (hp : ∀ p ∈ plan, p.Placed s) {a : Nat}
    (ha : ∀ p ∈ plan, p.content ≠ .none →
      a < s.sbBase.toNat + p.span.off ∨ s.sbBase.toNat + p.span.off + p.span.len ≤ a) :
    readByte (plan.foldl (commitBytes s) m) a = readByte m a := by
  induction plan generalizing m with
  | nil => rfl
  | cons p rest ih =>
    rw [List.forall_mem_cons] at hp ha
    rw [List.foldl_cons, ih (wf_commitBytes s m p hw) hp.2 ha.2, (commitBytes_lands hspace hw hp.1).outside a ha.1]

/-- A section of a plan is written alone: no other section of the plan changes its bytes, before or after. -/
theorem commitPlan_alone {plan : List Planned} {m : Memory} (hw : m.wf = true) (hp : ∀ p ∈ plan, p.Placed s)
    (hapart : (plannedSpans plan).Pairwise Span.Apart) {p : Planned} (hmem : p ∈ plan) : ∃ m0, m0.wf = true ∧
      ∀ k < p.span.len, readByte m0 (s.sbBase.toNat + p.span.off + k) = readByte m (s.sbBase.toNat + p.span.off + k) ∧
        readByte (plan.foldl (commitBytes s) m) (s.sbBase.toNat + p.span.off + k) =
          readByte (commitBytes s m0 p) (s.sbBase.toNat + p.span.off + k) := by
  obtain ⟨before, after, rfl⟩ := List.append_of_mem hmem
  rw [plannedSpans, List.pairwise_map, List.pairwise_append, List.pairwise_cons] at hapart
  obtain ⟨-, ⟨hafter, -⟩, hbefore⟩ := hapart
  have hbeside : ∀ q : Planned, Span.Apart q.span p.span → ∀ k < p.span.len, q.content ≠ .none →
      s.sbBase.toNat + p.span.off + k < s.sbBase.toNat + q.span.off ∨
        s.sbBase.toNat + q.span.off + q.span.len ≤ s.sbBase.toNat + p.span.off + k := by
    intro q hq k hk _
    unfold Span.Apart at hq
    omega
  have hw0 := wf_commitPlan s before m hw
  refine ⟨before.foldl (commitBytes s) m, hw0, fun k hk => ⟨?_, ?_⟩⟩
  · exact commitPlan_outside hspace hw (fun q hq => hp q (List.mem_append_left _ hq))
      fun q hq => hbeside q (hbefore q hq p List.mem_cons_self) k hk
  · rw [List.foldl_append, List.foldl_cons]
    exact commitPlan_outside hspace (wf_commitBytes s _ p hw0)
      (fun q hq => hp q (List.mem_append_right _ (List.mem_cons_of_mem _ hq)))
      fun q hq => hbeside q (hafter q hq).symm k hk

end

/-! ### The plan of a picture -/

theorem picturePlan_filler {s : State} {r : PicRecord} {p : Planned} (h : p ∈ picturePlan s r) {head : List Byte}
    {budget : Nat} {df : Bool} (hc : p.content = .filler head budget df) :
    p.span.len = min (s.sbCap.toNat - p.span.off) (max (head.length + 1) budget) := by
  rw [picturePlan, planWithFiller, planBeforeFiller, List.mem_append, List.mem_append, List.mem_append] at h
  rcases h with ((hconfig | hpart) | hfiller) | hsentinel
  · obtain ⟨x, -, c, -, -, rfl⟩ := mem_placeConfig hconfig
    cases hc
  · obtain ⟨y, -, rfl⟩ := List.mem_map.1 hpart
    cases hc
  · rw [fillerPlan, List.mem_ite_nil_right, List.mem_ite_nil_right, List.mem_singleton] at hfiller
    obtain ⟨-, -, rfl⟩ := hfiller
    cases hc
    exact fillerLanded_eq s r _
  · rw [sentinelPlan, List.mem_ite_nil_right, List.mem_singleton] at hsentinel
    obtain ⟨-, rfl⟩ := hsentinel
    cases hc

theorem PictureFits.placed {s : State} {r : PicRecord} (h : PictureFits s r) : ∀ p ∈ picturePlan s r, p.Placed s :=
  fun p hp => ⟨h.fits.inside _ (List.mem_map_of_mem hp), picturePlan_sized s r p hp,
    fun _ _ _ => picturePlan_filler hp⟩

/-- Settles O50: every section is written alone, and its own commit gives its bytes. -/
theorem pictureBytesLand : Obligations.PictureBytesLand := by
  intro s rec hw hsb hready r hfits
  have hspace := hsb.end_le hready.bound
  have hplaced := hfits.placed
  refine ⟨_, hready.exec_eq.trans (pictureFlow_commits _ hfits.checked), fun p hp bs hbs => ?_,
    fun p hp head budget df hf => ?_, fun a ha => commitPlan_outside hspace hw hplaced ha⟩
  · obtain ⟨m0, hw0, halone⟩ := commitPlan_alone hspace hw hplaced hfits.fits.within hp
    have hlands := commitBytes_lands hspace hw0 (hplaced p hp)
    exact (readBytes_congr _ _ _ _ fun k hk => (halone k hk).2).trans (hlands.bytes bs hbs)
  · obtain ⟨m0, hw0, halone⟩ := commitPlan_alone hspace hw hplaced hfits.fits.within hp
    have hlands := commitBytes_lands hspace hw0 (hplaced p hp)
    intro fill k b hk hb
    obtain ⟨hbefore, hafter⟩ := halone k hk
    rw [← hbefore]
    exact hafter.trans (hlands.filler head budget df hf k b hk hb)

end Sys2Proof.Machine
end

section
/-! Where SEC_ADDSEI places its section (42_sections.md R275, R276), and what it does where it cannot (R274, R277). -/

namespace Sys2Proof.Machine

/-! ### Flags as bits (10_state.md R48) -/

/-- A section carries a one-bit flag when that bit of FLAGS is set. -/
theorem has_twoPow (x : Section) {i : Nat} (hi : i < 32) : x.has (BitVec.twoPow 32 i) = x.flags.getLsbD i := by
  have hne : BitVec.twoPow 32 i ≠ 0#32 := fun h => by
    have hbit := congrArg (BitVec.getLsbD · i) h
    simp [hi] at hbit
  rw [Section.has, BitVec.and_twoPow]
  cases x.flags.getLsbD i
  · rfl
  · exact decide_eq_true hne

theorem has_endOfFrame (x : Section) : x.has secEndOfFrame = x.flags.getLsbD 0 := has_twoPow x (i := 0) (by decide)
theorem has_config (x : Section) : x.has secConfig = x.flags.getLsbD 1 := has_twoPow x (i := 1) (by decide)
theorem has_seiPrefix (x : Section) : x.has secSeiPrefix = x.flags.getLsbD 3 := has_twoPow x (i := 3) (by decide)

/-! ### The last entry with a flag (R275) -/

theorem afterLastWith_eq_none {flag : Word} {t : List Section} (h : ∀ y ∈ t, y.has flag = false) :
    afterLastWith flag t = none := by
  induction t with
  | nil => rfl
  | cons y rest ih =>
    obtain ⟨hy, hrest⟩ := List.forall_mem_cons.1 h
    rw [afterLastWith, ih hrest, hy]
    rfl

theorem afterLastWith_eq_some {flag : Word} {t : List Section} {j : Nat} {x : Section} (hx : t[j]? = some x)
    (hflag : x.has flag = true) (hlast : ∀ k y, j < k → t[k]? = some y → y.has flag = false) :
    afterLastWith flag t = some (j + 1, x.offset.toNat + x.length.toNat) := by
  induction t generalizing j with
  | nil => cases hx
  | cons y rest ih =>
    cases j with
    | zero =>
      obtain rfl : y = x := Option.some.inj hx
      have hrest : ∀ z ∈ rest, z.has flag = false := fun z hz => by
        obtain ⟨k, hk⟩ := List.getElem?_of_mem hz
        exact hlast (k + 1) z (Nat.succ_pos k) hk
      rw [afterLastWith, afterLastWith_eq_none hrest, hflag]
      rfl
    | succ j =>
      rw [afterLastWith, ih hx fun k z hk hz => hlast (k + 1) z (Nat.succ_lt_succ hk) hz]

section
variable {s : State}

theorem prefixPlace_afterPrefix {p : Nat × Nat} (h : afterLastWith secSeiPrefix s.sections = some p) :
    prefixPlace s = p := by
  rw [prefixPlace, h]

variable (hno : afterLastWith secSeiPrefix s.sections = none)
include hno

theorem prefixPlace_afterConfig {p : Nat × Nat} (h : afterLastWith secConfig s.sections = some p) : prefixPlace s = p := by
  rw [prefixPlace, hno, h]

theorem prefixPlace_first (h : afterLastWith secConfig s.sections = none) : prefixPlace s = (0, s.sbHdrBase.toNat) := by
  rw [prefixPlace, hno, h]

end

/-! ### The sentinel (R276) -/

theorem endsInSentinel_concat (others : List Section) (x : Section) :
    endsInSentinel (others ++ [x]) = true ↔ x.length = 0#32 ∧ x.flags.getLsbD 0 = true := by
  rw [endsInSentinel, List.getLast?_concat, Bool.and_eq_true, decide_eq_true_iff, has_endOfFrame]

/-- Settles O51: a prefix SEI by the last entry with a flag, a suffix SEI by the last entry. -/
theorem seiPlacement : Obligations.SeiPlacement := by
  intro s
  refine ⟨fun j x hx hflag hlast => ?_, fun hno => ⟨fun j x hx hflag hlast => ?_, fun hnone => ?_⟩, rfl,
    fun others x hs hlen hflag => ?_, fun hend => ?_⟩
  · simp only [← has_seiPrefix] at hflag hlast
    exact prefixPlace_afterPrefix (afterLastWith_eq_some hx hflag hlast)
  · simp only [← has_seiPrefix, ← has_config] at hno hflag hlast
    exact prefixPlace_afterConfig (afterLastWith_eq_none hno) (afterLastWith_eq_some hx hflag hlast)
  · simp only [← has_seiPrefix, ← has_config] at hno hnone
    exact prefixPlace_first (afterLastWith_eq_none hno) (afterLastWith_eq_none hnone)
  · have hsentinel := (endsInSentinel_concat others x).2 ⟨hlen, hflag⟩
    rw [← hs] at hsentinel
    refine (if_pos hsentinel).trans ?_
    rw [hs, List.length_append]
    rfl
  · have hsentinel : ¬endsInSentinel s.sections = true := by
      rcases List.eq_nil_or_concat s.sections with hnil | ⟨others, x, hs⟩
      · rw [hnil]; exact nofun
      · rw [List.concat_eq_append] at hs
        rw [hs, endsInSentinel_concat]
        rintro ⟨hlen, hflag⟩
        rcases hend others x hs with hne | hclear
        · exact hne hlen
        · rw [hclear] at hflag; cases hflag
    exact if_neg hsentinel

/-! ### A placement that fails (R277) -/

/-- A section of nonzero length that shares a byte with a range. -/
theorem overlaps_of_meets {x : Section} {off len : Nat} (hx : x.length ≠ 0#32)
    (hfirst : off < x.offset.toNat + x.length.toNat) (hlast : x.offset.toNat < off + len) :
    0 < (sectionSpan x).len ∧ overlaps { off := off, len := len } (sectionSpan x) = true :=
  ⟨BitVec.toNat_pos_of_ne_zero hx, decide_eq_true ⟨hfirst, hlast⟩⟩

theorem exec_secAddsei_unplaced {s : State} {sfx : Bool} {ptype : BitVec 16} {src size : Word} (hv : s.sbValid = true)
    (hc : s.cfgCodec ≠ .other) (ha : Admitted s.memMap src.toNat size.toNat)
    {nb : List Byte} (hnb : addSeiBytes s sfx ptype (readBytes s.mem src.toNat size.toNat) = nb)
    (hfails : (sfx = true ∧ s.cfgCodec = .avc) ∨ ¬addSeiFits s sfx nb.length = true) :
    exec (.secAddsei sfx ptype src size) s = .next { s with res := 0xFFFFFFFF#32, cmdSeq := s.cmdSeq + 1#32 } := by
  rw [exec, execSecAddsei, if_pos hv, if_neg hc, (admitFail_eq_none_iff _ _ _).2 ha]
  simp only [hnb]
  split
  · rfl
  · rw [if_neg (hfails.resolve_left ‹_›)]
    rfl

/-- Settles O53: the checks of R274, then each reason of R277 that a placement fails. -/
theorem seiInsertionFails : Obligations.SeiInsertionFails := by
  refine fun s sfx ptype src size => ⟨fun hv => ?_, fun hv hc => ?_, ?_⟩
  · rw [exec, execSecAddsei, hv, if_neg Bool.false_ne_true]
  · rw [exec, execSecAddsei, if_pos hv, if_pos hc]
  · intro hv hc ha msg hb nb off limit hreason
    have hnb : addSeiBytes s sfx ptype (readBytes s.mem src.toNat size.toNat) = nb := addSeiBytes_eq sfx ptype _ hc
    refine exec_secAddsei_unplaced hv hc ha hnb (hreason.imp_right fun hplace hfits => ?_)
    obtain ⟨hlimit, hroom, hapart⟩ := (addSeiFits_iff _ _ _).1 hfits
    rcases hplace with hpast | hfull | ⟨x, hx, hlen, hfirst, hlast⟩
    · exact absurd hlimit (Nat.not_le.2 hpast)
    · exact hroom hfull
    · exact hapart x hx (overlaps_of_meets hlen hfirst hlast)

end Sys2Proof.Machine
end

section
/-! ROI_ADD, ROI_CLEAR and ROI_DESTROY (43_roi_qp.md R322 to R326): where a node enters the list, the clipped rectangle, the
registers of a destroyed context, and the commands without one. -/

namespace Sys2Proof.Machine

/-! ### Without a context (R326) -/

section
variable {s : State} (hv : s.roi.valid = false)
include hv

theorem exec_roiAdd_notInitialised (x y w h q : Word) :
    exec (.roiAdd x y w h q) s = raise (.roiAdd x y w h q) .notInitialised s := by
  rw [exec, execRoiAdd, hv, if_neg Bool.false_ne_true]

theorem exec_roiClear_notInitialised : exec .roiClear s = raise .roiClear .notInitialised s := by
  rw [exec, execRoiClear, hv, if_neg Bool.false_ne_true]

theorem exec_roiDestroy_notInitialised : exec .roiDestroy s = raise .roiDestroy .notInitialised s := by
  rw [exec, execRoiDestroy, hv, if_neg Bool.false_ne_true]

variable {qpn bpl : BitVec 8} (hl : qpLayoutOk qpn bpl = true) (dst : Word)
include hl

theorem exec_roiFill_notInitialised :
    exec (.roiFill qpn bpl dst) s = raise (.roiFill qpn bpl dst) .notInitialised s := by
  rw [exec, execRoiFill, if_pos hl, hv, if_neg Bool.false_ne_true]

theorem exec_qpFlat_notInitialised (v : Word) :
    exec (.qpFlat qpn bpl dst v) s = raise (.qpFlat qpn bpl dst v) .notInitialised s := by
  rw [exec, execQpFlat, if_pos hl, hv, if_neg Bool.false_ne_true]

theorem exec_qpLoad_notInitialised (src n : Word) :
    exec (.qpLoad qpn bpl dst src n) s = raise (.qpLoad qpn bpl dst src n) .notInitialised s := by
  rw [exec, execQpLoad, if_pos hl, hv, if_neg Bool.false_ne_true]

end

/-! ### A cleared list and a destroyed context (R325, R326) -/

theorem exec_roiClear_completes {s : State} (hv : s.roi.valid = true) :
    exec .roiClear s = .next { s with nodes := [], cmdSeq := s.cmdSeq + 1#32 } := by
  rw [exec, execRoiClear, if_pos hv]
  rfl

theorem exec_roiDestroy_completes {s : State} (hv : s.roi.valid = true) :
    exec .roiDestroy s = .next { s with roi := RoiContext.reset, nodes := [], cmdSeq := s.cmdSeq + 1#32 } := by
  rw [exec, execRoiDestroy, if_pos hv]
  rfl

/-- The registers of the ROI context (10_state.md R52). -/
def roiRegs : List RegName :=
  [.roiValid, .roiPicW, .roiPicH, .roiLog2Lcu, .roiLcuW, .roiLcuH, .roiBg, .roiMode, .roiCount, .roiCodec]

/-- R55: numbers 0x050 to 0x059 are the ROI context's. -/
theorem regOfNat_roi {n : Nat} (h : n ∈ List.range' 0x050 10) : ∃ r ∈ roiRegs, regOfNat n = some r := by
  have hall : ∀ k ∈ List.range' 0x050 10, ∃ r ∈ roiRegs, regOfNat k = some r := by decide
  exact hall n h

theorem readReg_roi_destroyed {s : State} (hroi : s.roi = RoiContext.reset) (hnodes : s.nodes = []) :
    ∀ r ∈ roiRegs, readReg s r = 0#32 := by
  simp only [roiRegs, List.forall_mem_cons, readReg, hroi, hnodes]
  exact ⟨rfl, rfl, rfl, rfl, rfl, rfl, rfl, rfl, rfl, rfl, nofun⟩

/-- Settles O57: one lemma for each command with and without a context, and the registers by their numbers. -/
theorem roiClearAndDestroy : Obligations.RoiClearAndDestroy := by
  refine fun s => ⟨fun hv => ⟨exec_roiClear_completes hv, _, exec_roiDestroy_completes hv, rfl, rfl, fun n hlo hhi => ?_⟩,
    fun hv => ⟨exec_roiClear_notInitialised hv, exec_roiDestroy_notInitialised hv, exec_roiAdd_notInitialised hv,
      fun qpn bpl dst h1 h2 => ?_⟩⟩
  · obtain ⟨r, hr, hreg⟩ := regOfNat_roi (List.mem_range'_1.2 ⟨hlo, Nat.lt_succ_of_le hhi⟩)
    exact (readPort_of_regOfNat _ hreg).trans (readReg_roi_destroyed rfl rfl r hr)
  · have hl : qpLayoutOk qpn bpl = true := decide_eq_true ⟨h1, h2⟩
    exact ⟨exec_roiFill_notInitialised hv hl dst, exec_qpFlat_notInitialised hv hl dst,
      exec_qpLoad_notInitialised hv hl dst⟩

/-! ### The place of a new node (R324) -/

/-- R324: a node enters the list between the nodes of greater DQP and the first of the others, or at the tail. -/
structure Inserted (mode : RoiMode) (n : RoiNode) (l before after : List RoiNode) : Prop where
  whole    : insertNode mode n l = before ++ n :: after
  rest     : l = before ++ after
  incoming : mode = .incoming → after = []
  quality  : mode = .quality → (∀ m ∈ before, dqp n.code < dqp m.code) ∧
    ∀ m, after.head? = some m → dqp m.code ≤ dqp n.code

theorem insertByQuality_inserted (n : RoiNode) (l : List RoiNode) :
    ∃ before after, Inserted .quality n l before after := by
  induction l with
  | nil => exact ⟨[], [], rfl, rfl, nofun, fun _ => ⟨nofun, nofun⟩⟩
  | cons x t ih =>
    by_cases hlt : dqp n.code < dqp x.code
    · obtain ⟨before, after, hwhole, hrest, -, hquality⟩ := ih
      obtain ⟨hbefore, hafter⟩ := hquality rfl
      refine ⟨x :: before, after, (if_pos hlt).trans (congrArg (x :: ·) hwhole), congrArg (x :: ·) hrest, nofun,
        fun _ => ⟨List.forall_mem_cons.2 ⟨hlt, hbefore⟩, hafter⟩⟩
    · refine ⟨[], x :: t, if_neg hlt, rfl, nofun, fun _ => ⟨nofun, fun m hm => ?_⟩⟩
      obtain rfl : x = m := Option.some.inj hm
      exact not_lt.1 hlt

theorem insertNode_inserted (mode : RoiMode) (n : RoiNode) (l : List RoiNode) :
    ∃ before after, Inserted mode n l before after := by
  cases mode with
  | incoming => exact ⟨l, [], rfl, (List.append_nil l).symm, fun _ => rfl, nofun⟩
  | quality => exact insertByQuality_inserted n l

/-! ### The clipped rectangle (R322, R323) -/

section
variable {c : RoiContext} {x y : Word}

theorem roiInside_iff : roiInside c x y = true ↔
    x.toNat / 2 ^ c.log2Lcu.toNat < c.lcuW.toNat ∧ y.toNat / 2 ^ c.log2Lcu.toNat < c.lcuH.toNat := by
  simp only [roiInside, Bool.and_eq_true, decide_eq_true_eq, Nat.shiftRight_eq_div_pow]

/-- The node of a rectangle that begins inside the grid, as the numbers of R322. -/
theorem toNat_roiNodeOf (hin : roiInside c x y = true) (code : Byte) (w h : Word) :
    let n := roiNodeOf c code x y w h
    n.x0.toNat = x.toNat / 2 ^ c.log2Lcu.toNat ∧ n.y0.toNat = y.toNat / 2 ^ c.log2Lcu.toNat ∧
      n.w.toNat = min (ceilShift w.toNat c.log2Lcu.toNat) (c.lcuW.toNat - x.toNat / 2 ^ c.log2Lcu.toNat) ∧
      n.h.toNat = min (ceilShift h.toNat c.log2Lcu.toNat) (c.lcuH.toNat - y.toNat / 2 ^ c.log2Lcu.toNat) := by
  obtain ⟨hx, hy⟩ := roiInside_iff.1 hin
  simp only [roiNodeOf, Nat.shiftRight_eq_div_pow]
  exact ⟨toNat_ofNat_of_le _ _ hx.le, toNat_ofNat_of_le _ _ hy.le,
    toNat_ofNat_of_le _ _ ((Nat.min_le_right _ _).trans (Nat.sub_le _ _)),
    toNat_ofNat_of_le _ _ ((Nat.min_le_right _ _).trans (Nat.sub_le _ _))⟩

end

/-! ### The command -/

section
variable {s : State} {x y w h q : Word} (hv : s.roi.valid = true)
include hv

theorem exec_roiAdd_outside (hout : ¬roiInside s.roi x y = true) :
    exec (.roiAdd x y w h q) s = .next { s with res := 0#32, cmdSeq := s.cmdSeq + 1#32 } := by
  rw [exec, execRoiAdd, if_pos hv, if_neg hout]
  rfl

variable (hin : roiInside s.roi x y = true)
include hin

theorem exec_roiAdd_full (hfull : s.nodes.length = s.params.maxRoi.toNat) :
    exec (.roiAdd x y w h q) s = raise (.roiAdd x y w h q) .roiFull s := by
  rw [exec, execRoiAdd, if_pos hv, if_pos hin, if_pos hfull]

theorem exec_roiAdd_inserts (hroom : s.nodes.length ≠ s.params.maxRoi.toNat) :
    exec (.roiAdd x y w h q) s = .next { s with
      nodes := insertNode s.roi.mode (roiNodeOf s.roi (encodeQuality s.params (qualityArg q)) x y w h) s.nodes,
      res := 1#32, cmdSeq := s.cmdSeq + 1#32 } := by
  rw [exec, execRoiAdd, if_pos hv, if_pos hin, if_neg hroom]
  rfl

end

/-- Settles O56: the checks in order, then the node's numbers, its code and its place. -/
theorem roiAddInserts : Obligations.RoiAddInserts := by
  intro s x y w h q lcu inside
  refine ⟨fun hv => exec_roiAdd_notInitialised hv x y w h q, fun hv hout => exec_roiAdd_outside hv (roiInside_iff.not.2 hout),
    fun hv hin => exec_roiAdd_full hv (roiInside_iff.2 hin), fun hv hin hroom => ?_⟩
  have hins := roiInside_iff.2 hin
  let n := roiNodeOf s.roi (encodeQuality s.params (qualityArg q)) x y w h
  obtain ⟨before, after, hplace⟩ := insertNode_inserted s.roi.mode n s.nodes
  obtain ⟨hx, hy, hw, hh⟩ := toNat_roiNodeOf hins (encodeQuality s.params (qualityArg q)) w h
  refine ⟨n, before, after, ?_, hplace.rest, hx, hy, hw, hh, encodeQuality_qualityArg s.params q, hplace.incoming,
    hplace.quality⟩
  rw [exec_roiAdd_inserts hv hins hroom, ← hplace.whole]

end Sys2Proof.Machine
end

section
/-! What the commands over the QP buffer leave in memory (43_roi_qp.md R327 to R333): the bytes that keep, the cells that hold
one value, and the table that is copied. -/

namespace Sys2Proof.Machine

/-! ### The bytes that are no cell's -/

/-- An address that is none of the first QPN bytes of any cell's group (R327). -/
def OffCells (q : QpLayout) (a : Nat) : Prop :=
  ∀ x y k, x < q.lcuW → y < q.lcuH → k < q.qpn → a ≠ groupAddr q x y + k

/-- Steps that each keep a byte keep it together. -/
theorem readByte_foldl_kept {β : Type} {f : Memory → β → Memory} {a : Nat} {l : List β} (m : Memory)
    (h : ∀ m, ∀ x ∈ l, readByte (f m x) a = readByte m a) : readByte (l.foldl f m) a = readByte m a :=
  List.foldlRecOn l f (motive := fun m' => readByte m' a = readByte m a) rfl
    fun m' hm x hx => (h m' x hx).trans hm

section
variable {q : QpLayout} {a : Nat} (ha : OffCells q a)
include ha

theorem OffCells.outside {x y : Nat} (hx : x < q.lcuW) (hy : y < q.lcuH) :
    a < groupAddr q x y ∨ groupAddr q x y + q.qpn ≤ a := by
  by_contra hin
  exact ha x y (a - groupAddr q x y) hx hy (by omega) (by omega)

theorem readByte_rewriteCells_off (f : Byte → Byte) (m : Memory) {cells : List (Nat × Nat)}
    (hcells : ∀ c ∈ cells, c.1 < q.lcuW ∧ c.2 < q.lcuH) :
    readByte (cells.foldl (rewriteCell q f) m) a = readByte m a :=
  readByte_rewriteCells_outside q f cells m a fun c hc => ha.outside (hcells c hc).1 (hcells c hc).2

theorem readByte_fillGrid_off (v : Byte) (m : Memory) :
    readByte (fillCells q v (gridCells q) m) a = readByte m a :=
  readByte_rewriteCells_off ha (fun _ => v) m fun c hc => (mem_gridCells q c).1 hc

theorem readByte_loadGrid_off (table : List Byte) (m : Memory) :
    readByte (loadCells q table (gridCells q) m) a = readByte m a := by
  refine readByte_foldl_kept m fun m c hc => readByte_writeBytes_outside _ _ _ _ ?_
  obtain ⟨hx, hy⟩ := (mem_gridCells q c).1 hc
  have hlen : ((table.drop ((c.2 * q.lcuW + c.1) * q.qpn)).take q.qpn).length ≤ q.qpn := List.length_take_le _ _
  exact (ha.outside hx hy).imp_right fun h => by omega

section
variable {n : RoiNode} (hnx : n.x0.toNat + n.w.toNat ≤ q.lcuW) (hny : n.y0.toNat + n.h.toNat ≤ q.lcuH)
include hnx hny

theorem readByte_drawNode_off (m : Memory) : readByte (drawNode q n m) a = readByte m a := by
  refine readByte_rewriteCells_off ha (fun _ => n.code) m fun c hc => ?_
  rw [mem_rectCells] at hc
  omega

theorem readByte_smoothNode_off (p : Params) (codec : Codec) (m : Memory) :
    readByte (smoothNode p codec q n m) a = readByte m a := by
  rw [smoothNode]
  split
  · rfl
  · rename_i hsize
    simp only [not_or] at hsize
    obtain ⟨-, hw, hh⟩ := hsize
    refine readByte_rewriteCells_off ha (fun old => smoothValue p codec old n.code) m fun c hc => ?_
    obtain ⟨hx, hy, -⟩ :=
      (mem_haloCells q n c hnx hny (BitVec.toNat_pos_of_ne_zero hw) (BitVec.toNat_pos_of_ne_zero hh)).1 hc
    exact ⟨hx, hy⟩

theorem readByte_applyNode_off (p : Params) (codec : Codec) (m : Memory) :
    readByte (applyNode p codec q m n) a = readByte m a :=
  (readByte_smoothNode_off ha hnx hny p codec _).trans (readByte_drawNode_off ha hnx hny m)

end

theorem readByte_roiFillMemory_off {s : State} (hnodes : ∀ n ∈ s.nodes, n.x0.toNat + n.w.toNat ≤ q.lcuW ∧
    n.y0.toNat + n.h.toNat ≤ q.lcuH) : readByte (roiFillMemory s q) a = readByte s.mem a := by
  refine (readByte_foldl_kept _ fun m n hn => ?_).trans (readByte_fillGrid_off ha _ _)
  obtain ⟨hnx, hny⟩ := hnodes n hn
  exact readByte_applyNode_off ha hnx hny _ _ m

end

/-! ### The bytes of a cell -/

/-- A layout whose groups hold the QPN bytes and lie in the address space (R327). -/
structure QpLayout.Ok (q : QpLayout) : Prop where
  group : 1 ≤ q.qpn ∧ q.qpn ≤ q.bpl
  space : q.dst + qpRangeLen q ≤ addressSpace

/-- Every one of a cell's QPN bytes is `v`. -/
def CellHolds (q : QpLayout) (x y : Nat) (v : Byte) (m : Memory) : Prop :=
  ∀ k, k < q.qpn → readByte m (groupAddr q x y + k) = v

section
variable {q : QpLayout} (hq : q.Ok) {x y : Nat} (hx : x < q.lcuW) (hy : y < q.lcuH) {m : Memory} (hw : m.wf = true)
include hq hx hy hw

theorem fillGrid_cellHolds (v : Byte) : CellHolds q x y v (fillCells q v (gridCells q) m) := fun k hk =>
  readByte_rewriteCells_mem q (fun _ => v) (gridCells q) m x y k hw hq.group.2 hq.space hk
    (fun c hc => (mem_gridCells q c).1 hc) (nodup_rectCells ..) ((mem_gridCells q (x, y)).2 ⟨hx, hy⟩)

/-- R329 to R331: drawing and smoothing a node takes a cell's value to `cellAfterNode` of it. -/
theorem applyNode_cellHolds (p : Params) (codec : Codec) {n : RoiNode} {v : Byte}
    (hnx : n.x0.toNat + n.w.toNat ≤ q.lcuW) (hny : n.y0.toNat + n.h.toNat ≤ q.lcuH) (hv : CellHolds q x y v m) :
    CellHolds q x y (cellAfterNode p codec x y v n) (applyNode p codec q m n) := by
  intro k hk
  have drawn : ∀ j, j < q.qpn → readByte (drawNode q n m) (groupAddr q x y + j) = if nodeCovers n x y then n.code else v :=
    fun j hj => by rw [readByte_drawNode q n m x y j hw hq.group.2 hq.space hj hnx hny hx, hv j hj]
  rw [applyNode, readByte_smoothNode p codec q n _ x y k (wf_drawNode q n m hw) hq.group.2 hq.space hk hnx hny hx hy,
    drawn k hk, show readByte (drawNode q n m) (groupAddr q x y) = _ from drawn 0 hq.group.1, cellAfterNode]
  by_cases hc : nodeCovers n x y
  · rw [if_pos hc, if_pos hc, if_neg fun h => h.1 hc]
  · rw [if_neg hc, if_neg hc]
    exact if_congr (and_iff_right hc) rfl rfl

theorem applyNodes_cellHolds (p : Params) (codec : Codec) {l : List RoiNode} {v : Byte}
    (hnodes : ∀ n ∈ l, n.x0.toNat + n.w.toNat ≤ q.lcuW ∧ n.y0.toNat + n.h.toNat ≤ q.lcuH) (hv : CellHolds q x y v m) :
    CellHolds q x y (l.foldl (cellAfterNode p codec x y) v) (l.foldl (applyNode p codec q) m) := by
  induction l generalizing v m with
  | nil => exact hv
  | cons n t ih =>
    obtain ⟨⟨hnx, hny⟩, ht⟩ := List.forall_mem_cons.1 hnodes
    exact ih (wf_smoothNode p codec q n _ (wf_drawNode q n m hw)) ht (applyNode_cellHolds hq hx hy hw p codec hnx hny hv)

end

theorem roiFillMemory_cellHolds {s : State} {q : QpLayout} (hq : q.Ok) (hw : s.mem.wf = true)
    (hnodes : ∀ n ∈ s.nodes, n.x0.toNat + n.w.toNat ≤ q.lcuW ∧ n.y0.toNat + n.h.toNat ≤ q.lcuH) {x y : Nat}
    (hx : x < q.lcuW) (hy : y < q.lcuH) :
    CellHolds q x y (s.nodes.foldl (cellAfterNode s.params s.roi.codec x y) s.roi.bg) (roiFillMemory s q) :=
  applyNodes_cellHolds hq hx hy (wf_rewriteCells q (fun _ => s.roi.bg) _ _ hw) s.params s.roi.codec hnodes
    (fillGrid_cellHolds hq hx hy hw s.roi.bg)

/-! ### The copied table (R333) -/

/-- A part of a range of bytes, as the bytes of that part of the range. -/
theorem take_drop_readBytes (m : Memory) (a : Nat) {n i j : Nat} (h : i + j ≤ n) :
    ((readBytes m a n).drop i).take j = readBytes m (a + i) j := by
  refine List.ext_getElem (by simp only [List.length_take, List.length_drop, length_readBytes]; omega) fun k h1 h2 => ?_
  rw [List.getElem_take, List.getElem_drop, getElem_readBytes, getElem_readBytes, Nat.add_assoc]

/-- A cell's part of the table lies inside the table, which is a QP buffer whose groups are QPN bytes long. -/
theorem tablePart_inside (q : QpLayout) {x y : Nat} (hx : x < q.lcuW) (hy : y < q.lcuH) :
    (y * q.lcuW + x) * q.qpn + q.qpn ≤ qpTableLen q := by
  simpa only [groupAddr, qpRangeLen, qpTableLen, Nat.zero_add] using
    group_inside { q with dst := 0, bpl := q.qpn } x y hx hy

section
variable {q : QpLayout} (hq : q.Ok) {x y k : Nat} (hk : k < q.qpn)
include hq hk

/-- The copy of the table to other cells keeps a cell's bytes. -/
theorem readByte_loadCells_other (table : List Byte) {cells : List (Nat × Nat)} (m : Memory) (hx : x < q.lcuW)
    (hcells : ∀ c ∈ cells, c.1 < q.lcuW) (hc : (x, y) ∉ cells) :
    readByte (loadCells q table cells m) (groupAddr q x y + k) = readByte m (groupAddr q x y + k) := by
  refine readByte_foldl_kept m fun m c hmem => readByte_writeBytes_outside _ _ _ _ ?_
  have hgroup := hq.group.2
  have hlen : ((table.drop ((c.2 * q.lcuW + c.1) * q.qpn)).take q.qpn).length ≤ q.qpn := List.length_take_le _ _
  have hne : ¬(x = c.1 ∧ y = c.2) := fun h => hc ((Prod.ext h.1 h.2 : (x, y) = c) ▸ hmem)
  rcases group_apart q x y c.1 c.2 hx (hcells c hmem) hne with hbefore | hafter
  · exact .inl (by omega)
  · exact .inr (by omega)

/-- R333: every cell of the list gets its part of the table. -/
theorem readByte_loadCells_mem (m0 : Memory) (src : Nat) {cells : List (Nat × Nat)} {m : Memory} (hw : m.wf = true)
    (hcells : ∀ c ∈ cells, c.1 < q.lcuW ∧ c.2 < q.lcuH) (hc : (x, y) ∈ cells) :
    readByte (loadCells q (readBytes m0 src (qpTableLen q)) cells m) (groupAddr q x y + k) =
      readByte m0 (src + ((y * q.lcuW + x) * q.qpn + k)) := by
  induction cells generalizing m with
  | nil => cases hc
  | cons c t ih =>
    obtain ⟨⟨hx, hy⟩, ht⟩ := List.forall_mem_cons.1 hcells
    rw [loadCells, List.foldl_cons, ← loadCells, take_drop_readBytes _ _ (tablePart_inside q hx hy)]
    by_cases hlater : (x, y) ∈ t
    · exact ih (wf_writeBytes _ _ _ hw) ht hlater
    · obtain rfl : (x, y) = c := (List.mem_cons.1 hc).resolve_right hlater
      have hend : groupAddr q x y + q.bpl ≤ q.dst + qpRangeLen q := group_inside q x y hx hy
      have hgroup := hq.group.2
      have hspace := hq.space
      rw [readByte_loadCells_other hq hk _ _ hx (fun d hd => (ht d hd).1) hlater,
        readByte_writeBytes_inside _ _ _ _ hw (by rwa [length_readBytes])
          (by rw [length_readBytes]; exact (Nat.add_le_add_left hgroup _).trans (hend.trans hspace)),
        getElem_readBytes, Nat.add_assoc]

end

end Sys2Proof.Machine
end

section
/-! The commands over the QP buffer (43_roi_qp.md R327, R328, R332, R333): each completes when its range is admitted, with what
`QpWrites` says. -/

namespace Sys2Proof.Machine

theorem exec_qpLoad_shortTable {s : State} {qpn bpl : BitVec 8} {dst src n : Word} (hl : qpLayoutOk qpn bpl = true)
    (hv : s.roi.valid = true) (hn : n.toNat < qpTableLen (qpLayout s.roi qpn bpl dst)) :
    exec (.qpLoad qpn bpl dst src n) s = .next { s with res := 1#32, cmdSeq := s.cmdSeq + 1#32 } := by
  rw [exec, execQpLoad, if_pos hl, if_pos hv]
  exact if_pos hn

section
variable {s : State} {qpn bpl : BitVec 8} {dst : Word}

/-- A completed command over the QP buffer, from what its memory holds in the cells and keeps elsewhere. -/
theorem qpWrites_of_mem {m : Memory} {value : Nat → Nat → Nat → Byte}
    (hcells : ∀ x y k, x < s.roi.lcuW.toNat → y < s.roi.lcuH.toNat → k < qpn.toNat →
      readByte m (groupAddr (qpLayout s.roi qpn bpl dst) x y + k) = value x y k)
    (hkept : ∀ a, OffCells (qpLayout s.roi qpn bpl dst) a → readByte m a = readByte s.mem a) :
    QpWrites qpn bpl dst value s { s with mem := m, res := 0#32, cmdSeq := s.cmdSeq + 1#32 } :=
  ⟨rfl, hcells, hkept⟩

variable (h : QpReady s qpn bpl dst)
include h

/-! ### What readiness gives -/

theorem QpReady.layoutOk : qpLayoutOk qpn bpl = true := decide_eq_true h.layout

theorem QpReady.admitFail_eq_none : admitFail s.memMap dst.toNat (qpRangeLen (qpLayout s.roi qpn bpl dst)) = none :=
  (admitFail_eq_none_iff _ _ _).2 h.range

theorem QpReady.qpLayout_ok : (qpLayout s.roi qpn bpl dst).Ok where
  group := h.layout
  space := by
    rcases Nat.eq_zero_or_pos (qpRangeLen (qpLayout s.roi qpn bpl dst)) with hzero | hpos
    · rw [hzero]
      exact dst.isLt.le
    · exact h.range.le_space hpos

theorem QpReady.nodes_inside : ∀ n ∈ s.nodes, n.x0.toNat + n.w.toNat ≤ (qpLayout s.roi qpn bpl dst).lcuW ∧
    n.y0.toNat + n.h.toNat ≤ (qpLayout s.roi qpn bpl dst).lcuH :=
  fun n hn => ⟨(h.roi.nodes n hn).column.2, (h.roi.nodes n hn).row.2⟩

/-! ### The three commands -/

theorem exec_roiFill_writes : ∃ t, exec (.roiFill qpn bpl dst) s = .next t ∧
    QpWrites qpn bpl dst (fun x y _ => s.nodes.foldl (cellAfterNode s.params s.roi.codec x y) s.roi.bg) s t := by
  refine ⟨_, ?_, qpWrites_of_mem
    (fun x y k hx hy hk => roiFillMemory_cellHolds h.qpLayout_ok h.memory h.nodes_inside hx hy k hk)
    fun a ha => readByte_roiFillMemory_off ha h.nodes_inside⟩
  rw [exec, execRoiFill, if_pos h.layoutOk, if_pos h.valid, h.admitFail_eq_none]
  rfl

theorem exec_qpFlat_writes (v : Word) : ∃ t, exec (.qpFlat qpn bpl dst v) s = .next t ∧
    QpWrites qpn bpl dst (fun _ _ _ => encodeQuality s.params (qualityArg v)) s t := by
  refine ⟨_, ?_, qpWrites_of_mem (fun x y k hx hy hk => fillGrid_cellHolds h.qpLayout_ok hx hy h.memory _ k hk)
    fun a ha => readByte_fillGrid_off ha _ _⟩
  rw [exec, execQpFlat, if_pos h.layoutOk, if_pos h.valid, h.admitFail_eq_none]
  rfl

theorem exec_qpLoad_writes {src n : Word} (hn : qpTableLen (qpLayout s.roi qpn bpl dst) ≤ n.toNat)
    (htable : Admitted s.memMap src.toNat (qpTableLen (qpLayout s.roi qpn bpl dst))) :
    ∃ t, exec (.qpLoad qpn bpl dst src n) s = .next t ∧ QpWrites qpn bpl dst
      (fun x y k => readByte s.mem (src.toNat + ((y * s.roi.lcuW.toNat + x) * qpn.toNat + k))) s t := by
  refine ⟨_, ?_, qpWrites_of_mem
    (fun x y k hx hy hk => readByte_loadCells_mem h.qpLayout_ok hk s.mem src.toNat h.memory
      (fun c hc => (mem_gridCells _ c).1 hc) ((mem_gridCells _ (x, y)).2 ⟨hx, hy⟩))
    fun a ha => readByte_loadGrid_off ha _ _⟩
  rw [exec, execQpLoad, if_pos h.layoutOk, if_pos h.valid]
  simp only [if_neg (Nat.not_lt.2 hn), (admitFail_eq_none_iff _ _ _).2 htable, h.admitFail_eq_none]
  rfl

end

/-- Settles O58: the fill with one value, the copy of the table, and the table that is too short. -/
theorem qpBufferCommandsFill : Obligations.QpBufferCommandsFill := by
  refine fun s qpn bpl dst => ⟨fun h => ⟨fun v => ?_, fun src n hn htable => exec_qpLoad_writes h hn htable⟩,
    fun h1 h2 hv src n hn => exec_qpLoad_shortTable (decide_eq_true ⟨h1, h2⟩) hv hn⟩
  obtain ⟨t, hexec, hwrites⟩ := exec_qpFlat_writes h v
  exact ⟨t, _, hexec, hwrites, encodeQuality_qualityArg s.params v⟩

/-- Settles O59: every cell is followed through the nodes, and no other byte is touched. -/
theorem roiFillComputesGrid : Obligations.RoiFillComputesGrid :=
  fun _ _ _ _ h => exec_roiFill_writes h

end Sys2Proof.Machine
end

section
/-! The four properties of a filled grid (43_roi_qp.md R334): DQP as a number, the smoothed byte, and the overlap of two
rectangles, from the order in which their nodes were added. -/

namespace Sys2Proof.Machine

/-! ### DQP (R321) -/

theorem dqp_range (c : Byte) : -32 ≤ dqp c ∧ dqp c ≤ 31 :=
  ⟨BitVec.le_toInt _, Int.le_of_lt_add_one BitVec.toInt_lt⟩

theorem toNat_lowSix (c : Byte) : (c.extractLsb' 0 6).toNat = c.toNat % 64 := BitVec.extractLsb'_toNat 0 6 c

/-- R321: DQP is the low six bits of a code, sign-extended. -/
theorem dqp_eq (c : Byte) :
    dqp c = if c.toNat % 64 < 32 then ((c.toNat % 64 : Nat) : Int) else ((c.toNat % 64 : Nat) : Int) - 64 := by
  rw [dqp, BitVec.toInt_eq_toNat_cond, toNat_lowSix]
  exact if_congr (by omega) rfl rfl

theorem dqp_ofInt {v : Int} (hlo : -32 ≤ v) (hhi : v ≤ 31) : dqp (BitVec.ofInt 8 v) = v := by
  rw [dqp_eq, BitVec.toNat_ofInt]
  omega

/-! ### The smoothed byte (R330) -/

/-- The mean of two DQPs is in the range of DQP, so no codec's QP bounds clip it. -/
theorem clip3_mean (codec : Codec) (old code : Byte) :
    clip3 (floor2 (dqp old + dqp code)) (qpMin codec) (qpMax codec) = (dqp old + dqp code) / 2 := by
  obtain ⟨hlo, hhi⟩ := dqp_range old
  obtain ⟨hlo', hhi'⟩ := dqp_range code
  have hmin : qpMin codec ≤ -32 := by cases codec <;> decide
  have hmax : 31 ≤ qpMax codec := by cases codec <;> decide
  rw [clip3, floor2, if_neg (by omega), if_neg (by omega)]

theorem smoothValue_eq (p : Params) (codec : Codec) (old code : Byte) : smoothValue p codec old code =
    (BitVec.ofInt 8 ((dqp old + dqp code) / 2) &&& 0x3F#8) ||| ((old ||| code) &&& p.fmv0Mask) := by
  rw [smoothValue, clip3_mean, fmv, fmv, BitVec.or_assoc, ← BitVec.and_or_distrib_right]

section
variable {p : Params} (hp : p.Ok)
include hp

/-- R7: the force-MV0 bit is none of the low six. -/
theorem lowSix_fmv0Mask : p.fmv0Mask.extractLsb' 0 6 = 0#6 ∧ 0x3F#8 &&& p.fmv0Mask = 0#8 := by
  obtain ⟨-, -, -, -, hmask, -⟩ := hp
  rcases hmask with h | h <;> rw [h] <;> decide

theorem dqp_smoothValue (codec : Codec) (old code : Byte) :
    dqp (smoothValue p codec old code) = (dqp old + dqp code) / 2 := by
  obtain ⟨hlo, hhi⟩ := dqp_range old
  obtain ⟨hlo', hhi'⟩ := dqp_range code
  have hall : (0x3F#8).extractLsb' 0 6 = BitVec.allOnes 6 := rfl
  calc dqp (smoothValue p codec old code)
      = dqp (BitVec.ofInt 8 ((dqp old + dqp code) / 2)) := by
        rw [smoothValue_eq, dqp, BitVec.extractLsb'_or, BitVec.extractLsb'_and, BitVec.extractLsb'_and,
          (lowSix_fmv0Mask hp).1, hall, BitVec.and_allOnes, BitVec.and_zero, BitVec.or_zero, ← dqp]
    _ = (dqp old + dqp code) / 2 := dqp_ofInt (by omega) (by omega)

theorem smoothValue_and_fmv0Mask (codec : Codec) (old code : Byte) :
    smoothValue p codec old code &&& p.fmv0Mask = (old ||| code) &&& p.fmv0Mask := by
  rw [smoothValue_eq, BitVec.and_or_distrib_right, BitVec.and_assoc, (lowSix_fmv0Mask hp).2, BitVec.and_zero,
    BitVec.zero_or, BitVec.and_assoc, BitVec.and_self]

end

theorem smoothNode_sentinel {p : Params} (codec : Codec) (q : QpLayout) {n : RoiNode} (m : Memory)
    (h : n.code = p.sentinel) : smoothNode p codec q n m = m := if_pos (.inl h)

/-! ### The nodes that matter to one cell -/

section
variable {x y : Nat}

theorem nodeTouches_of_covers {n : RoiNode} (h : nodeCovers n x y) : nodeTouches n x y := by
  obtain ⟨hx0, hx1, hy0, hy1⟩ := h
  refine ⟨fun hw => ?_, fun hh => ?_, by omega, by omega, by omega, by omega⟩
  · rw [hw] at hx1
    exact absurd hx1 (Nat.not_lt.2 hx0)
  · rw [hh] at hy1
    exact absurd hy1 (Nat.not_lt.2 hy0)

theorem cellAfterNode_covers (p : Params) (codec : Codec) (old : Byte) {n : RoiNode} (h : nodeCovers n x y) :
    cellAfterNode p codec x y old n = n.code := if_pos h

theorem cellAfterNode_untouched (p : Params) (codec : Codec) (old : Byte) {n : RoiNode} (h : ¬nodeTouches n x y) :
    cellAfterNode p codec x y old n = old := by
  rw [cellAfterNode, if_neg (mt nodeTouches_of_covers h), if_neg fun ht => h ht.1]

/-- A cell is the same followed through the nodes that touch it. -/
theorem foldl_cellAfterNode_filter (p : Params) (codec : Codec) (v : Byte) (l : List RoiNode) :
    (l.filter fun n => nodeTouches n x y).foldl (cellAfterNode p codec x y) v =
      l.foldl (cellAfterNode p codec x y) v := by
  rw [List.foldl_filter]
  congr
  funext old n
  by_cases h : nodeTouches n x y
  · exact if_pos (decide_eq_true h)
  · rw [cellAfterNode_untouched p codec old h, ite_self]

end

/-! ### Adding commutes with choosing (R324) -/

/-- The order that a mode keeps its list in. -/
def ListOrder (mode : RoiMode) (l : List RoiNode) : Prop := mode = .quality → l.Pairwise QualityOrder

theorem ListOrder.insertNode {mode : RoiMode} {l : List RoiNode} (h : ListOrder mode l) (n : RoiNode) :
    ListOrder mode (insertNode mode n l) := by
  rintro rfl
  exact insertNode_quality_sorted n l (h rfl)

theorem insertByQuality_of_le {n : RoiNode} {l : List RoiNode} (h : ∀ m ∈ l, dqp m.code ≤ dqp n.code) :
    insertByQuality n l = n :: l := by
  cases l with
  | nil => rfl
  | cons m t => exact if_neg (not_lt.2 (h m List.mem_cons_self))

section
variable (p : RoiNode → Bool)

theorem filter_insertByQuality (n : RoiNode) {l : List RoiNode} (h : l.Pairwise QualityOrder) :
    (insertByQuality n l).filter p = if p n then insertByQuality n (l.filter p) else l.filter p := by
  induction l with
  | nil => simp [insertByQuality, List.filter_cons]
  | cons x t ih =>
    obtain ⟨hx, ht⟩ := List.pairwise_cons.1 h
    rw [insertByQuality]
    split
    · rename_i hlt
      have hkeep : insertByQuality n (x :: t.filter p) = x :: insertByQuality n (t.filter p) := if_pos hlt
      rw [List.filter_cons, ih ht, List.filter_cons]
      cases p x with
      | false => rfl
      | true =>
        simp only [if_true, hkeep]
        exact apply_ite (x :: ·) _ _ _
    · rename_i hle
      have hworse : ∀ m ∈ (x :: t).filter p, dqp m.code ≤ dqp n.code := fun m hm => by
        rcases List.mem_cons.1 (List.mem_of_mem_filter hm) with rfl | hmt
        · exact not_lt.1 hle
        · exact (hx m hmt).trans (not_lt.1 hle)
      rw [insertByQuality_of_le hworse, List.filter_cons]

theorem filter_insertNode {mode : RoiMode} (n : RoiNode) {l : List RoiNode} (h : ListOrder mode l) :
    (insertNode mode n l).filter p = if p n then insertNode mode n (l.filter p) else l.filter p := by
  cases mode with
  | incoming => cases hn : p n <;> simp [insertNode, hn]
  | quality => exact filter_insertByQuality p n (h rfl)

/-- The chosen nodes of a list stand as if no other node had been added. -/
theorem filter_foldl_insertNode {mode : RoiMode} (added : List RoiNode) {l : List RoiNode} (h : ListOrder mode l) :
    (added.foldl (fun l n => insertNode mode n l) l).filter p =
      (added.filter p).foldl (fun l n => insertNode mode n l) (l.filter p) := by
  induction added generalizing l with
  | nil => rfl
  | cons n t ih =>
    rw [List.foldl_cons, ih (h.insertNode n), filter_insertNode p n h, List.filter_cons]
    cases p n <;> rfl

end

/-! ### Two entries of a list -/

/-- The first entry that is chosen. -/
theorem filter_eq_cons_drop {α : Type} {p : α → Bool} {l : List α} {i : Nat} {a : α} (hi : l[i]? = some a) (ha : p a = true)
    (hbefore : ∀ k c, k < i → l[k]? = some c → ¬p c = true) : l.filter p = a :: (l.drop (i + 1)).filter p := by
  obtain ⟨hlt, rfl⟩ := List.getElem?_eq_some_iff.1 hi
  refine List.filter_eq_cons_iff.2 ⟨l.take i, l.drop (i + 1), ?_, fun c hc => ?_, ha, rfl⟩
  · rw [List.cons_getElem_drop_succ, List.take_append_drop]
  · obtain ⟨k, hk⟩ := List.getElem?_of_mem hc
    obtain ⟨hki, hkc⟩ := Option.ite_none_right_eq_some.1 (List.getElem?_take.symm.trans hk)
    exact hbefore k c hki hkc

/-- Two entries chosen and no other. -/
theorem filter_eq_pair {α : Type} {p : α → Bool} {l : List α} {i j : Nat} {a b : α} (hij : i < j) (hi : l[i]? = some a)
    (hj : l[j]? = some b) (ha : p a = true) (hb : p b = true)
    (hothers : ∀ k c, k ≠ i → k ≠ j → l[k]? = some c → ¬p c = true) : l.filter p = [a, b] := by
  have hdrop : ∀ k, (l.drop (i + 1))[k]? = l[i + 1 + k]? := fun k => List.getElem?_drop
  have hj' : (l.drop (i + 1))[j - (i + 1)]? = some b := by rw [hdrop, Nat.add_sub_cancel' hij, hj]
  rw [filter_eq_cons_drop hi ha fun k c hk => hothers k c (by omega) (by omega),
    filter_eq_cons_drop hj' hb fun k c hk hc => hothers (i + 1 + k) c (by omega) (by omega) (by rwa [← hdrop]),
    List.filter_eq_nil_iff.2]
  intro c hc
  rw [List.drop_drop] at hc
  obtain ⟨k, hk⟩ := List.getElem?_of_mem hc
  rw [List.getElem?_drop] at hk
  exact hothers _ c (by omega) (by omega) hk

/-! ### The overlap of two rectangles -/

/-- R334: the node that two overlapping rectangles, the second added later, leave in the overlap. -/
def overlapWinner (mode : RoiMode) (a b : RoiNode) : RoiNode :=
  match mode with
  | .incoming => b
  | .quality => if dqp b.code < dqp a.code then b else a

theorem insertNode_pair_getLast (mode : RoiMode) (a b : RoiNode) :
    ∃ n, [a, b].foldl (fun l n => insertNode mode n l) [] = [n, overlapWinner mode a b] := by
  cases mode with
  | incoming => exact ⟨a, rfl⟩
  | quality =>
    by_cases hlt : dqp b.code < dqp a.code
    · exact ⟨a, by simp [insertNode, insertByQuality, overlapWinner, hlt]⟩
    · exact ⟨b, by simp [insertNode, insertByQuality, overlapWinner, hlt]⟩

theorem overlapWinner_covers {mode : RoiMode} {a b : RoiNode} {x y : Nat} (ha : nodeCovers a x y) (hb : nodeCovers b x y) :
    nodeCovers (overlapWinner mode a b) x y := by
  unfold overlapWinner
  split
  · exact hb
  · split
    · exact hb
    · exact ha

/-- R334: a cell that two nodes cover and no other touches ends with the winner's code. -/
theorem overlap_cell (p : Params) (codec : Codec) (v : Byte) {mode : RoiMode} {added : List RoiNode} {i j : Nat}
    {a b : RoiNode} {x y : Nat} (hij : i < j) (hi : added[i]? = some a) (hj : added[j]? = some b) (ha : nodeCovers a x y)
    (hb : nodeCovers b x y) (hothers : ∀ k c, k ≠ i → k ≠ j → added[k]? = some c → ¬nodeTouches c x y) :
    (added.foldl (fun l n => insertNode mode n l) []).foldl (cellAfterNode p codec x y) v =
      (overlapWinner mode a b).code := by
  have htouching : added.filter (fun n => nodeTouches n x y) = [a, b] :=
    filter_eq_pair hij hi hj (decide_eq_true (nodeTouches_of_covers ha)) (decide_eq_true (nodeTouches_of_covers hb))
      fun k c hki hkj hc => by simpa only [decide_eq_true_eq] using hothers k c hki hkj hc
  obtain ⟨n, hpair⟩ := insertNode_pair_getLast mode a b
  rw [← foldl_cellAfterNode_filter, filter_foldl_insertNode _ added fun _ => .nil, htouching, List.filter_nil, hpair]
  exact cellAfterNode_covers p codec _ (overlapWinner_covers ha hb)

/-- Settles O60: the grid is O59's; the overlap by the order of two nodes, the smoothed byte by its bits. -/
theorem roiFillProperties : Obligations.RoiFillProperties := by
  intro s qpn bpl dst h hp
  obtain ⟨t, hexec, hwrites⟩ := exec_roiFill_writes h
  refine ⟨t, hexec, fun added i j a b x y hnodes hij hi hj hx hy ha hb hothers k hk => ?_, fun old code => ?_, dqp_eq,
    fun q n m hn => smoothNode_sentinel s.roi.codec q m hn⟩
  · rw [hwrites.cells x y k hx hy hk, hnodes, overlap_cell s.params s.roi.codec s.roi.bg hij hi hj ha hb hothers]
    cases s.roi.mode with
    | incoming => rfl
    | quality => exact apply_ite RoiNode.code _ _ _
  · have hmean := dqp_smoothValue hp s.roi.codec old code
    obtain ⟨hlo, hhi⟩ := dqp_range (smoothValue s.params s.roi.codec old code)
    exact ⟨hlo, hhi, hmean, smoothValue_and_fmv0Mask hp s.roi.codec old code, smoothValue_eq s.params s.roi.codec old code⟩

end Sys2Proof.Machine
end

section
/-! The control commands (44_control.md R380 to R382): NOP and REG_RD, the values that each writable register takes, and how
REG_WR ends on each register. -/

namespace Sys2Proof.Machine

/-! ### NOP and REG_RD (R380, R381) -/

theorem exec_nop (s : State) : exec .nop s = .next { s with cmdSeq := s.cmdSeq + 1#32 } := rfl

theorem exec_regRd_completes (s : State) {reg : BitVec 16} (h : (regOfNat reg.toNat).isSome = true) :
    exec (.regRd reg) s = .next { s with res := readPort s reg, cmdSeq := s.cmdSeq + 1#32 } := by
  obtain ⟨r, hr⟩ := Option.isSome_iff_exists.1 h
  rw [exec, execRegRd, readPort_of_regOfNat s hr, hr]
  rfl

theorem exec_regRd_regAccess (s : State) {reg : BitVec 16} (h : (regOfNat reg.toNat).isSome = false) :
    exec (.regRd reg) s = raise (.regRd reg) .regAccess s := by
  rw [Option.isSome_eq_false_iff, Option.isNone_iff_eq_none] at h
  rw [exec, execRegRd, h]

/-- Settles O27: NOP by its definition, REG_RD by whether the number names a register. -/
theorem nopAndRegRdComplete : Obligations.NopAndRegRdComplete :=
  fun s => ⟨exec_nop s, fun _ => ⟨exec_regRd_completes s, exec_regRd_regAccess s⟩⟩

/-! ### The words of a coded register (10_state.md R33 to R36) -/

theorem codecWord_of_codecOfWord {v : Word} {c : Codec} (h : codecOfWord v = some c) : codecWord c = v := by
  unfold codecOfWord at h
  split_ifs at h with h0 h1 h2 <;> cases h
  exacts [h0.symm, h1.symm, h2.symm]

theorem scLenWord_of_scLenOfWord {v : Word} {c : ScLen} (h : scLenOfWord v = some c) : scLenWord c = v := by
  unfold scLenOfWord at h
  split_ifs at h with h3 h4 <;> cases h
  exacts [h3.symm, h4.symm]

theorem boolWord_of_boolOfWord {v : Word} {b : Bool} (h : boolOfWord v = some b) : boolWord b = v := by
  unfold boolOfWord at h
  split_ifs at h with h0 h1 <;> cases h
  exacts [h0.symm, h1.symm]

theorem fillerWord_of_fillerOfWord {v : Word} {p : FillerPolicy} (h : fillerOfWord v = some p) : fillerWord p = v := by
  unfold fillerOfWord at h
  split_ifs at h with h0 h1 h2 <;> cases h
  exacts [h0.symm, h1.symm, h2.symm]

theorem codecOfWord_isSome_iff (v : Word) : (codecOfWord v).isSome = true ↔ v.toNat ≤ 2 := by
  simp only [codecOfWord, ← BitVec.toNat_inj, BitVec.toNat_ofNat]
  split_ifs <;> simp <;> omega

theorem scLenOfWord_isSome_iff (v : Word) : (scLenOfWord v).isSome = true ↔ v.toNat = 3 ∨ v.toNat = 4 := by
  simp only [scLenOfWord, ← BitVec.toNat_inj, BitVec.toNat_ofNat]
  split_ifs <;> simp <;> omega

theorem boolOfWord_isSome_iff (v : Word) : (boolOfWord v).isSome = true ↔ v.toNat ≤ 1 := by
  simp only [boolOfWord, ← BitVec.toNat_inj, BitVec.toNat_ofNat]
  split_ifs <;> simp <;> omega

theorem fillerOfWord_isSome_iff (v : Word) : (fillerOfWord v).isSome = true ↔ v.toNat ≤ 2 := by
  simp only [fillerOfWord, ← BitVec.toNat_inj, BitVec.toNat_ofNat]
  split_ifs <;> simp <;> omega

/-! ### The values that a register takes (R382) -/

theorem statusClearOk_iff (v : Word) : statusClearOk v = true ↔ v.toNat < 4 := by
  rw [statusClearOk, decide_eq_true_iff, ← BitVec.toNat_inj, toNat_extractLsb', BitVec.toNat_ofNat]
  omega

theorem seiMaskOk_iff (v : Word) : seiMaskOk v = true ↔ v.toNat < 512 := by
  rw [seiMaskOk, decide_eq_true_iff, ← BitVec.toNat_inj, toNat_extractLsb', BitVec.toNat_ofNat]
  omega

theorem numLayersRefused_iff (s : State) (v : Word) :
    (v = 0#32 ∨ s.params.maxLayers.toNat < v.toNat) ↔ ¬(1 ≤ v.toNat ∧ v.toNat ≤ s.params.maxLayers.toNat) := by
  rw [← BitVec.toNat_inj, BitVec.toNat_ofNat]
  omega

/-- R382: the legal values of a writable register; a register that REG_WR may not name has none. -/
def LegalValue (s : State) (v : Word) : RegName → Prop
  | .status => v.toNat < 4
  | .cfgCodec | .cfgFiller => v.toNat ≤ 2
  | .cfgScLen => v.toNat = 3 ∨ v.toNat = 4
  | .cfgAud => v.toNat ≤ 1
  | .cfgSeiMask => v.toNat < 512
  | .cfgNumLayers => 1 ≤ v.toNat ∧ v.toNat ≤ s.params.maxLayers.toNat
  | .cfgHdrReserve => True
  | _ => False

theorem writeReg_isSome_iff (s : State) (r : RegName) (v : Word) :
    (writeReg s r v).isSome = true ↔ LegalValue s v r := by
  cases r with
  | status => simp only [writeReg, LegalValue, Option.isSome_ite, statusClearOk_iff]
  | cfgCodec => rw [writeReg, Option.isSome_map, codecOfWord_isSome_iff, LegalValue]
  | cfgScLen => rw [writeReg, Option.isSome_map, scLenOfWord_isSome_iff, LegalValue]
  | cfgAud => rw [writeReg, Option.isSome_map, boolOfWord_isSome_iff, LegalValue]
  | cfgFiller => rw [writeReg, Option.isSome_map, fillerOfWord_isSome_iff, LegalValue]
  | cfgSeiMask => simp only [writeReg, LegalValue, Option.isSome_ite, seiMaskOk_iff]
  | cfgNumLayers => simp only [writeReg, LegalValue, numLayersRefused_iff, ite_not, Option.isSome_ite]
  | cfgHdrReserve => exact ⟨fun _ => trivial, fun _ => rfl⟩
  | _ => exact ⟨nofun, nofun⟩

/-! ### How REG_WR ends -/

theorem exec_regWr_regAccess (s : State) (v : Word) {reg : BitVec 16} (h : ¬(regOfNat reg.toNat).any regWritable = true) :
    exec (.regWr reg v) s = raise (.regWr reg v) .regAccess s := by
  rw [exec, execRegWr]
  cases hr : regOfNat reg.toNat with
  | none => rfl
  | some r =>
    rw [hr] at h
    exact if_neg h

section
variable {s : State} {reg : BitVec 16} {r : RegName} {v : Word} (hr : regOfNat reg.toNat = some r)
  (hw : regWritable r = true)
include hr hw

theorem exec_regWr_operandRange (h : ¬LegalValue s v r) :
    exec (.regWr reg v) s = raise (.regWr reg v) .operandRange s := by
  rw [← writeReg_isSome_iff, Bool.not_eq_true, Option.isSome_eq_false_iff, Option.isNone_iff_eq_none] at h
  simp only [exec, execRegWr, hr, if_pos hw, h]

theorem exec_regWr_writes {u : State} (hu : writeReg s r v = some u) :
    exec (.regWr reg v) s = .next { u with cmdSeq := s.cmdSeq + 1#32 } := by
  have hseq : u.cmdSeq = s.cmdSeq := ((control_eq_iff s u).1 (writeReg_control hu)).1
  simp only [exec, execRegWr, hr, if_pos hw, hu, complete, hseq]

/-- A register that holds a code takes the one whose word is written. -/
theorem exec_regWr_decodes {α : Type} {word : α → Word} {decoded : Option α} {set : α → State}
    (hset : writeReg s r v = decoded.map set) (hword : ∀ {c}, decoded = some c → word c = v) (hlegal : LegalValue s v r) :
    ∃ c, word c = v ∧ exec (.regWr reg v) s = .next { set c with cmdSeq := s.cmdSeq + 1#32 } := by
  rw [← writeReg_isSome_iff, hset, Option.isSome_map] at hlegal
  obtain ⟨c, hc⟩ := Option.isSome_iff_exists.1 hlegal
  exact ⟨c, hword hc, exec_regWr_writes hr hw (by rw [hset, hc, Option.map_some])⟩

end

/-- Settles O28: each register's legal values by the write of its row, the others by `LegalValue`, the other numbers by the
map. -/
theorem regWrWrites : Obligations.RegWrWrites := by
  refine fun s v => ⟨fun hv => (exec_regWr_writes (reg := 0x002#16) rfl rfl (if_pos ((statusClearOk_iff v).2 hv)) :),
    (exec_regWr_decodes (s := s) (reg := 0x010#16) rfl rfl rfl codecWord_of_codecOfWord :),
    (exec_regWr_decodes (s := s) (reg := 0x011#16) rfl rfl rfl scLenWord_of_scLenOfWord :),
    (exec_regWr_decodes (s := s) (reg := 0x012#16) rfl rfl rfl boolWord_of_boolOfWord :),
    (exec_regWr_decodes (s := s) (reg := 0x013#16) rfl rfl rfl fillerWord_of_fillerOfWord :),
    fun hv => ⟨v.setWidth 9, ?_, (exec_regWr_writes (reg := 0x014#16) rfl rfl (if_pos ((seiMaskOk_iff v).2 hv)) :)⟩,
    fun hlo hhi => (exec_regWr_writes (reg := 0x015#16) rfl rfl
      (if_neg fun h => (numLayersRefused_iff s v).1 h ⟨hlo, hhi⟩) :),
    (exec_regWr_writes (s := s) (reg := 0x016#16) (v := v) rfl rfl rfl :), fun reg hillegal => ?_, fun reg hne hreg => ?_⟩
  · rw [BitVec.toNat_setWidth, Nat.mod_eq_of_lt hv]
  · rcases hillegal with ⟨rfl, hv⟩ | ⟨rfl | rfl, hv⟩ | ⟨rfl, h3, h4⟩ | ⟨rfl, hv⟩ | ⟨rfl, hv⟩ | ⟨rfl, hv⟩
    · exact exec_regWr_operandRange (r := .status) rfl rfl (Nat.not_lt.2 hv)
    · exact exec_regWr_operandRange (r := .cfgCodec) rfl rfl (Nat.not_le.2 hv)
    · exact exec_regWr_operandRange (r := .cfgFiller) rfl rfl (Nat.not_le.2 hv)
    · exact exec_regWr_operandRange (r := .cfgScLen) rfl rfl (not_or.2 ⟨h3, h4⟩)
    · exact exec_regWr_operandRange (r := .cfgAud) rfl rfl (Nat.not_le.2 hv)
    · exact exec_regWr_operandRange (r := .cfgSeiMask) rfl rfl (Nat.not_lt.2 hv)
    · exact exec_regWr_operandRange (r := .cfgNumLayers) rfl rfl fun ⟨hlo, hhi⟩ => by omega
  · have hne2 : reg.toNat ≠ 0x002 := fun e => hne (BitVec.eq_of_toNat_eq e)
    exact exec_regWr_regAccess s v fun h => by
      have hwritable := (regOfNat_writable_iff reg.toNat).1 h
      omega

end Sys2Proof.Machine
end

section
/-! A halted block (60_exceptions.md R404): it takes the next word off the port, and no register shows the words that wait. -/

namespace Sys2Proof.Machine

theorem step_halted {s : State} (h : s.halted = true) : step s = .next { s with port := s.port.tail } := if_pos h

/-- The waiting words are no part of any register. -/
theorem readReg_port (s : State) (ws : List Word) (r : RegName) : readReg { s with port := ws } r = readReg s r := by
  cases r with
  | writer w f => cases w <;> rfl
  | _ => rfl

theorem readPort_port (s : State) (ws : List Word) (n : BitVec 16) : readPort { s with port := ws } n = readPort s n := by
  rw [readPort, readPort]
  cases regOfNat n.toNat with
  | some r => exact readReg_port s ws r
  | none => rfl

/-- Settles O7: by what a halted block does, with a word waiting and with none. -/
theorem haltedBlockDiscardsWords : Obligations.HaltedBlockDiscardsWords := by
  refine fun s hhalt => ⟨fun h rest hport => ?_, fun hport => ?_, readPort_port s s.port.tail⟩
  · rw [step_halted hhalt, hport, List.tail_cons]
  · rw [step_halted hhalt, hport, List.tail_nil, ← hport]

end Sys2Proof.Machine
end

section
/-! The operand checks that need no state (60_exceptions.md R402): each comes before any check of the state. -/

namespace Sys2Proof.Machine

/-! ### The operands out of range -/

theorem putUnsignedOk_eq_false {n : BitVec 6} {v : Word} (h : 32 < n.toNat ∨ 2 ^ n.toNat ≤ v.toNat) :
    putUnsignedOk n v = false := by
  rw [← Bool.not_eq_true, putUnsignedOk_iff]
  omega

theorem putSignedOk_eq_false {n : BitVec 6} {v : Word} (h : 32 < n.toNat ∨ (n.toNat = 0 ∧ v.toInt ≠ 0) ∨
    (0 < n.toNat ∧ (v.toInt < -2 ^ (n.toNat - 1) ∨ 2 ^ (n.toNat - 1) ≤ v.toInt))) : putSignedOk n v = false := by
  rw [← Bool.not_eq_true, putSignedOk_iff]
  rintro ⟨hwidth, hzero, hvalue⟩
  rcases h with hwide | ⟨hn, hv⟩ | ⟨hpos, hv⟩
  · omega
  · exact hv (hzero hn)
  · obtain ⟨hlo, hhi⟩ := hvalue hpos
    omega

theorem nalHeaderOk_one_eq_false {hdr : BitVec 16} (h : 256 ≤ hdr.toNat) : nalHeaderOk .one hdr = false := by
  refine decide_eq_false fun hhigh => ?_
  have hzero := congrArg BitVec.toNat hhigh
  rw [BitVec.extractLsb'_toNat, Nat.shiftRight_eq_div_pow, BitVec.toNat_ofNat] at hzero
  have hlt := hdr.isLt
  omega

theorem pictureSizeOk_eq_false {picW picH : Word} (h : picW = 0#32 ∨ picH = 0#32) : pictureSizeOk picW picH = false :=
  decide_eq_false fun ⟨hw, hh⟩ => h.elim hw hh

theorem qpLayoutOk_eq_false {qpn bpl : BitVec 8} (h : qpn.toNat = 0 ∨ bpl.toNat < qpn.toNat) :
    qpLayoutOk qpn bpl = false :=
  decide_eq_false (by omega)

/-! ### The commands that check them -/

/-- A command whose operands alone are out of range raises OperandRange. REG_RD and REG_WR are left out: a register number
that they may not name raises RegAccess (44_control.md R381, R382). -/
theorem exec_illFormed_operandRange {i : Instr} (s : State) (hwf : i.wellFormed = false)
    (hreg : .regAccess ∉ mayRaise i := by simp [mayRaise]) : exec i s = raise i .operandRange s := by
  cases hn : namedWriter i with
  | some w => exact exec_named_operandRange s hn hwf
  | none =>
    cases i with
    | secAdd | roiInit | roiFill | qpFlat | qpLoad => exact if_neg (Bool.eq_false_iff.1 hwf)
    | regRd | regWr => simp [mayRaise] at hreg
    | nop | bwInit | nalMkhdr | secAttach | secPicture | secAddsei | roiAdd | roiClear | roiDestroy => cases hwf
    | _ => cases hn

/-- Settles O10: an ill-formed command raises OperandRange, and the operands of each clause are ill-formed. -/
theorem operandRangeFaults : Obligations.OperandRangeFaults := by
  refine fun s => ⟨fun w n v h => ?_, fun w n v h => exec_illFormed_operandRange s (putSignedOk_eq_false h),
    fun w => exec_illFormed_operandRange s rfl, fun w => exec_illFormed_operandRange s rfl, fun w hdr h => ?_,
    fun o l f => exec_secAdd_operandRange, fun m pw ph q h => exec_illFormed_operandRange s (pictureSizeOk_eq_false h),
    fun qpn bpl dst h => ?_⟩
  · have hno := putUnsignedOk_eq_false h
    exact ⟨exec_illFormed_operandRange s hno, exec_illFormed_operandRange s hno⟩
  · have hno := nalHeaderOk_one_eq_false h
    exact ⟨exec_illFormed_operandRange s hno, fun df budget => exec_illFormed_operandRange s hno⟩
  · have hno := qpLayoutOk_eq_false h
    exact ⟨exec_illFormed_operandRange s hno, fun v => exec_illFormed_operandRange s hno,
      fun src n => exec_illFormed_operandRange s hno⟩

end Sys2Proof.Machine
end

section
/-! The causes a command can raise (60_exceptions.md R401), by the branches of its pseudocode. -/

namespace Sys2Proof.Machine

/-- If a result is a halted state, its cause is one that the command's row names. -/
def RaisesNamed (i : Instr) (r : Result) : Prop := ∀ t, r = .next t → t.halted = true → t.faultCause ∈ mayRaise i

theorem RaisesNamed.completed {i : Instr} {u : State} (hrun : u.halted = false) : RaisesNamed i (complete u) := by
  rintro t h hstop
  rw [← (complete_eq_next u t).1 h, hrun] at hstop
  cases hstop

theorem RaisesNamed.answered {i : Instr} {u : State} (r : Word) (hrun : u.halted = false) :
    RaisesNamed i (completeWith r u) :=
  .completed hrun

theorem RaisesNamed.raised {i : Instr} {c : FaultCause} {s : State} (hc : c ∈ mayRaise i := by simp [mayRaise]) :
    RaisesNamed i (raise i c s) := by
  rintro t h -
  rw [← (raise_eq_next i c s t).1 h, faultEntry_faultCause]
  exact hc

theorem RaisesNamed.busFault {i : Instr} {b : Nat} {s : State} (hc : .busError ∈ mayRaise i := by simp [mayRaise]) :
    RaisesNamed i (raiseBus i b s) := by
  rintro t h -
  rw [← (raiseBus_eq_next i b s t).1 h, faultEntry_faultCause]
  exact hc

theorem RaisesNamed.ite {i : Instr} {p : Prop} [Decidable p] {a b : Result} (ha : RaisesNamed i a)
    (hb : RaisesNamed i b) : RaisesNamed i (if p then a else b) := by
  split
  · exact ha
  · exact hb

/-- CheckPlan raises SectionFull or SectionRange (42_sections.md R251). -/
theorem RaisesNamed.planRefused {i : Instr} {s : State} {plan : List Span} {c : FaultCause} (h : checkPlan s plan = some c)
    (hfull : .sectionFull ∈ mayRaise i := by simp [mayRaise])
    (hrange : .sectionRange ∈ mayRaise i := by simp [mayRaise]) : RaisesNamed i (raise i c s) := by
  unfold checkPlan at h
  split_ifs at h <;> cases h
  · exact .raised hfull
  · exact .raised hrange

section
variable {s : State} (hrun : s.halted = false)
include hrun

/-- The commands on W[w] (40_bitwriter.md R152). -/
theorem writerCommand_raisesNamed {i : Instr} (ok : Bool) (w : WriterId) (f : Stream → Stream)
    (hrange : .operandRange ∈ mayRaise i := by simp [mayRaise])
    (hvalid : .notInitialised ∈ mayRaise i := by simp [mayRaise]) : RaisesNamed i (writerCommand i ok w f s) :=
  .ite (.ite (.completed ((withStream_halted s w _).trans hrun)) (.raised hvalid)) (.raised hrange)

theorem execRegWr_raisesNamed (reg : BitVec 16) (value : Word) :
    RaisesNamed (.regWr reg value) (execRegWr reg value s) := by
  unfold execRegWr
  split
  · exact .raised
  · refine .ite ?_ .raised
    split
    · exact .raised
    · obtain ⟨-, hhalt, -⟩ := (control_eq_iff _ _).1 (writeReg_control ‹_›)
      exact .completed (hhalt.trans hrun)

theorem execSecPicture_raisesNamed (record : Word) : RaisesNamed (.secPicture record) (execSecPicture record s) := by
  refine .ite (.ite .raised ?_) .raised
  split
  · exact .busFault
  · refine .ite .raised ?_
    split
    · exact .busFault
    · refine .ite ?_ .raised
      unfold pictureFlow
      split
      · exact .planRefused ‹_›
      · exact .answered _ hrun

theorem execQpLoad_raisesNamed (qpn bpl : BitVec 8) (dst src srcLen : Word) :
    RaisesNamed (.qpLoad qpn bpl dst src srcLen) (execQpLoad qpn bpl dst src srcLen s) := by
  refine .ite (.ite (.ite (.answered _ hrun) ?_) .raised) .raised
  split
  · exact .busFault
  · split
    · exact .busFault
    · exact .answered _ hrun

/-- The branches of every command: what it raises is in its row. -/
theorem exec_raisesNamed (i : Instr) : RaisesNamed i (exec i s) := by
  cases i with
  | nop => exact .completed hrun
  | regRd reg =>
    rw [exec, execRegRd]
    split
    · exact .raised
    · exact .answered _ hrun
  | regWr reg value => exact execRegWr_raisesNamed hrun reg value
  | bwInit w base maxBits =>
    rw [exec, execBwInit]
    split
    · exact .busFault
    · exact .completed ((setWriter_halted s w _).trans hrun)
  | bwPutbits | bwPutu | bwPuts | bwPutue | bwPutse | nalStart => exact writerCommand_raisesNamed hrun _ _ _
  | bwPutbit w | bwAlign w | bwTrail w | bwSkip w => exact .ite (.completed ((withStream_halted s w _).trans hrun)) .raised
  | bwGetbits | bwGetdata | bwGetwptr => exact .ite (.answered _ hrun) .raised
  | nalMkhdr =>
    rw [exec, execNalMkhdr]
    split
    · exact .raised
    · exact .ite (.answered _ hrun) .raised
    · exact .ite (.answered _ hrun) .raised
  | nalEpcopy w =>
    refine .ite ?_ .raised
    split
    · exact .busFault
    · exact .answered _ ((withStream_halted s w _).trans hrun)
  | nalFiller w => exact .ite (.ite (.answered _ ((withStream_halted s w _).trans hrun)) .raised) .raised
  | secAttach =>
    rw [exec, execSecAttach]
    split
    · exact .busFault
    · exact .completed hrun
  | secAdd =>
    refine .ite (.ite ?_ .raised) .raised
    split
    · exact .planRefused ‹_›
    · exact .answered _ hrun
  | secPicture record => exact execSecPicture_raisesNamed hrun record
  | secAddsei =>
    refine .ite (.ite .raised ?_) .raised
    split
    · exact .busFault
    · exact .ite (.answered _ hrun) (.ite (.answered _ hrun) (.answered _ hrun))
  | roiInit => exact .ite (.completed hrun) .raised
  | roiAdd => exact .ite (.ite (.ite .raised (.answered _ hrun)) (.answered _ hrun)) .raised
  | roiClear | roiDestroy => exact .ite (.completed hrun) .raised
  | roiFill | qpFlat =>
    refine .ite (.ite ?_ .raised) .raised
    split
    · exact .busFault
    · exact .answered _ hrun
  | qpLoad qpn bpl dst src srcLen => exact execQpLoad_raisesNamed hrun qpn bpl dst src srcLen

end

/-- Settles O9: by the branches of every command. -/
theorem faultCausesPerCommand : Obligations.FaultCausesPerCommand :=
  fun i _ t hrun => exec_raisesNamed hrun i t

end Sys2Proof.Machine
end

section
/-! Reset (70_reset_and_hazards.md R440 to R443): what each register reads after it, by the rows of the register map
(10_state.md R55), and the registers that show the parameters. -/

namespace Sys2Proof.Machine

/-! ### The registers after reset -/

/-- The read-only registers that show the parameters (10_state.md R54). -/
def paramRegs : List RegName := [.pTmpCap, .pMaxSections, .pMaxParts, .pMaxRoi, .pMaxLayers, .pSentinel, .pFmv0Mask]

theorem status_hostReset (s : State) : (hostReset s).status = 0#32 := by
  simp only [State.status, hostReset, State.reset, Bool.false_eq_true, if_false, BitVec.or_zero]

/-- R441, R443: three registers have a reset value other than 0, and the parameters show what they showed before. -/
theorem readReg_hostReset (s : State) (r : RegName) : readReg (hostReset s) r =
    if r = .cfgScLen then 4#32 else if r = .cfgNumLayers then 1#32 else if r = .cfgHdrReserve then 2048#32
    else if r ∈ paramRegs then readReg s r else 0#32 := by
  cases r with
  | writer w f => cases w <;> cases f <;> rfl
  | sect i k => exact sectionReg_past (t := []) k (Nat.zero_le i)
  | node i k => exact nodeReg_past (l := []) k (Nat.zero_le i)
  | status => exact status_hostReset s
  | _ => rfl

/-! ### Their numbers -/

theorem mem_regTable_of_regOfNat {n : Nat} {r : RegName} (hn : n < 0x400 ∨ 0x1000 ≤ n) (h : regOfNat n = some r) :
    (n, r) ∈ regTable := by
  rw [regOfNat_table hn, Option.map_eq_some_iff] at h
  obtain ⟨e, he, rfl⟩ := h
  obtain rfl : e.1 = n := by simpa using List.find?_some he
  exact List.mem_of_find?_eq_some he

/-- R55: the numbers of the registers that a reset does not leave 0. -/
theorem regOfNat_reset_numbers {n : Nat} {r : RegName} (h : regOfNat n = some r) :
    (r = .cfgScLen ↔ n = 0x011) ∧ (r = .cfgNumLayers ↔ n = 0x015) ∧ (r = .cfgHdrReserve ↔ n = 0x016) ∧
      (r ∈ paramRegs ↔ 0x060 ≤ n ∧ n ≤ 0x066) := by
  by_cases htable : n < 0x400 ∨ 0x1000 ≤ n
  · have hrows : ∀ e ∈ regTable, (e.2 = .cfgScLen ↔ e.1 = 0x011) ∧ (e.2 = .cfgNumLayers ↔ e.1 = 0x015) ∧
        (e.2 = .cfgHdrReserve ↔ e.1 = 0x016) ∧ (e.2 ∈ paramRegs ↔ 0x060 ≤ e.1 ∧ e.1 ≤ 0x066) := by decide
    exact hrows (n, r) (mem_regTable_of_regOfNat htable h)
  · have hentry : (∃ i k, r = .sect i k) ∨ ∃ i k, r = .node i k := by
      by_cases hs : n < 0x800
      · exact .inl ⟨_, _, Option.some.inj (h.symm.trans (regOfNat_sect (by omega)))⟩
      · exact .inr ⟨_, _, Option.some.inj (h.symm.trans (regOfNat_node (by omega)))⟩
    rcases hentry with ⟨i, k, rfl⟩ | ⟨i, k, rfl⟩ <;>
    · simp only [paramRegs, List.mem_cons, List.not_mem_nil, reduceCtorEq, false_or, false_iff]
      omega

theorem readPort_hostReset (s : State) (n : BitVec 16) : readPort (hostReset s) n =
    if n = 0x011#16 then 4#32 else if n = 0x015#16 then 1#32 else if n = 0x016#16 then 2048#32
    else if 0x060 ≤ n.toNat ∧ n.toNat ≤ 0x066 then readPort s n else 0#32 := by
  simp only [BitVec.toNat_eq (x := n), BitVec.toNat_ofNat, Nat.reducePow, Nat.reduceMod]
  cases h : regOfNat n.toNat with
  | some r =>
    obtain ⟨hscLen, hlayers, hreserve, hparams⟩ := regOfNat_reset_numbers h
    simp only [readPort_of_regOfNat _ h, readReg_hostReset, hscLen, hlayers, hreserve, hparams]
  | none =>
    have hundefined : (regOfNat n.toNat).isSome = false := Option.isSome_eq_false_iff.2 (by rw [h]; rfl)
    have hnumbers := (regOfNat_isSome_iff n.toNat).not.1 (Bool.eq_false_iff.1 hundefined)
    rw [readPort_undefined _ hundefined, if_neg (by omega), if_neg (by omega), if_neg (by omega), if_neg (by omega)]

/-- Settles O11: the registers by their numbers; the rest is what the reset state holds. -/
theorem resetRegisterValues : Obligations.ResetRegisterValues :=
  fun s => ⟨readPort_hostReset s, rfl, rfl, rfl, rfl, hostReset_mem s, hostReset_platform s, rfl⟩

end Sys2Proof.Machine
end

section
/-! The invariants at power-on and across the moves of the host (70_reset_and_hazards.md R440, R441, R445, 20_memory.md R91). -/

namespace Sys2Proof.Machine

/-- The parameters keep their bounds whatever an implementation makes of them (00_scope.md R7). -/
theorem config_params_ok : Config.params.Ok := by
  have hsections := Config.maxSections.isLt
  have hroi := Config.maxRoi.isLt
  have hlayers := Config.maxLayersLessOne.isLt
  have hplace : ∀ p : Fmv0Place, p.mask = 0x40#8 ∨ p.mask = 0x80#8 := fun p => by cases p <;> decide
  simp only [Params.Ok, Config.params, BitVec.toNat_ofNat]
  refine ⟨by omega, by omega, by omega, by omega, hplace _, ?_⟩
  ext i
  simp +contextual

theorem writerOk_reset (rs : List Region) : WriterOk rs HostWriter.reset := ⟨fun _ => rfl, nofun, fun _ => Nat.zero_le _⟩

/-- R441 to R443: the registers start out legal, so a reset needs only what it keeps to be legal: memory and the
parameters. -/
theorem reachable_hostReset {s : State} (hmem : s.mem.wf = true) (hparams : s.params.Ok) : Reachable (hostReset s) where
  memory := hmem
  writers := ⟨writerOk_reset _, writerOk_reset _⟩
  buffer := ⟨fun _ => ⟨rfl, rfl, rfl⟩, nofun⟩
  table := ⟨Nat.zero_le _, nofun, .nil, nofun⟩
  roi := roiOk_of_nodes_nil rfl (fun _ => rfl) nofun
  faults := ⟨fun _ => ⟨rfl, rfl, rfl, rfl⟩, nofun⟩
  config :=
    have ⟨_, _, hone, _⟩ := hparams
    ⟨hparams, ⟨Nat.le_refl 1, hone⟩, Nat.zero_le 6⟩

/-- No invariant speaks of the waiting words, and only one of memory: its canonical form. -/
theorem Reachable.with_mem_port {s : State} (h : Reachable s) {m : Memory} (hm : m.wf = true) (ws : List Word) :
    Reachable { s with mem := m, port := ws } where
  memory := hm
  writers := h.writers
  buffer := h.buffer.of_bufferFields rfl
  table := h.table.of_bufferFields rfl
  roi := h.roi.of_roiFields rfl
  faults := ⟨h.faults.running, h.faults.stopped⟩
  config := h.config.of_configFields rfl

/-- Settles O12: power-on is the reset of an empty memory with the implementation's parameters, and the other moves of the
host change only the waiting words or memory. -/
theorem reachableAfterReset : Obligations.ReachableAfterReset := by
  refine ⟨reachable_hostReset (s := State.reset) wf_empty config_params_ok, fun s hs =>
    ⟨reachable_hostReset hs.memory hs.config.params, fun ws => ⟨hs.with_mem_port hs.memory _, rfl⟩, fun a b =>
      ⟨hs.with_mem_port (wf_writeByte s.mem a b hs.memory) _, rfl, fun c hc => ?_, fun ha => ?_⟩⟩⟩
  · exact readByte_writeByte_other s.mem a c b hc
  · exact readByte_writeByte_same s.mem a b hs.memory ha

end Sys2Proof.Machine
end
